-- ==== Sys2Proof/Word.lean ====
section
/-! DEFINITION. The block's byte (R10) and its number type (R9), as plain data.
The arithmetic on them is in Machine/Arith.lean. -/

namespace Sys2Proof

/-- R10: a byte is 8 bits, bit 0 the least significant. -/
abbrev Byte := BitVec 8

/-- R9: a value of NUM. Every finite value of a format is an integer multiple of the format's smallest spacing
(2^-149 for binary32, 2^-1074 for binary64), so a value is a sign and a magnitude counted in that unit; `neg` with
magnitude 0 is -0. Which pairs are values of a given format is `NumVal.inFmt`. DESIGN CHOICE (assumption 10, safe):
no operation of the block reads the bits of a NUM, so its bit encoding is not modelled. -/
structure NumVal where
  neg : Bool
  mag : Nat
  deriving DecidableEq, Repr

/-- +0, the zero of positive sign (R9, R22). -/
def NumVal.posZero : NumVal := ⟨false, 0⟩

/-- The exact value in the format's unit: +0 and -0 are both 0 (R9: "distinct as encodings but equal as values"). -/
def NumVal.toInt (x : NumVal) : Int := if x.neg then -(x.mag : Int) else (x.mag : Int)

end Sys2Proof
end

