-- ==== Sys2Proof/Config.lean ====
section
/-! DEFINITION. The implementation parameters of rule R5 as one record, its default, and the free values
(constants without a body) that stand for what the spec leaves to the environment. Which records are legal is
`Params.legal` in Machine/Arith.lean. -/

namespace Sys2Proof

/-- R5 NUM_FMT. -/
inductive NumFmt where
  | binary32 | binary64
  deriving DecidableEq, Repr

/-- R5 PARSE_MODE: STRICT (R49) or PREFIX (R50). -/
inductive ParseMode where
  | strictText | prefixText
  deriving DecidableEq, Repr

/-- R5 REPORT_SRC: LATCHED or FRESH (R101). -/
inductive ReportSrc where
  | latched | fresh
  deriving DecidableEq, Repr

/-- R4: the two agents. -/
inductive Agent where
  | tick | sequencer
  deriving DecidableEq, Repr, Inhabited

/-- R5: the parameter record, in the order of the rule's table. SCALE, a function, is `Config.scaleRaw`. -/
structure Params where
  clkW : Nat
  tickMs : Nat
  controlInterval : Nat
  reportInterval : Nat
  sensorMax : Nat
  minCount : Nat
  maxCount : Nat
  deadband : Nat
  integralLimit : Nat
  bufCap : Nat
  numFmt : NumFmt
  parseMode : ParseMode
  setpointReset : Nat
  kpReset : NumVal
  kiReset : NumVal
  kdReset : NumVal
  actReset : Nat
  reportSrc : ReportSrc
  delim : List Byte
  deriving DecidableEq, Repr

/-- R5: the default column. The parameters marked OPEN have no default; the values here are the model's.
DESIGN CHOICE (assumption 2, unsafe): setpointReset, kpReset, kiReset and kdReset are zero.
DESIGN CHOICE (assumption 3, unsafe): actReset is zero.
DESIGN CHOICE (assumption 4, unsafe): delim is one comma, 0x2C. -/
def Params.default : Params where
  clkW := 32
  tickMs := 1
  controlInterval := 10
  reportInterval := 100
  sensorMax := 1023
  minCount := 0
  maxCount := 511
  deadband := 2
  integralLimit := 10200
  bufCap := 16
  numFmt := .binary32
  parseMode := .strictText
  setpointReset := 0
  kpReset := .posZero
  kiReset := .posZero
  kdReset := .posZero
  actReset := 0
  reportSrc := .latched
  delim := [0x2C]

/-- R106 and R116: which agent moves at the n-th choice, when State scripts no choice. Free (assumption 8). -/
opaque Config.freeAgent : Nat → Agent

/-- R104: what the n-th RxPoll returns, when State scripts no result. Free (assumption 6). -/
opaque Config.freeRx : Nat → Option Byte

/-- R102: the n-th AdcSample before it is brought into [0, SENSOR_MAX], when State scripts no sample. Free
(assumption 7). -/
opaque Config.freeSample : Nat → Nat

/-- R5 SCALE before its restriction to texts without DELIM and 0x0A (`scaleText`). Free (assumption 5). -/
opaque Config.scaleRaw : Nat → List Byte

end Sys2Proof
end

