-- ==== Sys2Proof/Machine/Arith.lean ====
section
/-! DEFINITION. Number arithmetic: the formats and the rounding of R9, the integer functions of R8, and the
check of a parameter record against the legal values of R5. -/

namespace Sys2Proof

/-- R9: significand width, 24 or 53 bits. -/
def NumFmt.prec : NumFmt → Nat
  | .binary32 => 24
  | .binary64 => 53

/-- R9: how many units make the value one. The unit is the smallest spacing of two values: 2^-149 for binary32
(smallest exponent -126, 24-bit significand), 2^-1074 for binary64 (-1022, 53 bits). -/
def NumFmt.one : NumFmt → Nat
  | .binary32 => 2 ^ 149
  | .binary64 => 2 ^ 1074

/-- R9: the overflow threshold, 2^128 - 2^103 or 2^1024 - 2^970, in units. -/
def NumFmt.overflow : NumFmt → Nat
  | .binary32 => (2 ^ 128 - 2 ^ 103) * NumFmt.one .binary32
  | .binary64 => (2 ^ 1024 - 2 ^ 970) * NumFmt.one .binary64

/-- The exponent of the spacing of NUM values, in units, around a magnitude whose whole part is `m` units. -/
def NumFmt.spacingExp (f : NumFmt) (m : Nat) : Nat := Nat.log2 m + 1 - f.prec

/-- R9: the pair is a value of the format: a multiple of the spacing at its magnitude, and below the overflow
threshold (the largest finite value is the only multiple between it and the threshold). -/
def NumVal.inFmt (f : NumFmt) (x : NumVal) : Bool :=
  x.mag % 2 ^ f.spacingExp x.mag == 0 && decide (x.mag < f.overflow)

/-- The integer nearest n / d, ties to the even one. -/
def roundHalfEven (n d : Nat) : Nat :=
  if 2 * (n % d) < d then n / d
  else if d < 2 * (n % d) then n / d + 1
  else if n / d % 2 = 0 then n / d else n / d + 1

/-- R9: the magnitude of rnd(x) for |x| = n / d units; none where |x| is at or beyond the overflow threshold. -/
def roundMag (f : NumFmt) (n d : Nat) : Option Nat :=
  if f.overflow * d ≤ n then none
  else some (roundHalfEven n (d * 2 ^ f.spacingExp (n / d)) * 2 ^ f.spacingExp (n / d))

/-- R9: rnd of the exact value of sign `neg` and magnitude n / d units. -/
def NumVal.rnd (f : NumFmt) (neg : Bool) (n d : Nat) : Option NumVal :=
  (roundMag f n d).map (NumVal.mk neg)

/-- R9: a ⊕ b. PRESUMED (assumption 11, safe): the sign of an exact zero sum is IEEE 754's, negative only if
both operands are. -/
def NumVal.add (f : NumFmt) (a b : NumVal) : Option NumVal :=
  let z := a.toInt + b.toInt
  NumVal.rnd f (if z = 0 then a.neg && b.neg else decide (z < 0)) z.natAbs 1

/-- R9: a ⊗ b, the sign being the product of the operands' signs (R69). -/
def NumVal.mul (f : NumFmt) (a b : NumVal) : Option NumVal :=
  NumVal.rnd f (a.neg != b.neg) (a.mag * b.mag) f.one

/-- R9: num(n) = rnd(n). -/
def NumVal.ofInt (f : NumFmt) (n : Int) : Option NumVal :=
  NumVal.rnd f (decide (n < 0)) (n.natAbs * f.one) 1

/-- R51: rnd of the decimal of sign `neg` and magnitude n / 10^k; a zero takes the literal's sign (R49). -/
def NumVal.ofDec (f : NumFmt) (neg : Bool) (n k : Nat) : Option NumVal :=
  NumVal.rnd f neg (n * f.one) (10 ^ k)

/-- R8: trunc(v), the integer nearest v in the direction of zero. -/
def NumVal.trunc (f : NumFmt) (x : NumVal) : Int :=
  if x.neg then -((x.mag / f.one : Nat) : Int) else ((x.mag / f.one : Nat) : Int)

/-- An integer in units, to compare a NUM value with it exactly (R9). -/
def scaled (f : NumFmt) (n : Int) : Int := n * (f.one : Int)

/-- R8: clamp(x, lo, hi) on integers. -/
def clampInt (x lo hi : Int) : Int := if x < lo then lo else if hi < x then hi else x

/-- R5: an integer is exactly representable in NUM. -/
def representable (f : NumFmt) (n : Nat) : Bool := NumVal.inFmt f ⟨false, n * f.one⟩

/-- R5 and R6: the legal values of the parameter record. -/
def Params.legal (p : Params) : Bool :=
  decide (2 ≤ p.clkW) && p.tickMs == 1 &&
  decide (p.controlInterval < 2 ^ p.clkW) && decide (p.reportInterval < 2 ^ p.clkW) &&
  p.minCount == 0 && decide (p.minCount < p.maxCount) && representable p.numFmt p.maxCount &&
  representable p.numFmt p.integralLimit && decide (1 ≤ p.bufCap) &&
  decide (p.setpointReset ≤ p.sensorMax) &&
  p.kpReset.inFmt p.numFmt && p.kiReset.inFmt p.numFmt && p.kdReset.inFmt p.numFmt &&
  decide (p.minCount ≤ p.actReset) && decide (p.actReset ≤ p.maxCount) &&
  p.delim != [] && !p.delim.contains 0x0A

/-- R5 SCALE: a text holding neither DELIM nor 0x0A. Every legal SCALE is its own restriction, so leaving
`Config.scaleRaw` free leaves SCALE free among the legal functions (assumption 5). -/
def scaleText (delim : List Byte) (sample : Nat) : List Byte :=
  let t := (Config.scaleRaw sample).filter (· != 0x0A)
  if t.tails.any (delim.isPrefixOf ·) then [] else t

end Sys2Proof
end

