-- ==== Sys2Proof/Machine/Flags.lean ====
section
/-! DEFINITION. The conditions the operations test. R32: the block keeps no flags; these are "values computed and
consumed inside" one step. -/

namespace Sys2Proof.Machine

open Sys2Proof

/-- R63: elapsed(a, b) = (a - b) mod 2^CLK_W. -/
def elapsed (p : Params) (a b : Nat) : Nat := (((a : Int) - (b : Int)) % ((2 ^ p.clkW : Nat) : Int)).toNat

/-- R98: an interval has elapsed since b at time a. -/
def intervalElapsed (p : Params) (a b interval : Nat) : Bool := decide (interval ≤ elapsed p a b)

/-- R68: steps 1 and 2, the exact error after the dead-band. -/
def deadBandError (p : Params) (setpoint sample : Nat) : Int :=
  let e : Int := (setpoint : Int) - (sample : Int)
  if e.natAbs < p.deadband then 0 else e

/-- R72: whether a step with tentative output u0 and error e integrates. -/
def integrateAllowed (p : Params) (u0 : NumVal) (e : Int) : Bool :=
  if scaled p.numFmt p.maxCount ≤ u0.toInt then decide (e < 0)
  else if u0.toInt ≤ scaled p.numFmt p.minCount then decide (0 < e)
  else true

end Sys2Proof.Machine
end

