-- ==== Sys2Proof/Machine/Bytes.lean ====
section
/-! DEFINITION. The byte values of the command protocol (R44) and the byte classes the rules speak of. -/

namespace Sys2Proof

/-- R44: line feed, 0x0A. -/
def byteLF : Byte := 0x0A
/-- R44: carriage return, 0x0D. -/
def byteCR : Byte := 0x0D
/-- R44: tag `S`. -/
def byteS : Byte := 0x53
/-- R44: tag `P`. -/
def byteP : Byte := 0x50
/-- R44: tag `I`. -/
def byteI : Byte := 0x49
/-- R44: tag `D`. -/
def byteD : Byte := 0x44
/-- R44: `+`. -/
def bytePlus : Byte := 0x2B
/-- R44: `-`. -/
def byteMinus : Byte := 0x2D
/-- R44: `.`. -/
def bytePoint : Byte := 0x2E
/-- R44: space. -/
def byteSpace : Byte := 0x20
/-- R44: horizontal tab. -/
def byteTab : Byte := 0x09

/-- R45: TERM is 0x0A or 0x0D. -/
def isTerminator (b : Byte) : Bool := b == byteLF || b == byteCR

/-- R44: the digits `0` to `9` are 0x30 to 0x39. -/
def isDigit (b : Byte) : Bool := 0x30 ≤ b.toNat && b.toNat ≤ 0x39

/-- The value of a digit byte (R44). -/
def digitVal (b : Byte) : Nat := b.toNat - 0x30

/-- R47: one of the four recognised tags. -/
def isCommandTag (b : Byte) : Bool := b == byteS || b == byteP || b == byteI || b == byteD

end Sys2Proof
end

