-- ==== Sys2Proof/Machine/Operands.lean ====
section
/-! DEFINITION. The one operand form of the protocol, the number text: its grammar (R48), its value (R49 to R51),
and the decimal digits of the status line (R57). -/

namespace Sys2Proof.Machine

open Sys2Proof

/-- A literal read from a text: its sign, its digits as one number, how many of them stand after the point, and
the bytes after it. -/
structure Literal where
  neg : Bool
  digits : Nat
  scale : Nat
  rest : List Byte
  deriving DecidableEq, Repr

/-- R34: digit bytes as a number, most significant first. -/
def digitsValue (ds : List Byte) : Nat := ds.foldl (fun n b => 10 * n + digitVal b) 0

/-- R48 SIGN?: whether the text begins with `-`, and the text after its sign. -/
def takeSign : List Byte → Bool × List Byte
  | [] => (false, [])
  | b :: t => if b = byteMinus then (true, t) else if b = bytePlus then (false, t) else (false, b :: t)

/-- R48 MANTISSA, the longest one the text begins with: the digits before the point, those after it, the rest. -/
def takeMantissa (t : List Byte) : Option (List Byte × List Byte × List Byte) :=
  let whole := t.takeWhile isDigit
  match t.dropWhile isDigit with
  | [] => if whole = [] then none else some (whole, [], [])
  | b :: r =>
    if b = bytePoint then
      let frac := r.takeWhile isDigit
      if whole = [] ∧ frac = [] then none else some (whole, frac, r.dropWhile isDigit)
    else if whole = [] then none else some (whole, [], b :: r)

/-- R48 NUMBER: the longest literal the text begins with. -/
def takeNumber (t : List Byte) : Option Literal :=
  match takeMantissa (takeSign t).2 with
  | none => none
  | some (whole, frac, rest) => some ⟨(takeSign t).1, digitsValue (whole ++ frac), frac.length, rest⟩

/-- R51: rnd(dec(T)); none where the value overflows NUM. -/
def literalValue (f : NumFmt) (l : Literal) : Option NumVal := NumVal.ofDec f l.neg l.digits l.scale

/-- R49, PARSE_MODE = STRICT: the value of a text that is a literal as a whole, else +0. -/
def strictValue (f : NumFmt) (t : List Byte) : Option NumVal :=
  match takeNumber t with
  | none => some .posZero
  | some l => if l.rest = [] then literalValue f l else some .posZero

/-- R50, PARSE_MODE = PREFIX: after leading spaces and tabs, the value of the longest literal, else +0. -/
def longestValue (f : NumFmt) (t : List Byte) : Option NumVal :=
  match takeNumber (t.dropWhile fun b => b == byteSpace || b == byteTab) with
  | none => some .posZero
  | some l => literalValue f l

/-- NUMVAL(T) of R86: R49 to R51 by PARSE_MODE. -/
def textValue (p : Params) (t : List Byte) : Option NumVal :=
  match p.parseMode with
  | .strictText => strictValue p.numFmt t
  | .prefixText => longestValue p.numFmt t

/-- R57: unsigned decimal digits without leading zeros, 0 being one digit. -/
def decimalText (n : Nat) : List Byte := (Nat.toDigits 10 n).map fun c => BitVec.ofNat 8 c.toNat

end Sys2Proof.Machine
end

