-- ==== Sys2Proof/Syntax.lean ====
section
/-! DEFINITION. The operations of the block: one constructor per row of spec/opcode_table.json (R58). -/

namespace Sys2Proof

/-- R27: the line-assembly state. -/
inductive CmdState where
  | idle | collecting
  deriving DecidableEq, Repr

/-- R15: the sequencer's program counter. -/
inductive Phase where
  | poll | snap | ctrl | rpt
  deriving DecidableEq, Repr

/-- R58: the 19 rows. The byte rows (R46) carry the received byte where the row leaves it open, CMD_OTHER its tag
byte (R47), PID_STEP its sample (R67 "input `sample`"). -/
inductive Instr where
  /-- RX_NONE (R81). -/
  | rxNone
  /-- DISCARD_LF (R82). -/
  | discardLf
  /-- DISCARD_CR (R82). -/
  | discardCr
  /-- TAG (R83). -/
  | tag (b : Byte)
  /-- STORE (R84). -/
  | store (b : Byte)
  /-- DROP (R85). -/
  | drop (b : Byte)
  /-- COMMIT_LF (R86). -/
  | commitLf
  /-- COMMIT_CR (R86). -/
  | commitCr
  /-- CMD_S (R88). -/
  | cmdS
  /-- CMD_P (R89). -/
  | cmdP
  /-- CMD_I (R90). -/
  | cmdI
  /-- CMD_D (R91). -/
  | cmdD
  /-- CMD_OTHER (R92). -/
  | cmdOther (b : Byte)
  /-- TICK (R60). -/
  | tick
  /-- POLL (R80). -/
  | poll
  /-- SNAP (R62). -/
  | snap
  /-- CTRL (R99). -/
  | ctrl
  /-- PID_STEP (R67). -/
  | pidStep (sample : Nat)
  /-- RPT (R101). -/
  | rpt
  deriving DecidableEq, Repr

end Sys2Proof
end

