-- ==== Sys2Proof/Machine/State.lean ====
section
/-! DEFINITION. The machine's state (R13), its fault and refusal reasons, and reset (R126). -/

namespace Sys2Proof.Machine

open Sys2Proof

/-- R30: the kinds the sticky fault set may hold. -/
inductive FaultKind where
  /-- R113, cause code 1. -/
  | nonfinite
  deriving DecidableEq, Repr

/-- Why the machine stops. -/
inductive Fault where
  /-- R112: the fault set is not empty, so the block is quiescent and "neither agent has an enabled step". Raised
  by every operation in such a state. Safe: the spec says that no step is taken. -/
  | nonfinite
  /-- U17: a buffer byte at an index at or beyond `len`, or never written, holds no value. Raised by a commit's
  reads. Safe: no step of a run does it. -/
  | noValueInByte
  /-- R33: no buffer byte exists at an index at or beyond BUF_CAP. Raised by a store. Safe: no step of a run does it. -/
  | noSuchByte
  deriving DecidableEq, Repr

/-- Why an operation has no meaning. -/
inductive Refusal where
  /-- An operation exec does not model yet: none. Safe. -/
  | notModelled (mnemonic : String)
  /-- R6 and R114 ILLEGAL_PARAMS: the parameter record is outside the legal values. Raised by every operation. Safe. -/
  | illegalParams
  /-- The operation's enabling condition (the `state` column of the opcode table) does not hold. Raised by every
  operation but TICK, never by step. Safe. -/
  | notEnabled
  /-- R109: the environment answered with a sample outside [0, SENSOR_MAX], which "has no move". Raised by CTRL,
  RPT and PID_STEP. Safe. -/
  | environmentBreach
  deriving DecidableEq, Repr

/-- How a part of a step ends short of a state: `raise` is R112's raise Fault(k), the others stop the machine. -/
inductive Stop where
  | raise (k : FaultKind)
  | fault (f : Fault)
  | refuse (r : Refusal)
  deriving DecidableEq, Repr

/-- R105: a status report (time, sample, output). -/
structure Report where
  time : Nat
  sample : Nat
  output : Nat
  deriving DecidableEq, Repr

/-- The environment's choices (R109): scripted ones first, then the free values of Config applied to the number
of draws made. The model's own fields (assumption 6). -/
structure Env where
  /-- which agent moves at the next steps (R116) -/
  sched : List Agent
  /-- what the next RxPoll calls return (R104) -/
  rx : List (Option Byte)
  /-- what the next AdcSample calls return (R102) -/
  adc : List Nat
  schedDraws : Nat
  rxDraws : Nat
  adcDraws : Nat
  deriving DecidableEq, Repr

structure State where
  /-- R5, R126: fixed at reset (assumption 1) -/
  params : Params
  /-- R15 -/
  phase : Phase
  /-- R16, in [0, 2^CLK_W) -/
  nowLatch : Nat
  /-- R17, in [0, 2^CLK_W) -/
  clk : Nat
  /-- R18 -/
  tickPending : Bool
  /-- R19 -/
  tickMask : Bool
  /-- R20 -/
  setpoint : Nat
  /-- R21 -/
  kp : NumVal
  /-- R21 -/
  ki : NumVal
  /-- R21 -/
  kd : NumVal
  /-- R22 -/
  integralError : NumVal
  /-- R23 -/
  lastError : Int
  /-- R24 -/
  lastControlTime : Nat
  /-- R25 -/
  lastReportTime : Nat
  /-- R26 -/
  rptSample : Nat
  /-- R26 -/
  rptOutput : Nat
  /-- R27 -/
  cmdState : CmdState
  /-- R28 -/
  len : Nat
  /-- R28, R33: the written bytes of the command buffer, in the canonical form `Memory.wf` -/
  buf : List Host.Cell
  /-- R29 -/
  actOut : Nat
  /-- R30: a set, held as a list without repeats -/
  faults : List FaultKind
  /-- R13, R105: the output trace, oldest first -/
  trace : List Report
  /-- R105, R57: the bytes handed to the transport's write, oldest first (assumption 19) -/
  tx : List Byte
  /-- R67 `return out`: what PID_STEP returned last (assumption 16) -/
  pidRet : Nat
  /-- the environment's choices (assumption 6) -/
  env : Env
  deriving DecidableEq, Repr

/-- The environment with no choice scripted and no draw made: every draw is free. -/
def Env.free : Env := ⟨[], [], [], 0, 0, 0⟩

/-- R126: the state after power-on with a parameter record. -/
def State.resetOf (p : Params) : State where
  params := p
  phase := .poll
  nowLatch := 0
  clk := 0
  tickPending := false
  tickMask := false
  setpoint := p.setpointReset
  kp := p.kpReset
  ki := p.kiReset
  kd := p.kdReset
  integralError := .posZero
  lastError := 0
  lastControlTime := 0
  lastReportTime := 0
  rptSample := 0
  rptOutput := 0
  cmdState := .idle
  len := 0
  buf := []
  actOut := p.actReset
  faults := []
  trace := []
  tx := []
  pidRet := 0
  env := .free

/-- R126: the state after power-on with the default record of R5 (assumptions 2, 3 and 4 name the values of its
OPEN parameters). -/
def State.reset : State := State.resetOf Params.default

end Sys2Proof.Machine
end

