-- ==== Sys2Proof/Machine/Ops.lean ====
section
/-! DEFINITION. The named operations over the state: the environment's primitives (R11), the command buffer (R33),
raising a fault (R112), and the frame in which every operation runs. -/

namespace Sys2Proof.Machine

open Sys2Proof

/-- The outcome of an operation. -/
abbrev Result := Host.Outcome State Fault Refusal

/-- A part of a step: the state after it, or how it ends the step. -/
abbrev Effect := Except Stop State

/-! ### The environment's draws -/

/-- R116: the agent that moves at the next step. -/
def State.agentNext (s : State) : Agent := s.env.sched.headD (Config.freeAgent s.env.schedDraws)

/-- The environment's choice of agent is used up. -/
def State.takeAgent (s : State) : State :=
  { s with env := { s.env with sched := s.env.sched.tail, schedDraws := s.env.schedDraws + 1 } }

/-- R104: what the next RxPoll returns. -/
def State.rxNext (s : State) : Option Byte := s.env.rx.headD (Config.freeRx s.env.rxDraws)

/-- R38: RxPoll consumes what it returns. -/
def State.takeRx (s : State) : State :=
  { s with env := { s.env with rx := s.env.rx.tail, rxDraws := s.env.rxDraws + 1 } }

/-- R102: what the next AdcSample returns. A free value is brought into [0, SENSOR_MAX], the range the rule gives. -/
def State.adcNext (s : State) : Nat :=
  s.env.adc.headD (Config.freeSample s.env.adcDraws % (s.params.sensorMax + 1))

/-- R38: AdcSample is used up by the call. -/
def State.takeAdc (s : State) : State :=
  { s with env := { s.env with adc := s.env.adc.tail, adcDraws := s.env.adcDraws + 1 } }

/-- R109: a sample outside [0, SENSOR_MAX] "has no move". -/
def checkSample (p : Params) (sample : Nat) : Except Stop Unit :=
  if sample ≤ p.sensorMax then .ok () else .error (.refuse .environmentBreach)

/-! ### The command buffer -/

/-- The byte an address holds; an address that is not listed holds no value (R28, assumption 17). -/
def Memory.read : List Host.Cell → Nat → Option Byte
  | [], _ => none
  | (k, v) :: m, a => if k = a then some v else Memory.read m a

/-- The canonical form with one byte written. -/
def Memory.write : List Host.Cell → Nat → Byte → List Host.Cell
  | [], a, b => [(a, b)]
  | (k, v) :: m, a, b =>
    if a < k then (a, b) :: (k, v) :: m
    else if a = k then (a, b) :: m
    else (k, v) :: Memory.write m a b

/-- The canonical form: addresses strictly rising. -/
def Memory.wf : List Host.Cell → Bool
  | [] => true
  | [_] => true
  | (a, _) :: (b, v) :: m => decide (a < b) && Memory.wf ((b, v) :: m)

/-- MemRead(i, 1): U17 makes a byte at an index at or beyond `len`, or one never written, a fault. -/
def bufRead (s : State) (i : Nat) : Except Stop Byte :=
  if i < s.len then
    match Memory.read s.buf i with
    | some b => .ok b
    | none => .error (.fault .noValueInByte)
  else .error (.fault .noValueInByte)

/-- MemRead(i, 1) to MemRead(i + n - 1, 1), in the order of the indices. -/
def bufReads (s : State) (i : Nat) : Nat → Except Stop (List Byte)
  | 0 => .ok []
  | n + 1 =>
    match bufRead s i with
    | .error e => .error e
    | .ok b =>
      match bufReads s (i + 1) n with
      | .error e => .error e
      | .ok t => .ok (b :: t)

/-- MemWrite(i, 1, b), R33: only the indices below BUF_CAP exist. -/
def bufWrite (s : State) (i : Nat) (b : Byte) : Effect :=
  if i < s.params.bufCap then .ok { s with buf := Memory.write s.buf i b } else .error (.fault .noSuchByte)

/-- R48: the text of a line, buf[1..len-1], empty when len = 1. -/
def lineText (s : State) : Except Stop (List Byte) := bufReads s 1 (s.len - 1)

/-! ### Registers and outputs -/

/-- R15: phase <- P. -/
def State.toPhase (s : State) (ph : Phase) : State := { s with phase := ph }

/-- R86: len <- 0 and cmd_state <- Idle; the bytes keep their values. -/
def State.clearLine (s : State) : State := { s with len := 0, cmdState := .idle }

/-- R103: Actuate(c), act_out being the level last handed over. -/
def State.actuate (s : State) (c : Nat) : State := { s with actOut := c }

/-- R57: the status line of a report. -/
def reportLine (p : Params) (r : Report) : List Byte :=
  decimalText r.time ++ p.delim ++ scaleText p.delim r.sample ++ p.delim ++ decimalText r.output ++ [0x0A]

/-- R105: Emit appends the record to the trace and hands its line to the transport. -/
def State.emit (s : State) (r : Report) : State :=
  { s with trace := s.trace ++ [r], tx := s.tx ++ reportLine s.params r }

/-- R112: raise Fault(k) adds k to the fault set and makes no other write. -/
def State.raise (s : State) (k : FaultKind) : State :=
  { s with faults := if s.faults.contains k then s.faults else s.faults ++ [k] }

/-! ### The frame of an operation -/

/-- R112: an effect that raises a fault leaves `before`, the state as the step found it less the draws the step
made ("a byte consumed by RxPoll in the same step is lost with the step"), with the fault recorded. -/
def settle (before : State) (e : Effect) : Result :=
  match e with
  | .ok t => .next t
  | .error (.raise k) => .next (before.raise k)
  | .error (.fault f) => .fault f
  | .error (.refuse r) => .refused r

/-- Every operation runs in a legal configuration (R6), in a block that is not quiescent (R112), where it is
enabled (the `state` column of the opcode table). -/
def gate (s : State) (enabled : Bool) (result : Result) : Result :=
  if s.params.legal then
    if s.faults = [] then
      if enabled then result else .refused .notEnabled
    else .fault .nonfinite
  else .refused .illegalParams

/-- The effect, then phase <- P. -/
def thenPhase (e : Effect) (ph : Phase) : Effect :=
  match e with
  | .ok t => .ok (t.toPhase ph)
  | .error x => .error x

end Sys2Proof.Machine
end

