-- ==== Sys2Proof/Machine/Clock.lean ====
section
/-! DEFINITION. The millisecond clock: TICK and SNAP (spec/40_clock.md). -/

namespace Sys2Proof.Machine

open Sys2Proof

/-- R60: the counter and the pending latch after the service of a tick. -/
def tickService (s : State) : State :=
  { s with clk := (s.clk + 1) % 2 ^ s.params.clkW, tickPending := false }

/-- R60, with the tick event and its service as one step (R18, assumption 9). R19: "While it is 1 no TICK step is
taken; a tick event arriving then waits in `tick_pending`". -/
def execTick (s : State) : Result :=
  gate s true (.next (if s.tickMask then { s with tickPending := true } else tickService s))

/-- R61: the critical section, mask, read whole, restore. -/
def snapshot (s : State) : State :=
  let masked := { s with tickMask := true }
  let latched := { masked with nowLatch := masked.clk }
  { latched with tickMask := false }

/-- R62. -/
def execSnap (s : State) : Result :=
  gate s (s.phase == .snap) (.next ((snapshot s).toPhase .ctrl))

end Sys2Proof.Machine
end

