-- ==== Sys2Proof/WellFormed.lean ====
section
/-! DEFINITION. Which operations are well formed: the `excludes` lists of the opcode table's rows. -/

namespace Sys2Proof

/-- R46 and R47: TAG, STORE and DROP take any byte but a terminator; CMD_OTHER takes any tag byte (R45: no
terminator) but the four recognised ones. Whether a sample is in range depends on the parameters and is the
environment's duty (R109), so PID_STEP's operand is not restricted here. -/
def Instr.wf : Instr → Bool
  | .tag b => !isTerminator b
  | .store b => !isTerminator b
  | .drop b => !isTerminator b
  | .cmdOther b => !isTerminator b && !isCommandTag b
  | .rxNone => true
  | .discardLf => true
  | .discardCr => true
  | .commitLf => true
  | .commitCr => true
  | .cmdS => true
  | .cmdP => true
  | .cmdI => true
  | .cmdD => true
  | .tick => true
  | .poll => true
  | .snap => true
  | .ctrl => true
  | .pidStep _ => true
  | .rpt => true

end Sys2Proof
end

