-- ==== Sys2Proof/Decode.lean ====
section
/-! DEFINITION. The decoder of the command protocol (R46, R47), the encoder written from the same tables, and
the reading of an opcode-table word. -/

namespace Sys2Proof

/-- What decides how a byte is read. R46: a polled byte by `cmd_state` and `len` (against BUF_CAP). R47: a
committed line's tag byte by itself. -/
inductive DecodeCtx where
  | line (cs : CmdState) (len cap : Nat)
  | dispatch
  deriving DecidableEq, Repr

/-- Why bytes are no operation. R53 makes no byte illegal: the decoder only rejects what is not ONE input of its
place. Raised by `decode` alone; the machine, which decodes one poll result at a time, never meets one. -/
inductive DecodeReject where
  /-- R80: a poll consumes at most one byte. -/
  | moreThanOneByte
  /-- R47: a dispatch reads exactly one tag byte. -/
  | notOneTagByte
  /-- R92: 0x0A and 0x0D "cannot be tags". -/
  | terminatorAsTag
  deriving DecidableEq, Repr

/-- R46: the row of a poll's result. The states no run reaches (Collecting with `len` 0 or beyond BUF_CAP) are
read by the comparison `len < BUF_CAP` of R80's pseudocode. -/
def decodeRx (cs : CmdState) (len cap : Nat) : Option Byte → Instr
  | none => .rxNone
  | some b =>
    match cs with
    | .idle => if b = byteLF then .discardLf else if b = byteCR then .discardCr else .tag b
    | .collecting =>
      if b = byteLF then .commitLf else if b = byteCR then .commitCr
      else if len < cap then .store b else .drop b

/-- R47: the row of a committed line's tag byte. -/
def decodeTag (b : Byte) : Instr :=
  if b = byteS then .cmdS else if b = byteP then .cmdP else if b = byteI then .cmdI
  else if b = byteD then .cmdD else .cmdOther b

/-- Decoding, total on any bytes, rejecting by name. -/
def decode (c : DecodeCtx) (bytes : List Byte) : Except DecodeReject Instr :=
  match c, bytes with
  | .line cs len cap, [] => .ok (decodeRx cs len cap none)
  | .line cs len cap, [b] => .ok (decodeRx cs len cap (some b))
  | .line _ _ _, _ :: _ :: _ => .error .moreThanOneByte
  | .dispatch, [b] => if isTerminator b then .error .terminatorAsTag else .ok (decodeTag b)
  | .dispatch, [] => .error .notOneTagByte
  | .dispatch, _ :: _ :: _ => .error .notOneTagByte

/-- R46 and R47: the bytes of a row; no byte for RX_NONE. R56: the internal operations "have no bit encoding". -/
def encode : Instr → Option (List Byte)
  | .rxNone => some []
  | .discardLf => some [byteLF]
  | .discardCr => some [byteCR]
  | .tag b => some [b]
  | .store b => some [b]
  | .drop b => some [b]
  | .commitLf => some [byteLF]
  | .commitCr => some [byteCR]
  | .cmdS => some [byteS]
  | .cmdP => some [byteP]
  | .cmdI => some [byteI]
  | .cmdD => some [byteD]
  | .cmdOther b => some [b]
  | .tick => none
  | .poll => none
  | .snap => none
  | .ctrl => none
  | .pidStep _ => none
  | .rpt => none

/-- The place is a poll whose line state satisfies the condition. -/
def DecodeCtx.lineWith (c : DecodeCtx) (cond : CmdState → Nat → Nat → Bool) : Bool :=
  match c with
  | .line cs len cap => cond cs len cap
  | .dispatch => false

/-- The place is a commit's dispatch. -/
def DecodeCtx.isDispatch : DecodeCtx → Bool
  | .line _ _ _ => false
  | .dispatch => true

/-- The `state` column of the opcode table, as far as decoding reads it: whether a row stands at a place. -/
def Instr.rowAt (i : Instr) (c : DecodeCtx) : Bool :=
  match i with
  | .rxNone => c.lineWith fun _ _ _ => true
  | .discardLf => c.lineWith fun cs _ _ => cs == .idle
  | .discardCr => c.lineWith fun cs _ _ => cs == .idle
  | .tag _ => c.lineWith fun cs _ _ => cs == .idle
  | .store _ => c.lineWith fun cs len cap => cs == .collecting && decide (len < cap)
  | .drop _ => c.lineWith fun cs len cap => cs == .collecting && decide (cap ≤ len)
  | .commitLf => c.lineWith fun cs _ _ => cs == .collecting
  | .commitCr => c.lineWith fun cs _ _ => cs == .collecting
  | .cmdS => c.isDispatch
  | .cmdP => c.isDispatch
  | .cmdI => c.isDispatch
  | .cmdD => c.isDispatch
  | .cmdOther _ => c.isDispatch
  | .tick => false
  | .poll => false
  | .snap => false
  | .ctrl => false
  | .pidStep _ => false
  | .rpt => false

/-- The operation an opcode-table word is read as (assumption 18). The table gives a byte several rows, told
apart by the state, and this reading has no state: no bits are a poll without a byte (RX_NONE), a recognised tag
byte is read as its dispatch row (R47), every other byte as the row it has in the reset state Idle (R46). -/
def decodeTableWord (nbits w : Nat) : Option Instr :=
  if nbits = 0 then some (decodeRx .idle 0 1 none)
  else if nbits ≤ 8 then
    let b : Byte := BitVec.ofNat 8 w
    if isCommandTag b then some (decodeTag b) else some (decodeRx .idle 0 1 (some b))
  else none

end Sys2Proof
end

