-- ==== Sys2Proof/Machine/Command.lean ====
section
/-! DEFINITION. The command protocol state machine: the byte rows, POLL, COMMIT and the command rows
(spec/42_command.md). -/

namespace Sys2Proof.Machine

open Sys2Proof

/-! ### Application of a committed line -/

/-- v of R86: NUMVAL of the line's text, raising NONFINITE where it overflows (R51). -/
def lineValue (s : State) : Except Stop NumVal :=
  match lineText s with
  | .error e => .error e
  | .ok t =>
    match textValue s.params t with
    | some v => .ok v
    | none => .error (.raise .nonfinite)

/-- R88: clamp(trunc(v), 0, SENSOR_MAX). -/
def setpointOf (p : Params) (v : NumVal) : Nat := (clampInt (v.trunc p.numFmt) 0 p.sensorMax).toNat

/-- The line's value given to a register. -/
def applyValue (s : State) (write : NumVal → State) : Effect :=
  match lineValue s with
  | .error e => .error e
  | .ok v => .ok (write v)

/-- R88 APPLY_S. -/
def applyS (s : State) : Effect := applyValue s fun v => { s with setpoint := setpointOf s.params v }

/-- R89 APPLY_P. -/
def applyP (s : State) : Effect := applyValue s fun v => { s with kp := v }

/-- R90 APPLY_I. -/
def applyI (s : State) : Effect := applyValue s fun v => { s with ki := v }

/-- R91 APPLY_D. -/
def applyD (s : State) : Effect := applyValue s fun v => { s with kd := v }

/-- R92 APPLY_OTHER: "no register is written", and the text is not parsed. -/
def applyOther (s : State) : Effect := .ok s

/-- R87: APPLY by the tag byte. -/
def applyTag (tag : Byte) (s : State) : Effect :=
  if tag = byteS then applyS s
  else if tag = byteP then applyP s
  else if tag = byteI then applyI s
  else if tag = byteD then applyD s
  else applyOther s

/-- Inside COMMIT with this tag in buf[0]: where a dispatch row stands (R47). -/
def dispatching (s : State) (tag : Byte) : Bool :=
  s.phase == .poll && s.cmdState == .collecting && decide (1 ≤ s.len) && Memory.read s.buf 0 == some tag

/-- CMD_S (R88). -/
def execCmdS (s : State) : Result := gate s (dispatching s byteS) (settle s (applyS s))

/-- CMD_P (R89). -/
def execCmdP (s : State) : Result := gate s (dispatching s byteP) (settle s (applyP s))

/-- CMD_I (R90). -/
def execCmdI (s : State) : Result := gate s (dispatching s byteI) (settle s (applyI s))

/-- CMD_D (R91). -/
def execCmdD (s : State) : Result := gate s (dispatching s byteD) (settle s (applyD s))

/-- CMD_OTHER (R92). -/
def execCmdOther (tag : Byte) (s : State) : Result :=
  gate s (dispatching s tag && !isTerminator tag && !isCommandTag tag) (settle s (applyOther s))

/-! ### Line assembly -/

/-- R83: the first byte of a line. -/
def beginLine (b : Byte) (s : State) : Effect :=
  match bufWrite s 0 b with
  | .ok t => .ok { t with len := 1, cmdState := .collecting }
  | .error e => .error e

/-- R84: a text byte stored. -/
def storeByte (b : Byte) (s : State) : Effect :=
  match bufWrite s s.len b with
  | .ok t => .ok { t with len := s.len + 1 }
  | .error e => .error e

/-- R86: COMMIT. -/
def commitLine (s : State) : Effect :=
  match bufRead s 0 with
  | .error e => .error e
  | .ok tag =>
    match applyTag tag s with
    | .error e => .error e
    | .ok t => .ok t.clearLine

/-- A byte row: its place and its poll result decide whether it is enabled; its effect comes after RxPoll has
consumed the result, and phase <- SNAP ends the step (R80). -/
def pollRow (s : State) (place : Bool) (rx : Option Byte) (e : State → Effect) : Result :=
  gate s (s.phase == .poll && place && s.rxNext == rx) (settle s.takeRx (thenPhase (e s.takeRx) .snap))

/-- RX_NONE (R81). -/
def execRxNone (s : State) : Result := pollRow s true none .ok

/-- DISCARD_LF (R82). -/
def execDiscardLf (s : State) : Result := pollRow s (s.cmdState == .idle) (some byteLF) .ok

/-- DISCARD_CR (R82). -/
def execDiscardCr (s : State) : Result := pollRow s (s.cmdState == .idle) (some byteCR) .ok

/-- TAG (R83). -/
def execTag (b : Byte) (s : State) : Result :=
  pollRow s (s.cmdState == .idle && !isTerminator b) (some b) (beginLine b)

/-- STORE (R84). -/
def execStore (b : Byte) (s : State) : Result :=
  pollRow s (s.cmdState == .collecting && decide (s.len < s.params.bufCap) && !isTerminator b) (some b) (storeByte b)

/-- DROP (R85). -/
def execDrop (b : Byte) (s : State) : Result :=
  pollRow s (s.cmdState == .collecting && decide (s.params.bufCap ≤ s.len) && !isTerminator b) (some b) .ok

/-- COMMIT_LF (R86). -/
def execCommitLf (s : State) : Result := pollRow s (s.cmdState == .collecting) (some byteLF) commitLine

/-- COMMIT_CR (R86). -/
def execCommitCr (s : State) : Result := pollRow s (s.cmdState == .collecting) (some byteCR) commitLine

/-- R80: the pseudocode of POLL for the result r of RxPoll, up to phase <- SNAP. -/
def pollEffect (r : Option Byte) (s : State) : Effect :=
  match r with
  | none => .ok s
  | some b =>
    if s.cmdState = .idle then
      if isTerminator b then .ok s else beginLine b s
    else
      if !isTerminator b then
        if s.len < s.params.bufCap then storeByte b s else .ok s
      else commitLine s

/-- POLL (R80). -/
def execPoll (s : State) : Result :=
  gate s (s.phase == .poll) (settle s.takeRx (thenPhase (pollEffect s.rxNext s.takeRx) .snap))

end Sys2Proof.Machine
end

