-- ==== Sys2Proof/Machine/Pid.lean ====
section
/-! DEFINITION. The PID engine with anti-windup accumulator: PID_STEP (spec/41_pid.md). -/

namespace Sys2Proof.Machine

open Sys2Proof

/-- What PID_STEP computes (R76): the new accumulators and the count. -/
structure PidResult where
  integralError : NumVal
  lastError : Int
  out : Nat
  deriving DecidableEq, Repr

/-- R71 and R75: (P ⊕ (ki ⊗ ie)) ⊕ D. -/
def pidSum (f : NumFmt) (pTerm ki ie dTerm : NumVal) : Option NumVal :=
  match NumVal.mul f ki ie with
  | none => none
  | some iTerm =>
    match NumVal.add f pTerm iTerm with
    | none => none
    | some u => NumVal.add f u dTerm

/-- R74: the integral clamp. -/
def clampIntegral (p : Params) (ie : NumVal) : Option NumVal :=
  if scaled p.numFmt p.integralLimit < ie.toInt then NumVal.ofInt p.numFmt p.integralLimit
  else if ie.toInt < scaled p.numFmt (-(p.integralLimit : Int)) then NumVal.ofInt p.numFmt (-(p.integralLimit : Int))
  else some ie

/-- R75: trunc(clamp(u, MIN_COUNT, MAX_COUNT)). -/
def outputCount (p : Params) (u : NumVal) : Nat :=
  if u.toInt < scaled p.numFmt p.minCount then p.minCount
  else if scaled p.numFmt p.maxCount < u.toInt then p.maxCount
  else (u.trunc p.numFmt).toNat

/-- R73 and R74: steps 6 and 7 on the accumulator, for the tentative output u0 and the error e. -/
def updateIntegral (p : Params) (u0 : NumVal) (e : Int) (eNum ie : NumVal) : Option NumVal :=
  if integrateAllowed p u0 e then
    match NumVal.add p.numFmt ie eNum with
    | none => none
    | some sum => clampIntegral p sum
  else clampIntegral p ie

/-- R67: the pseudocode of PID_STEP, in its order; none where a rounding overflows. -/
def pidCompute (p : Params) (setpoint : Nat) (kp ki kd ie : NumVal) (lastError : Int) (sample : Nat) :
    Option PidResult := do
  let e := deadBandError p setpoint sample
  let eNum ← NumVal.ofInt p.numFmt e
  let pTerm ← NumVal.mul p.numFmt kp eNum
  let dNum ← NumVal.ofInt p.numFmt (e - lastError)
  let dTerm ← NumVal.mul p.numFmt kd dNum
  let u0 ← pidSum p.numFmt pTerm ki ie dTerm
  let ieNew ← updateIntegral p u0 e eNum ie
  let u ← pidSum p.numFmt pTerm ki ieNew dTerm
  return ⟨ieNew, e, outputCount p u⟩

/-- R67 on the registers of a state. -/
def pidOf (s : State) (sample : Nat) : Option PidResult :=
  pidCompute s.params s.setpoint s.kp s.ki s.kd s.integralError s.lastError sample

/-- R76: the write-back, and the count handed back to the caller (assumption 16). -/
def pidWrite (s : State) (r : PidResult) : State :=
  { s with integralError := r.integralError, lastError := r.lastError, pidRet := r.out }

/-- R67 with its exception (R113). -/
def runPid (sample : Nat) (s : State) : Effect :=
  match pidOf s sample with
  | some r => .ok (pidWrite s r)
  | none => .error (.raise .nonfinite)

/-- R99: the control interval has elapsed. -/
def controlDue (s : State) : Bool :=
  intervalElapsed s.params s.nowLatch s.lastControlTime s.params.controlInterval

/-- PID_STEP with a sample in range (R109); performed inside CTRL, so where CTRL performs it. -/
def pidStepEffect (sample : Nat) (s : State) : Effect :=
  match checkSample s.params sample with
  | .error e => .error e
  | .ok _ => runPid sample s

/-- R67 as an operation of its own. -/
def execPidStep (sample : Nat) (s : State) : Result :=
  gate s (s.phase == .ctrl && controlDue s) (settle s (pidStepEffect sample s))

end Sys2Proof.Machine
end

