-- ==== Sys2Proof/Machine/Sequencer.lean ====
section
/-! DEFINITION. The control-loop sequencer: CTRL and RPT (spec/43_sequencer.md). -/

namespace Sys2Proof.Machine

open Sys2Proof

/-- R99: what CTRL writes after PID_STEP has returned. -/
def ctrlWrite (sample : Nat) (s : State) : State :=
  { s.actuate s.pidRet with rptSample := sample, rptOutput := s.pidRet, lastControlTime := s.nowLatch }

/-- R99: the body of CTRL where the control interval has elapsed. -/
def controlStep (s : State) : Effect :=
  match pidStepEffect s.adcNext s.takeAdc with
  | .error e => .error e
  | .ok t => .ok (ctrlWrite s.adcNext t)

/-- CTRL (R99). -/
def execCtrl (s : State) : Result :=
  gate s (s.phase == .ctrl)
    (if controlDue s then settle s.takeAdc (thenPhase (controlStep s) .rpt) else .next (s.toPhase .rpt))

/-- R101: the report interval has elapsed. -/
def reportDue (s : State) : Bool :=
  intervalElapsed s.params s.nowLatch s.lastReportTime s.params.reportInterval

/-- R101: the report of a sample, and last_report_time <- now_latch. -/
def reportWrite (sample : Nat) (s : State) : State :=
  { s.emit ⟨s.nowLatch, sample, s.rptOutput⟩ with lastReportTime := s.nowLatch }

/-- R101: the body of RPT where the report interval has elapsed, by REPORT_SRC. -/
def reportStep (s : State) : Effect :=
  match s.params.reportSrc with
  | .latched => .ok (reportWrite s.rptSample s)
  | .fresh =>
    match checkSample s.params s.adcNext with
    | .error e => .error e
    | .ok _ => .ok (reportWrite s.adcNext s.takeAdc)

/-- RPT (R101). -/
def execRpt (s : State) : Result :=
  gate s (s.phase == .rpt)
    (if reportDue s then settle s (thenPhase (reportStep s) .poll) else .next (s.toPhase .poll))

end Sys2Proof.Machine
end

