-- ==== Sys2Proof/Machine/Dispatch.lean ====
section
/-! DEFINITION. exec: one arm per operation. -/

namespace Sys2Proof.Machine

open Sys2Proof

def exec (i : Instr) (s : State) : Host.Outcome State Fault Refusal :=
  match i with
  -- byte rows (R46)
  | .rxNone => Sys2Proof.Machine.execRxNone s
  | .discardLf => Sys2Proof.Machine.execDiscardLf s
  | .discardCr => Sys2Proof.Machine.execDiscardCr s
  | .tag b => Sys2Proof.Machine.execTag b s
  | .store b => Sys2Proof.Machine.execStore b s
  | .drop b => Sys2Proof.Machine.execDrop b s
  | .commitLf => Sys2Proof.Machine.execCommitLf s
  | .commitCr => Sys2Proof.Machine.execCommitCr s
  -- dispatch rows (R47)
  | .cmdS => Sys2Proof.Machine.execCmdS s
  | .cmdP => Sys2Proof.Machine.execCmdP s
  | .cmdI => Sys2Proof.Machine.execCmdI s
  | .cmdD => Sys2Proof.Machine.execCmdD s
  | .cmdOther b => Sys2Proof.Machine.execCmdOther b s
  -- internal operations (R56)
  | .tick => Sys2Proof.Machine.execTick s
  | .poll => Sys2Proof.Machine.execPoll s
  | .snap => Sys2Proof.Machine.execSnap s
  | .ctrl => Sys2Proof.Machine.execCtrl s
  | .pidStep sample => Sys2Proof.Machine.execPidStep sample s
  | .rpt => Sys2Proof.Machine.execRpt s

end Sys2Proof.Machine
end

