-- ==== Sys2Proof/Machine/Fetch.lean ====
section
/-! DEFINITION. Which operation is next, and the placing of one (R56: an operation is selected by the agent and,
for the sequencer, by `phase`; a poll's row by the received byte). -/

namespace Sys2Proof.Machine

open Sys2Proof

/-- R96: the sequencer's one enabled step; at POLL the byte row of the poll's result (R46). -/
def sequencerNext (s : State) : Instr :=
  match s.phase with
  | .poll => decodeRx s.cmdState s.len s.params.bufCap s.rxNext
  | .snap => .snap
  | .ctrl => .ctrl
  | .rpt => .rpt

/-- The next operation: TICK where the tick agent moves, else the sequencer's. -/
def fetch (s : State) : Instr :=
  match s.agentNext with
  | .tick => .tick
  | .sequencer => sequencerNext s

/-- The sequencer moves next, polls, and receives r. -/
def placePoll (s : State) (r : Option Byte) : State :=
  { s with
    phase := .poll
    env := { s.env with sched := Agent.sequencer :: s.env.sched, rx := r :: s.env.rx } }

/-- An empty line buffer, for the rows that stand in Idle. -/
def placeIdle (s : State) : State := { s with cmdState := .idle, len := 0 }

/-- A line whose only byte is its tag, for the rows that stand inside COMMIT. -/
def placeTag (s : State) (tag : Byte) : State :=
  { s with cmdState := .collecting, len := 1, buf := Memory.write s.buf 0 tag }

/-- The word of `decodeTableWord` placed as the next input (assumption 18): no bits are a poll without a byte; a
recognised tag stands in the buffer with its terminator coming, so that the next step commits and dispatches it;
any other byte is received in Idle. -/
def placeWord (s : State) (nbits w : Nat) : State :=
  if nbits = 0 then placePoll (placeIdle s) none
  else
    let b : Byte := BitVec.ofNat 8 w
    if isCommandTag b then placePoll (placeTag s b) (some byteLF) else placePoll (placeIdle s) (some b)

end Sys2Proof.Machine
end

