-- ==== Sys2Proof/Machine/Step.lean ====
section
/-! DEFINITION. One step (R12): the environment's choice of agent is used up, and the operation it selects runs. -/

namespace Sys2Proof.Machine

open Sys2Proof

/-- R12 and R4: one atomic step of one agent. -/
def step (s : State) : Host.Outcome State Fault Refusal := exec (fetch s) s.takeAgent

/-- The host's placing of an opcode-table word as the next input (assumption 18). -/
def State.withFetchWord (s : State) (nbits w : Nat) : State := placeWord s nbits w

end Sys2Proof.Machine
end

