-- ==== Sys2Proof/Safety.lean ====
section
/-! DEFINITION. The terms of the claims: the running block, the invariant of R31 with the ranges of R15 to R30,
which element an operation may write (the "written by" column of R13's table), runs, and the grammar of R48. -/

namespace Sys2Proof.Machine

open Sys2Proof

/-- The configuration is legal (R6) and no fault is recorded (R112). -/
structure State.Running (s : State) : Prop where
  legal : s.params.legal = true
  noFault : s.faults = []

/-- R31 and the ranges R15 to R30 give the state elements. -/
structure State.Inv (s : State) : Prop where
  legal : s.params.legal = true
  /-- R31 (1) -/
  setpoint_le : s.setpoint ≤ s.params.sensorMax
  /-- R31 (2) -/
  integral_le : s.integralError.toInt ≤ scaled s.params.numFmt s.params.integralLimit
  /-- R31 (2) -/
  integral_ge : scaled s.params.numFmt (-(s.params.integralLimit : Int)) ≤ s.integralError.toInt
  /-- R31 (3) -/
  actOut_range : s.params.minCount ≤ s.actOut ∧ s.actOut ≤ s.params.maxCount
  /-- R31 (3) -/
  rptOutput_range : s.params.minCount ≤ s.rptOutput ∧ s.rptOutput ≤ s.params.maxCount
  /-- R26 -/
  rptSample_le : s.rptSample ≤ s.params.sensorMax
  /-- R31 (4) -/
  lastError_range : -(s.params.sensorMax : Int) ≤ s.lastError ∧ s.lastError ≤ s.params.sensorMax
  /-- R31 (5) -/
  idle_iff : s.cmdState = .idle ↔ s.len = 0
  /-- R31 (5) -/
  len_le : s.len ≤ s.params.bufCap
  /-- R16, R17, R24, R25: values of u(CLK_W) -/
  clk_lt : s.clk < 2 ^ s.params.clkW
  nowLatch_lt : s.nowLatch < 2 ^ s.params.clkW
  lastControlTime_lt : s.lastControlTime < 2 ^ s.params.clkW
  lastReportTime_lt : s.lastReportTime < 2 ^ s.params.clkW
  /-- R18: 0 at every step boundary -/
  tickPending_off : s.tickPending = false
  /-- R19: 0 at every step boundary -/
  tickMask_off : s.tickMask = false
  /-- R21, R22: NUM values -/
  kp_num : s.kp.inFmt s.params.numFmt = true
  ki_num : s.ki.inFmt s.params.numFmt = true
  kd_num : s.kd.inFmt s.params.numFmt = true
  integral_num : s.integralError.inFmt s.params.numFmt = true
  /-- R28, R33: the buffer's form, its addresses, and a value in every byte below len -/
  buf_wf : Memory.wf s.buf = true
  buf_addr : ∀ c ∈ s.buf, c.1 < s.params.bufCap
  buf_val : ∀ i < s.len, (Memory.read s.buf i).isSome = true
  /-- R30, R113: a set, and NONFINITE the only kind -/
  faults_set : s.faults = [] ∨ s.faults = [.nonfinite]

/-- The elements of the state that are no plain memory, one by one. -/
inductive Reg where
  | params | phase | nowLatch | clk | tickPending | tickMask | setpoint | kp | ki | kd | integralError | lastError
  | lastControlTime | lastReportTime | rptSample | rptOutput | cmdState | len | actOut | faults | trace | tx | pidRet
  | sched | rx | adc
  deriving DecidableEq, Repr

/-- An element is the same in two states. -/
def Reg.same (r : Reg) (s t : State) : Prop :=
  match r with
  | .params => t.params = s.params
  | .phase => t.phase = s.phase
  | .nowLatch => t.nowLatch = s.nowLatch
  | .clk => t.clk = s.clk
  | .tickPending => t.tickPending = s.tickPending
  | .tickMask => t.tickMask = s.tickMask
  | .setpoint => t.setpoint = s.setpoint
  | .kp => t.kp = s.kp
  | .ki => t.ki = s.ki
  | .kd => t.kd = s.kd
  | .integralError => t.integralError = s.integralError
  | .lastError => t.lastError = s.lastError
  | .lastControlTime => t.lastControlTime = s.lastControlTime
  | .lastReportTime => t.lastReportTime = s.lastReportTime
  | .rptSample => t.rptSample = s.rptSample
  | .rptOutput => t.rptOutput = s.rptOutput
  | .cmdState => t.cmdState = s.cmdState
  | .len => t.len = s.len
  | .actOut => t.actOut = s.actOut
  | .faults => t.faults = s.faults
  | .trace => t.trace = s.trace
  | .tx => t.tx = s.tx
  | .pidRet => t.pidRet = s.pidRet
  | .sched => t.env.sched = s.env.sched ∧ t.env.schedDraws = s.env.schedDraws
  | .rx => t.env.rx = s.env.rx ∧ t.env.rxDraws = s.env.rxDraws
  | .adc => t.env.adc = s.env.adc ∧ t.env.adcDraws = s.env.adcDraws

/-- What a commit may write: the register of the line's tag, and the line state (R86). -/
def commitWrites : List Reg := [.setpoint, .kp, .ki, .kd, .len, .cmdState, .faults, .phase, .rx]

/-- Which elements an operation may write: the pseudocode of the rule its constructor names. -/
def mayWrite : Instr → List Reg
  | .rxNone => [.phase, .rx]
  | .discardLf => [.phase, .rx]
  | .discardCr => [.phase, .rx]
  | .tag _ => [.len, .cmdState, .phase, .rx]
  | .store _ => [.len, .phase, .rx]
  | .drop _ => [.phase, .rx]
  | .commitLf => commitWrites
  | .commitCr => commitWrites
  | .cmdS => [.setpoint, .faults]
  | .cmdP => [.kp, .faults]
  | .cmdI => [.ki, .faults]
  | .cmdD => [.kd, .faults]
  | .cmdOther _ => []
  | .tick => [.clk, .tickPending]
  | .poll => commitWrites
  | .snap => [.nowLatch, .tickMask, .phase]
  | .ctrl => [.integralError, .lastError, .pidRet, .actOut, .rptSample, .rptOutput, .lastControlTime, .faults, .phase, .adc]
  | .pidStep _ => [.integralError, .lastError, .pidRet, .faults]
  | .rpt => [.lastReportTime, .trace, .tx, .phase, .adc]

/-- The index of the buffer byte an operation stores to (R83, R84); none for one that stores nothing. POLL stores
where the row of its byte does. -/
def storedIndex (i : Instr) (s : State) : Option Nat :=
  match i with
  | .tag _ => some 0
  | .store _ => some s.len
  | .poll =>
    match decodeRx s.cmdState s.len s.params.bufCap s.rxNext with
    | .tag _ => some 0
    | .store _ => some s.len
    | _ => none
  | _ => none

/-- The next state of an outcome, none where the machine stopped. -/
def answered : Result → Option State
  | .next t => some t
  | .fault _ => none
  | .refused _ => none

/-- A run: the operations one after the other, each answering a next state. -/
def runAll : List Instr → State → Option State
  | [], s => some s
  | i :: is, s => (answered (exec i s)).bind (runAll is)

/-- R96: the next phase in the cycle. -/
def nextPhase : Phase → Phase
  | .poll => .snap
  | .snap => .ctrl
  | .ctrl => .rpt
  | .rpt => .poll

/-- R110: the width of the output pwm_count, ⌈log2(MAX_COUNT + 1)⌉ bits. -/
def pwmWidth (p : Params) : Nat := Nat.clog 2 (p.maxCount + 1)

/-! ### The grammar of R48, production by production -/

/-- R48 SIGN?, with the sign it gives. -/
inductive SignText : List Byte → Bool → Prop where
  | absent : SignText [] false
  | plus : SignText [bytePlus] false
  | minus : SignText [byteMinus] true

/-- R48 DIGIT*. -/
def DigitText (t : List Byte) : Prop := ∀ b ∈ t, isDigit b = true

/-- R48 MANTISSA, with its digits as a number and how many stand after the point. -/
inductive MantissaText : List Byte → Nat → Nat → Prop where
  | whole (w : List Byte) : w ≠ [] → DigitText w → MantissaText w (digitsValue w) 0
  | pointed (w fr : List Byte) : w ≠ [] → DigitText w → DigitText fr →
      MantissaText (w ++ bytePoint :: fr) (digitsValue (w ++ fr)) fr.length
  | bare (fr : List Byte) : fr ≠ [] → DigitText fr → MantissaText (bytePoint :: fr) (digitsValue fr) fr.length

/-- R48 NUMBER ::= SIGN? MANTISSA. -/
inductive NumberText : List Byte → Bool → Nat → Nat → Prop where
  | mk (sg m : List Byte) (neg : Bool) (n k : Nat) : SignText sg neg → MantissaText m n k →
      NumberText (sg ++ m) neg n k

/-- The exact value of a NUM value. -/
def realOf (f : NumFmt) (x : NumVal) : ℚ := (x.toInt : ℚ) / (f.one : ℚ)

/-- R9: y is the NUM value nearest x, among the finite values of the format. -/
def NearestNum (f : NumFmt) (x : ℚ) (y : NumVal) : Prop :=
  y.inFmt f = true ∧ ∀ z : NumVal, z.inFmt f = true → |realOf f y - x| ≤ |realOf f z - x|

/-- R9: where two values are nearest, y has an even least significant significand bit. -/
def TiesToEven (f : NumFmt) (x : ℚ) (y : NumVal) : Prop :=
  (∃ z : NumVal, z.inFmt f = true ∧ realOf f z ≠ realOf f y ∧ |realOf f y - x| = |realOf f z - x|) →
    y.mag / 2 ^ f.spacingExp y.mag % 2 = 0

/-- R9: the overflow threshold as a rational. -/
def overflowReal : NumFmt → ℚ
  | .binary32 => 2 ^ 128 - 2 ^ 103
  | .binary64 => 2 ^ 1024 - 2 ^ 970

/-- R9: r is rnd(x), none standing for raise Fault(NONFINITE). -/
def RoundsTo (f : NumFmt) (x : ℚ) (r : Option NumVal) : Prop :=
  match r with
  | none => overflowReal f ≤ |x|
  | some y => |x| < overflowReal f ∧ NearestNum f x y ∧ TiesToEven f x y

/-- R49: dec(T) of a literal of sign neg, digits n and k of them after the point. -/
def decReal (neg : Bool) (n k : Nat) : ℚ := (if neg then -1 else 1) * (n : ℚ) / 10 ^ k

/-! ### Where a rounding of R67 overflows -/

/-- R71, R75: (P ⊕ (ki ⊗ ie)) ⊕ D has the value u. -/
def SumIs (f : NumFmt) (pTerm ki ie dTerm u : NumVal) : Prop :=
  ∃ i a, NumVal.mul f ki ie = some i ∧ NumVal.add f pTerm i = some a ∧ NumVal.add f a dTerm = some u

/-- R71, R75: a rounding of (P ⊕ (ki ⊗ ie)) ⊕ D overflows, those before it having values. -/
inductive SumOverflows (f : NumFmt) (pTerm ki ie dTerm : NumVal) : Prop where
  | product : NumVal.mul f ki ie = none → SumOverflows f pTerm ki ie dTerm
  | leftSum (i : NumVal) : NumVal.mul f ki ie = some i → NumVal.add f pTerm i = none →
      SumOverflows f pTerm ki ie dTerm
  | sum (i a : NumVal) : NumVal.mul f ki ie = some i → NumVal.add f pTerm i = some a → NumVal.add f a dTerm = none →
      SumOverflows f pTerm ki ie dTerm

/-- R69, R70: num(e), P and D have these values for the error e. -/
def TermsAre (s : State) (e : Int) (eNum pTerm dTerm : NumVal) : Prop :=
  NumVal.ofInt s.params.numFmt e = some eNum ∧ NumVal.mul s.params.numFmt s.kp eNum = some pTerm ∧
    ∃ dNum, NumVal.ofInt s.params.numFmt (e - s.lastError) = some dNum ∧
      NumVal.mul s.params.numFmt s.kd dNum = some dTerm

/-- R72: the table, row by row. -/
def Integrates (p : Params) (u0 : NumVal) (e : Int) : Prop :=
  ((p.maxCount : ℚ) ≤ realOf p.numFmt u0 ∧ e < 0) ∨
    ((p.minCount : ℚ) < realOf p.numFmt u0 ∧ realOf p.numFmt u0 < p.maxCount) ∨
    (realOf p.numFmt u0 ≤ p.minCount ∧ 0 < e)

/-- R74: the accumulator ie clamped is ie'. -/
def ClampsTo (p : Params) (ie ie' : NumVal) : Prop :=
  ((p.integralLimit : ℚ) < realOf p.numFmt ie ∧ NumVal.ofInt p.numFmt p.integralLimit = some ie') ∨
    (realOf p.numFmt ie < -(p.integralLimit : ℚ) ∧ NumVal.ofInt p.numFmt (-(p.integralLimit : Int)) = some ie') ∨
    (-(p.integralLimit : ℚ) ≤ realOf p.numFmt ie ∧ realOf p.numFmt ie ≤ p.integralLimit ∧ ie' = ie)

/-- R73, R74: steps 6 and 7 take the accumulator of the state to ie. -/
def IntegralIs (s : State) (e : Int) (eNum u0 ie : NumVal) : Prop :=
  (Integrates s.params u0 e ∧
      ∃ sum, NumVal.add s.params.numFmt s.integralError eNum = some sum ∧ ClampsTo s.params sum ie) ∨
    (¬ Integrates s.params u0 e ∧ ClampsTo s.params s.integralError ie)

/-- R67, R113: a rounding of PID_STEP, for the error e of steps 1 and 2, overflows: num(e), P, num(d), D, the tentative
output, the integration or the final output. The clamp of step 7 rounds nothing: R5 makes INTEGRAL_LIMIT exactly
representable. -/
inductive PidOverflows (s : State) (e : Int) : Prop where
  | error : NumVal.ofInt s.params.numFmt e = none → PidOverflows s e
  | proportional (eNum : NumVal) : NumVal.ofInt s.params.numFmt e = some eNum →
      NumVal.mul s.params.numFmt s.kp eNum = none → PidOverflows s e
  | difference : NumVal.ofInt s.params.numFmt (e - s.lastError) = none → PidOverflows s e
  | derivative (dNum : NumVal) : NumVal.ofInt s.params.numFmt (e - s.lastError) = some dNum →
      NumVal.mul s.params.numFmt s.kd dNum = none → PidOverflows s e
  | tentative (eNum pTerm dTerm : NumVal) : TermsAre s e eNum pTerm dTerm →
      SumOverflows s.params.numFmt pTerm s.ki s.integralError dTerm → PidOverflows s e
  | integration (eNum pTerm dTerm u0 : NumVal) : TermsAre s e eNum pTerm dTerm →
      SumIs s.params.numFmt pTerm s.ki s.integralError dTerm u0 → Integrates s.params u0 e →
      NumVal.add s.params.numFmt s.integralError eNum = none → PidOverflows s e
  | final (eNum pTerm dTerm u0 ie : NumVal) : TermsAre s e eNum pTerm dTerm →
      SumIs s.params.numFmt pTerm s.ki s.integralError dTerm u0 → IntegralIs s e eNum u0 ie →
      SumOverflows s.params.numFmt pTerm s.ki ie dTerm → PidOverflows s e

/-! ### A line received byte by byte -/

/-- The state at the POLL of an iteration whose poll returns b, whatever the other phases did to `phase`. -/
def atPoll (b : Byte) (s : State) : State := { s with phase := .poll, env := { s.env with rx := [some b] } }

/-- R52: the POLL steps that receive these bytes one by one. -/
def receive : List Byte → State → Option State
  | [], s => some s
  | b :: bs, s => (answered (exec .poll (atPoll b s))).bind (receive bs)

end Sys2Proof.Machine
end

