-- ==== Sys2Proof/Certificates/Slice0/Obligations.lean ====
section
/-! DEFINITION. The statements about the model, each from a numbered rule of spec/ or a section of it. -/

open Sys2Proof Sys2Proof.Machine

/-! ### Encoding -/

/-- R44, R46, R47: words written out from the spec's tables (`S` = 0x53, LF = 0x0A, CR = 0x0D, `X` = 0x58, `3` =
0x33) are the rows the tables give them. -/
def Obligations.WordsDecodeAsTheTablesSay : Prop :=
  decode (.line .idle 0 16) [] = .ok .rxNone ∧
  decode (.line .idle 0 16) [0x0A] = .ok .discardLf ∧
  decode (.line .idle 0 16) [0x0D] = .ok .discardCr ∧
  decode (.line .idle 0 16) [0x53] = .ok (.tag 0x53) ∧
  decode (.line .collecting 15 16) [0x33] = .ok (.store 0x33) ∧
  decode (.line .collecting 16 16) [0x33] = .ok (.drop 0x33) ∧
  decode (.line .collecting 1 16) [0x0A] = .ok .commitLf ∧
  decode (.line .collecting 16 16) [0x0D] = .ok .commitCr ∧
  decode .dispatch [0x53] = .ok .cmdS ∧
  decode .dispatch [0x50] = .ok .cmdP ∧
  decode .dispatch [0x49] = .ok .cmdI ∧
  decode .dispatch [0x44] = .ok .cmdD ∧
  decode .dispatch [0x58] = .ok (.cmdOther 0x58) ∧
  decode .dispatch [0x73] = .ok (.cmdOther 0x73)

/-- R46, R47: where a well-formed row stands, its bytes decode to it, with every operand byte. -/
def Obligations.DecodeOfEncodeIsTheRow : Prop :=
  ∀ (i : Instr) (c : DecodeCtx) (bs : List Byte),
    i.wf = true → i.rowAt c = true → encode i = some bs → decode c bs = .ok i

/-- R46, R47, R53: what decoding accepts is a well-formed row that stands at the place and has these bytes. -/
def Obligations.DecodedRowsAreWellFormed : Prop :=
  ∀ (c : DecodeCtx) (bs : List Byte) (i : Instr),
    decode c bs = .ok i → i.wf = true ∧ i.rowAt c = true ∧ encode i = some bs

/-- R46: the table is complete and its rows are disjoint: every line state and poll result has exactly one row; and
R47: so has every tag byte. Line states that R46's table does not list (Idle with len other than 0, Collecting with len
0 or above BUF_CAP), which no run reaches, have theirs by the comparisons of R80's pseudocode (assumption 23, the
model's inference). -/
def Obligations.EveryInputHasExactlyOneRow : Prop :=
  (∀ (cs : CmdState) (len cap : Nat) (r : Option Byte),
    ∃! i : Instr, i.wf = true ∧ i.rowAt (.line cs len cap) = true ∧ encode i = some r.toList) ∧
  (∀ b : Byte, isTerminator b = false →
    ∃! i : Instr, i.wf = true ∧ i.rowAt .dispatch = true ∧ encode i = some [b])

/-! ### Numbers and number texts -/

/-- R9: rnd gives the nearest NUM value, ties to even, or overflows at and beyond the threshold. -/
def Obligations.RoundingIsNearestTiesToEven : Prop :=
  ∀ (f : NumFmt) (neg : Bool) (n d : Nat), 0 < d →
    RoundsTo f ((if neg then -1 else 1) * ((n : ℚ) / d) / f.one) (NumVal.rnd f neg n d)

/-- R9, R51: each operation computes the exact value and rounds it once. -/
def Obligations.ArithmeticRoundsTheExactValueOnce : Prop :=
  ∀ f : NumFmt,
    (∀ a b : NumVal, RoundsTo f (realOf f a + realOf f b) (NumVal.add f a b)) ∧
    (∀ a b : NumVal, RoundsTo f (realOf f a * realOf f b) (NumVal.mul f a b)) ∧
    (∀ n : Int, RoundsTo f (n : ℚ) (NumVal.ofInt f n)) ∧
    (∀ (neg : Bool) (n k : Nat), RoundsTo f (decReal neg n k) (NumVal.ofDec f neg n k))

/-- R9: num(n) is exact whenever |n| ≤ 2^24 (binary32) or 2^53 (binary64). -/
def Obligations.SmallIntegersAreExact : Prop :=
  ∀ (f : NumFmt) (n : Int), n.natAbs ≤ 2 ^ f.prec →
    NumVal.ofInt f n = some ⟨decide (n < 0), n.natAbs * f.one⟩

/-- R48: a text is read whole as a literal exactly where the grammar derives it, with the grammar's sign and digits. -/
def Obligations.NumberTextsAreTheGrammar : Prop :=
  ∀ (t : List Byte) (neg : Bool) (n k : Nat),
    takeNumber t = some ⟨neg, n, k, []⟩ ↔ NumberText t neg n k

/-- R49: under STRICT a text that is a literal is worth rnd(dec(T)), with the literal's sign (so a negative zero is
-0), and every other text is worth +0. -/
def Obligations.StrictTextsAreWorthTheirLiteralOrZero : Prop :=
  ∀ (p : Params) (t : List Byte), p.parseMode = .strictText →
    (∀ neg n k, NumberText t neg n k →
      RoundsTo p.numFmt (decReal neg n k) (textValue p t) ∧ ∀ v, textValue p t = some v → v.neg = neg) ∧
    ((¬ ∃ neg n k, NumberText t neg n k) → textValue p t = some NumVal.posZero)

/-- R50: under PREFIX leading spaces and tabs are skipped; then the longest prefix that is a literal gives the value
and the rest is ignored; without one the value is +0. -/
def Obligations.PrefixTextsAreWorthTheirLongestLiteral : Prop :=
  ∀ (p : Params) (ws t : List Byte), p.parseMode = .prefixText →
    (∀ b ∈ ws, b = byteSpace ∨ b = byteTab) → t.head? ≠ some byteSpace → t.head? ≠ some byteTab →
    (∀ q neg n k, q <+: t → NumberText q neg n k →
      (∀ q' neg' n' k', q' <+: t → NumberText q' neg' n' k' → q'.length ≤ q.length) →
      RoundsTo p.numFmt (decReal neg n k) (textValue p (ws ++ t)) ∧
        ∀ v, textValue p (ws ++ t) = some v → v.neg = neg) ∧
    ((¬ ∃ q neg n k, q <+: t ∧ NumberText q neg n k) → textValue p (ws ++ t) = some NumVal.posZero)

/-- R51: with binary32 and BUF_CAP ≤ 39 no text that fits the buffer beside its tag overflows. -/
def Obligations.ShortTextsNeverOverflow : Prop :=
  ∀ (p : Params) (t : List Byte), p.numFmt = .binary32 → p.bufCap ≤ 39 → t.length < p.bufCap →
    ∃ v, textValue p t = some v

/-- R57: an unsigned integer is written in decimal digits without leading zeros, 0 as one digit. -/
def Obligations.DecimalTextIsCanonical : Prop :=
  ∀ n : Nat, digitsValue (decimalText n) = n ∧ (∀ b ∈ decimalText n, isDigit b = true) ∧
    (0 < n → (decimalText n).head? ≠ some 0x30) ∧ (n = 0 → decimalText n = [0x30])

/-! ### Clock -/

/-- R60: TICK adds one modulo 2^CLK_W, clears the pending latch and changes nothing else. -/
def Obligations.TickAdvancesTheCounter : Prop :=
  ∀ s : State, s.Running → s.tickMask = false →
    exec .tick s = .next { s with clk := (s.clk + 1) % 2 ^ s.params.clkW, tickPending := false }

/-- R19: while the mask is 1 no TICK step is taken and the event waits in tick_pending. The event and its service
being one operation is the model's choice (assumption 9). -/
def Obligations.MaskedTickWaits : Prop :=
  ∀ s : State, s.Running → s.tickMask = true → exec .tick s = .next { s with tickPending := true }

/-- R62: SNAP latches the whole counter, leaves the mask clear and moves to CTRL. -/
def Obligations.SnapLatchesTheCounter : Prop :=
  ∀ s : State, s.Running → s.phase = .snap →
    exec .snap s = .next { s with nowLatch := s.clk, tickMask := false, phase := .ctrl }

/-- R63: elapsed is the unsigned CLK_W-bit difference. -/
def Obligations.ElapsedIsUnsignedSubtraction : Prop :=
  ∀ (p : Params) (a b : Nat),
    elapsed p a b = (BitVec.ofNat p.clkW a - BitVec.ofNat p.clkW b).toNat

/-- R64: two SNAPs with k TICKs between them latch values whose unsigned difference is k mod 2^CLK_W, whatever other
operations run between them. -/
def Obligations.SnapshotsDifferByTheTicksBetween : Prop :=
  ∀ (is : List Instr) (s a b c : State), s.Inv →
    exec .snap s = .next a → runAll is a = some b → exec .snap b = .next c →
    elapsed s.params c.nowLatch a.nowLatch = is.count .tick % 2 ^ s.params.clkW

/-! ### PID engine -/

/-- R67 to R76: in CTRL with the interval elapsed, PID_STEP of a sample in range answers the state the pseudocode
gives, for the numbers its operations round to; comparisons are of exact values. The count returned stands in the
model's field pidRet (assumption 16). -/
def Obligations.PidStepFollowsThePseudocode : Prop :=
  ∀ (s : State) (sample : Nat) (e : Int) (eNum pTerm dNum dTerm i0 a0 u0 ie1 ie2 i1 a1 u : NumVal),
    s.Running → s.phase = .ctrl →
    s.params.controlInterval ≤ elapsed s.params s.nowLatch s.lastControlTime →
    sample ≤ s.params.sensorMax →
    e = (if ((s.setpoint : Int) - sample).natAbs < s.params.deadband then 0 else (s.setpoint : Int) - sample) →
    NumVal.ofInt s.params.numFmt e = some eNum →
    NumVal.mul s.params.numFmt s.kp eNum = some pTerm →
    NumVal.ofInt s.params.numFmt (e - s.lastError) = some dNum →
    NumVal.mul s.params.numFmt s.kd dNum = some dTerm →
    NumVal.mul s.params.numFmt s.ki s.integralError = some i0 →
    NumVal.add s.params.numFmt pTerm i0 = some a0 →
    NumVal.add s.params.numFmt a0 dTerm = some u0 →
    (if (s.params.maxCount : ℚ) ≤ realOf s.params.numFmt u0 ∧ ¬ e < 0 ∨
        ¬ (s.params.maxCount : ℚ) ≤ realOf s.params.numFmt u0 ∧
          realOf s.params.numFmt u0 ≤ s.params.minCount ∧ ¬ 0 < e
      then ie1 = s.integralError
      else NumVal.add s.params.numFmt s.integralError eNum = some ie1) →
    (if (s.params.integralLimit : ℚ) < realOf s.params.numFmt ie1
      then NumVal.ofInt s.params.numFmt s.params.integralLimit = some ie2
      else if realOf s.params.numFmt ie1 < -(s.params.integralLimit : ℚ)
      then NumVal.ofInt s.params.numFmt (-(s.params.integralLimit : Int)) = some ie2
      else ie2 = ie1) →
    NumVal.mul s.params.numFmt s.ki ie2 = some i1 →
    NumVal.add s.params.numFmt pTerm i1 = some a1 →
    NumVal.add s.params.numFmt a1 dTerm = some u →
    exec (.pidStep sample) s = .next
      { s with
        integralError := ie2
        lastError := e
        pidRet :=
          if realOf s.params.numFmt u < s.params.minCount then s.params.minCount
          else if (s.params.maxCount : ℚ) < realOf s.params.numFmt u then s.params.maxCount
          else ⌊realOf s.params.numFmt u⌋.toNat }

/-- R67, R112, R113: where a rounding of one of the nine steps overflows, PID_STEP records NONFINITE and writes nothing
else; where none does, it raises nothing. -/
def Obligations.PidOverflowRaisesNonfinite : Prop :=
  ∀ (s : State) (sample : Nat) (e : Int), s.Running → s.phase = .ctrl →
    s.params.controlInterval ≤ elapsed s.params s.nowLatch s.lastControlTime →
    sample ≤ s.params.sensorMax →
    e = (if ((s.setpoint : Int) - sample).natAbs < s.params.deadband then 0 else (s.setpoint : Int) - sample) →
    (PidOverflows s e → exec (.pidStep sample) s = .next { s with faults := [.nonfinite] }) ∧
    (¬ PidOverflows s e → ∃ t, exec (.pidStep sample) s = .next t ∧ t.faults = [])

/-- R67: with the default parameters and gains of magnitude below 10^33 PID_STEP completes without a fault. -/
def Obligations.PidStepCompletesWithDefaultParameters : Prop :=
  ∀ (s : State) (sample : Nat), s.Inv → s.faults = [] → s.phase = .ctrl →
    s.params.controlInterval ≤ elapsed s.params s.nowLatch s.lastControlTime →
    s.params.numFmt = .binary32 → s.params.sensorMax = 1023 → s.params.maxCount = 511 →
    s.params.integralLimit = 10200 → sample ≤ 1023 →
    |realOf .binary32 s.kp| < 10 ^ 33 → |realOf .binary32 s.ki| < 10 ^ 33 → |realOf .binary32 s.kd| < 10 ^ 33 →
    ∃ t, exec (.pidStep sample) s = .next t ∧ t.faults = []

/-- R68, R78 (1): inside the dead-band the error is exactly 0, so PID_STEP does the same for every such sample. -/
def Obligations.DeadBandHidesTheSample : Prop :=
  ∀ (s : State) (a b : Nat), a ≤ s.params.sensorMax → b ≤ s.params.sensorMax →
    ((s.setpoint : Int) - a).natAbs < s.params.deadband → ((s.setpoint : Int) - b).natAbs < s.params.deadband →
    exec (.pidStep a) s = exec (.pidStep b) s ∧
      ∀ t, exec (.pidStep a) s = .next t → t.faults = [] → t.lastError = 0

/-- R78 (2) and (3): for every value of the gains the count returned lies in [MIN_COUNT, MAX_COUNT] and the integral
in [-INTEGRAL_LIMIT, INTEGRAL_LIMIT]. -/
def Obligations.PidStepKeepsItsBounds : Prop :=
  ∀ (s t : State) (sample : Nat), exec (.pidStep sample) s = .next t → t.faults = [] →
    s.params.minCount ≤ t.pidRet ∧ t.pidRet ≤ s.params.maxCount ∧
    -(s.params.integralLimit : ℚ) ≤ realOf s.params.numFmt t.integralError ∧
    realOf s.params.numFmt t.integralError ≤ s.params.integralLimit

/-- R77: with the tentative output at or above MAX_COUNT and e ≥ 0 the integral does not increase; at or below
MIN_COUNT and e ≤ 0 it does not decrease. R74's clamp bounds an integral no run reaches, so the integral is taken in
its bounds (R31 (2)). -/
def Obligations.SaturatedStepsDoNotWindUp : Prop :=
  ∀ (s t : State) (sample : Nat) (eNum pTerm dNum dTerm u0 : NumVal),
    -(s.params.integralLimit : ℚ) ≤ realOf s.params.numFmt s.integralError →
    realOf s.params.numFmt s.integralError ≤ s.params.integralLimit →
    NumVal.ofInt s.params.numFmt (deadBandError s.params s.setpoint sample) = some eNum →
    NumVal.mul s.params.numFmt s.kp eNum = some pTerm →
    NumVal.ofInt s.params.numFmt (deadBandError s.params s.setpoint sample - s.lastError) = some dNum →
    NumVal.mul s.params.numFmt s.kd dNum = some dTerm →
    pidSum s.params.numFmt pTerm s.ki s.integralError dTerm = some u0 →
    exec (.pidStep sample) s = .next t →
    ((s.params.maxCount : ℚ) ≤ realOf s.params.numFmt u0 → 0 ≤ deadBandError s.params s.setpoint sample →
      realOf s.params.numFmt t.integralError ≤ realOf s.params.numFmt s.integralError) ∧
    (realOf s.params.numFmt u0 ≤ s.params.minCount → deadBandError s.params s.setpoint sample ≤ 0 →
      realOf s.params.numFmt s.integralError ≤ realOf s.params.numFmt t.integralError)

/-! ### Command protocol -/

/-- R81: an empty poll changes nothing but phase (the poll itself being used up). -/
def Obligations.EmptyPollChangesOnlyThePhase : Prop :=
  ∀ s : State, s.Running → s.phase = .poll → s.rxNext = none →
    exec .rxNone s = .next { s.takeRx with phase := .snap }

/-- R82: a terminator in Idle is discarded. -/
def Obligations.StrayTerminatorsAreDiscarded : Prop :=
  ∀ s : State, s.Running → s.phase = .poll → s.cmdState = .idle →
    (s.rxNext = some 0x0A → exec .discardLf s = .next { s.takeRx with phase := .snap }) ∧
    (s.rxNext = some 0x0D → exec .discardCr s = .next { s.takeRx with phase := .snap })

/-- R83: in Idle every other byte is a tag: buf[0] <- b, len <- 1, Collecting. -/
def Obligations.TagByteBeginsALine : Prop :=
  ∀ (s : State) (b : Byte), s.Running → s.phase = .poll → s.cmdState = .idle → b ≠ 0x0A → b ≠ 0x0D →
    s.rxNext = some b →
    ∃ t, exec (.tag b) s = .next t ∧ t.len = 1 ∧ t.cmdState = .collecting ∧ Memory.read t.buf 0 = some b ∧
      t = { s.takeRx with buf := t.buf, len := 1, cmdState := .collecting, phase := .snap } ∧
      ∀ a, a ≠ 0 → Memory.read t.buf a = Memory.read s.buf a

/-- R84: in Collecting with room, any byte but a terminator is stored: buf[len] <- b, len <- len + 1. -/
def Obligations.TextByteIsStored : Prop :=
  ∀ (s : State) (b : Byte), s.Running → s.phase = .poll → s.cmdState = .collecting → b ≠ 0x0A → b ≠ 0x0D →
    s.len < s.params.bufCap → s.rxNext = some b →
    ∃ t, exec (.store b) s = .next t ∧ t.len = s.len + 1 ∧ Memory.read t.buf s.len = some b ∧
      t = { s.takeRx with buf := t.buf, len := s.len + 1, phase := .snap } ∧
      ∀ a, a ≠ s.len → Memory.read t.buf a = Memory.read s.buf a

/-- R85: with the buffer full a text byte is dropped. -/
def Obligations.TextByteIsDroppedWhenFull : Prop :=
  ∀ (s : State) (b : Byte), s.Running → s.phase = .poll → s.cmdState = .collecting → b ≠ 0x0A → b ≠ 0x0D →
    s.len = s.params.bufCap → s.rxNext = some b →
    exec (.drop b) s = .next { s.takeRx with phase := .snap }

/-- R86, R87: a terminator in Collecting applies the line under its tag, the value being NUMVAL of the text
buf[1..len-1], and clears the line; LF and CR alike. -/
def Obligations.CommitAppliesTheLineAndClearsIt : Prop :=
  ∀ (s : State) (i : Instr) (b tag : Byte), (i = .commitLf ∧ b = 0x0A ∨ i = .commitCr ∧ b = 0x0D) →
    s.Running → s.phase = .poll → s.cmdState = .collecting → 1 ≤ s.len → Memory.read s.buf 0 = some tag →
    s.rxNext = some b →
    (∀ text v, lineText s = .ok text → textValue s.params text = some v →
      (tag = 0x53 → exec i s = .next
        { s.takeRx with setpoint := setpointOf s.params v, len := 0, cmdState := .idle, phase := .snap }) ∧
      (tag = 0x50 → exec i s = .next { s.takeRx with kp := v, len := 0, cmdState := .idle, phase := .snap }) ∧
      (tag = 0x49 → exec i s = .next { s.takeRx with ki := v, len := 0, cmdState := .idle, phase := .snap }) ∧
      (tag = 0x44 → exec i s = .next { s.takeRx with kd := v, len := 0, cmdState := .idle, phase := .snap })) ∧
    (tag ≠ 0x53 → tag ≠ 0x50 → tag ≠ 0x49 → tag ≠ 0x44 →
      exec i s = .next { s.takeRx with len := 0, cmdState := .idle, phase := .snap })

/-- R86, R47: a commit is the dispatch row of its tag, then the clearing and phase SNAP. -/
def Obligations.CommitIsItsDispatchRowThenTheClearing : Prop :=
  ∀ (s t : State) (i : Instr) (b tag : Byte), (i = .commitLf ∧ b = 0x0A ∨ i = .commitCr ∧ b = 0x0D) →
    s.cmdState = .collecting → Memory.read s.buf 0 = some tag → s.rxNext = some b →
    exec (decodeTag tag) s.takeRx = .next t →
    exec i s = .next (if t.faults = [] then { t with len := 0, cmdState := .idle, phase := .snap } else t)

/-- R51, R86, R112: the text of a recognised tag that overflows NUM records NONFINITE; the commit applies nothing and
leaves len, cmd_state and phase, the received byte being lost. -/
def Obligations.OverflowingTextRaisesNonfinite : Prop :=
  ∀ (s : State) (i : Instr) (b tag : Byte) (text : List Byte),
    (i = .commitLf ∧ b = 0x0A ∨ i = .commitCr ∧ b = 0x0D) →
    s.Running → s.phase = .poll → s.cmdState = .collecting → 1 ≤ s.len → Memory.read s.buf 0 = some tag →
    s.rxNext = some b → isCommandTag tag = true → lineText s = .ok text → textValue s.params text = none →
    exec i s = .next { s.takeRx with faults := [.nonfinite] } ∧
      exec (decodeTag tag) s = .next { s with faults := [.nonfinite] }

/-- R88: CMD_S writes clamp(trunc(v), 0, SENSOR_MAX) into the setpoint and nothing else. -/
def Obligations.SetpointCommandStoresTheClampedValue : Prop :=
  ∀ (s : State) (text : List Byte) (v : NumVal), s.Running → s.phase = .poll → s.cmdState = .collecting →
    1 ≤ s.len → Memory.read s.buf 0 = some 0x53 → lineText s = .ok text → textValue s.params text = some v →
    ∃ t, exec .cmdS s = .next t ∧ t = { s with setpoint := t.setpoint } ∧
      (realOf s.params.numFmt v < 1 → t.setpoint = 0) ∧
      ((s.params.sensorMax : ℚ) ≤ realOf s.params.numFmt v → t.setpoint = s.params.sensorMax) ∧
      (1 ≤ realOf s.params.numFmt v → realOf s.params.numFmt v < s.params.sensorMax →
        (t.setpoint : Int) = ⌊realOf s.params.numFmt v⌋)

/-- R89 to R91: CMD_P, CMD_I and CMD_D write the value as it is into their gain and nothing else. -/
def Obligations.GainCommandsStoreTheValue : Prop :=
  ∀ (s : State) (text : List Byte) (v : NumVal), s.Running → s.phase = .poll → s.cmdState = .collecting →
    1 ≤ s.len → lineText s = .ok text → textValue s.params text = some v →
    (Memory.read s.buf 0 = some 0x50 → exec .cmdP s = .next { s with kp := v }) ∧
    (Memory.read s.buf 0 = some 0x49 → exec .cmdI s = .next { s with ki := v }) ∧
    (Memory.read s.buf 0 = some 0x44 → exec .cmdD s = .next { s with kd := v })

/-- R92: an unrecognised tag writes no register, and its text is not parsed. -/
def Obligations.UnrecognisedTagHasNoEffect : Prop :=
  ∀ (s : State) (b : Byte), s.Running → s.phase = .poll → s.cmdState = .collecting → 1 ≤ s.len →
    Memory.read s.buf 0 = some b → b ≠ 0x53 → b ≠ 0x50 → b ≠ 0x49 → b ≠ 0x44 → b ≠ 0x0A → b ≠ 0x0D →
    exec (.cmdOther b) s = .next s

/-- R80, R46: POLL by its pseudocode is the row the table gives its poll result. -/
def Obligations.PollIsTheRowOfItsByte : Prop :=
  ∀ (s : State) (i : Instr), s.phase = .poll →
    decode (.line s.cmdState s.len s.params.bufCap) s.rxNext.toList = .ok i → exec .poll s = exec i s

/-- R80: POLL never waits: from every state that keeps the invariant it answers a next state. It writes phase and what
the row of its byte lets it (R81: no more where there is no byte); it raises NONFINITE only at a terminator, and never
with binary32 and BUF_CAP ≤ 39 (R51). -/
def Obligations.PollAlwaysCompletes : Prop :=
  ∀ s : State, s.Inv → s.faults = [] → s.phase = .poll →
    ∃ t, exec .poll s = .next t ∧
      (s.rxNext = none → t = { s.takeRx with phase := .snap }) ∧
      (t.faults = [] → t = { s.takeRx with
        phase := .snap, cmdState := t.cmdState, len := t.len, buf := t.buf,
        setpoint := t.setpoint, kp := t.kp, ki := t.ki, kd := t.kd }) ∧
      (t.faults ≠ [] → t = { s.takeRx with faults := [.nonfinite] } ∧
        (s.rxNext = some 0x0A ∨ s.rxNext = some 0x0D)) ∧
      (s.params.numFmt = .binary32 → s.params.bufCap ≤ 39 → t.faults = [])

/-- R93: a terminator returns the interpreter to Idle with len = 0, whatever bytes precede it, unless its commit raised
NONFINITE (which BUF_CAP ≤ 39 and binary32 exclude, R51). -/
def Obligations.TerminatorsResynchronise : Prop :=
  ∀ (s : State) (b : Byte), s.Inv → s.faults = [] → s.phase = .poll → s.rxNext = some b → isTerminator b = true →
    ∃ t, exec .poll s = .next t ∧ (t.faults = [] → t.cmdState = .idle ∧ t.len = 0) ∧
      (s.params.numFmt = .binary32 → s.params.bufCap ≤ 39 → t.faults = [])

/-- R45, R52, R86 to R92: a line of any length received from Idle byte by byte applies its tag to its first BUF_CAP
bytes and leaves Idle after its last POLL; every other element is as it was but for the buffer's bytes and the polls
used up. -/
def Obligations.ReceivedLineAppliesItsFirstBytes : Prop :=
  ∀ (s : State) (tag term : Byte) (text : List Byte) (v : NumVal),
    s.Running → s.cmdState = .idle → isTerminator tag = false → isTerminator term = true →
    (∀ b ∈ text, isTerminator b = false) →
    (isCommandTag tag = true → textValue s.params (text.take (s.params.bufCap - 1)) = some v) →
    ∃ t, receive (tag :: text ++ [term]) s = some t ∧
      t = { s with
        cmdState := .idle
        len := 0
        buf := t.buf
        setpoint := if tag = 0x53 then setpointOf s.params v else s.setpoint
        kp := if tag = 0x50 then v else s.kp
        ki := if tag = 0x49 then v else s.ki
        kd := if tag = 0x44 then v else s.kd
        phase := .snap
        env := { s.env with rx := [], rxDraws := s.env.rxDraws + (text.length + 2) } }

/-! ### Sequencer -/

/-- R99: before the control interval has elapsed CTRL changes nothing but phase. -/
def Obligations.ControlBeforeItsIntervalOnlyMovesOn : Prop :=
  ∀ s : State, s.Running → s.phase = .ctrl →
    elapsed s.params s.nowLatch s.lastControlTime < s.params.controlInterval →
    exec .ctrl s = .next { s with phase := .rpt }

/-- R99: after it CTRL draws a sample, runs PID_STEP on it, hands its count to the actuator, latches sample and count
for the report, and sets last_control_time to the snapshot. The field pidRet is the model's (assumption 16). -/
def Obligations.ControlStepActuatesThePidCount : Prop :=
  ∀ (s : State) (x : PidResult), s.Running → s.phase = .ctrl →
    s.params.controlInterval ≤ elapsed s.params s.nowLatch s.lastControlTime →
    s.adcNext ≤ s.params.sensorMax → pidOf s s.adcNext = some x →
    exec (.pidStep s.adcNext) s = .next
      { s with integralError := x.integralError, lastError := x.lastError, pidRet := x.out } ∧
    exec .ctrl s = .next
      { s.takeAdc with
        integralError := x.integralError, lastError := x.lastError, pidRet := x.out, actOut := x.out,
        rptSample := s.adcNext, rptOutput := x.out, lastControlTime := s.nowLatch, phase := .rpt }

/-- R99, R112: where a rounding of PID_STEP on the drawn sample overflows, CTRL records NONFINITE, writes nothing else
and does not actuate (its sample being used up is assumption 13); where none does, it raises nothing. -/
def Obligations.ControlOverflowRaisesNonfinite : Prop :=
  ∀ (s : State) (e : Int), s.Running → s.phase = .ctrl →
    s.params.controlInterval ≤ elapsed s.params s.nowLatch s.lastControlTime →
    s.adcNext ≤ s.params.sensorMax →
    e = (if ((s.setpoint : Int) - s.adcNext).natAbs < s.params.deadband then 0
      else (s.setpoint : Int) - s.adcNext) →
    (PidOverflows s e → exec .ctrl s = .next { s.takeAdc with faults := [.nonfinite] }) ∧
    (¬ PidOverflows s e → ∃ t, exec .ctrl s = .next t ∧ t.faults = [])

/-- R101: before the report interval has elapsed RPT changes nothing but phase. -/
def Obligations.ReportBeforeItsIntervalOnlyMovesOn : Prop :=
  ∀ s : State, s.Running → s.phase = .rpt →
    elapsed s.params s.nowLatch s.lastReportTime < s.params.reportInterval →
    exec .rpt s = .next { s with phase := .poll }

/-- R101, R105, R57: after it RPT appends (now_latch, sample, rpt_output) to the trace and its line to the bytes sent,
and sets last_report_time to the snapshot; the sample is the latched one, or a new draw with REPORT_SRC = FRESH, which
leaves rpt_sample. The field tx is the model's (assumption 19). -/
def Obligations.ReportStepEmitsTheReport : Prop :=
  ∀ s : State, s.Running → s.phase = .rpt →
    s.params.reportInterval ≤ elapsed s.params s.nowLatch s.lastReportTime →
    (s.params.reportSrc = .latched → exec .rpt s = .next
      { s with
        trace := s.trace ++ [⟨s.nowLatch, s.rptSample, s.rptOutput⟩]
        tx := s.tx ++ (decimalText s.nowLatch ++ s.params.delim ++ scaleText s.params.delim s.rptSample ++
          s.params.delim ++ decimalText s.rptOutput ++ [0x0A])
        lastReportTime := s.nowLatch
        phase := .poll }) ∧
    (s.params.reportSrc = .fresh → s.adcNext ≤ s.params.sensorMax → exec .rpt s = .next
      { s.takeAdc with
        trace := s.trace ++ [⟨s.nowLatch, s.adcNext, s.rptOutput⟩]
        tx := s.tx ++ (decimalText s.nowLatch ++ s.params.delim ++ scaleText s.params.delim s.adcNext ++
          s.params.delim ++ decimalText s.rptOutput ++ [0x0A])
        lastReportTime := s.nowLatch
        phase := .poll })

/-- R96: every sequencer step moves phase on in the cycle POLL, SNAP, CTRL, RPT, POLL, whatever the data, unless it
raised a fault; TICK, the dispatch rows and PID_STEP leave it. -/
def Obligations.PhasesFollowTheCycle : Prop :=
  ∀ (i : Instr) (s t : State), exec i s = .next t → t.faults = [] →
    t.phase = if Reg.phase ∈ mayWrite i then nextPhase s.phase else s.phase

/-- R96, R107: the sequencer always has an enabled step, and TICK is always enabled: from every unfaulted state of the
invariant, with samples in range (R109), the block answers a next state. -/
def Obligations.TheBlockAlwaysHasAStep : Prop :=
  ∀ s : State, s.Inv → s.faults = [] → s.adcNext ≤ s.params.sensorMax → ∃ t, step s = .next t

/-- R100: last_control_time and the actuator change only by a CTRL at least CONTROL_INTERVAL after the last, and then
last_control_time is the snapshot. -/
def Obligations.ControlStepsAreAnIntervalApart : Prop :=
  ∀ (i : Instr) (s t : State), exec i s = .next t →
    (t.lastControlTime ≠ s.lastControlTime ∨ t.actOut ≠ s.actOut) →
    i = .ctrl ∧ t.lastControlTime = s.nowLatch ∧
      s.params.controlInterval ≤ elapsed s.params t.lastControlTime s.lastControlTime

/-- R97 (1), R94: between the POLL that commits a command and the CTRL of the same iteration, ticks and SNAP leave the
setpoint and the gains, so PID_STEP uses what POLL wrote. -/
def Obligations.CommandsReachTheSameIterationsPidStep : Prop :=
  ∀ (is : List Instr) (s t : State), (∀ i ∈ is, i = .tick ∨ i = .snap) → runAll is s = some t →
    t.setpoint = s.setpoint ∧ t.kp = s.kp ∧ t.ki = s.ki ∧ t.kd = s.kd ∧ ∀ n, pidOf t n = pidOf s n

/-! ### The whole machine -/

/-- R13 "written by": an operation that answers a next state leaves every element its rule does not let it write. -/
def Obligations.OperationsWriteOnlyTheirElements : Prop :=
  ∀ (i : Instr) (s t : State) (r : Reg), exec i s = .next t → r ∉ mayWrite i → r.same s t

/-- R33: every buffer byte but the one stored to reads as before; only TAG, STORE and a POLL of their bytes store. -/
def Obligations.OperationsStoreOnlyTheirByte : Prop :=
  ∀ (i : Instr) (s t : State) (a : Nat), exec i s = .next t → storedIndex i s ≠ some a →
    Memory.read t.buf a = Memory.read s.buf a

/-- R112, R113: a fault is recorded only by a commit, a dispatch row, CTRL or PID_STEP, and the step that records it
writes nothing else; the draw it made is used up (CTRL's: assumption 13). -/
def Obligations.RaisingStepsWriteOnlyTheFaultSet : Prop :=
  ∀ (i : Instr) (s t : State), exec i s = .next t → t.faults ≠ s.faults →
    (i ∈ [Instr.commitLf, .commitCr, .cmdS, .cmdP, .cmdI, .cmdD, .poll, .ctrl] ∨ ∃ n, i = .pidStep n) ∧
    (t = { s with faults := [.nonfinite] } ∨ t = { s.takeRx with faults := [.nonfinite] } ∨
      t = { s.takeAdc with faults := [.nonfinite] })

/-- R112: a block with a recorded fault is quiescent: no operation has a step. -/
def Obligations.FaultedBlockTakesNoStep : Prop :=
  ∀ s : State, s.params.legal = true → s.faults ≠ [] →
    step s = .fault .nonfinite ∧ ∀ i, exec i s = .fault .nonfinite

/-- R6: a parameter record outside the legal values has no step. -/
def Obligations.IllegalParametersAreRefused : Prop :=
  ∀ s : State, s.params.legal = false →
    step s = .refused .illegalParams ∧ ∀ i, exec i s = .refused .illegalParams

/-- R12, R56: a step runs the operation its agent and phase select. That the step at POLL runs the byte row its poll
result decodes to is the model's choice (assumption 18; POLL itself is equal to that row), and so is the choice of agent
as a draw that the step uses up (assumptions 6 and 8). -/
def Obligations.StepRunsTheSelectedOperation : Prop :=
  ∀ s : State,
    (s.agentNext = .tick → step s = exec .tick s.takeAgent) ∧
    (s.agentNext = .sequencer →
      (∀ i, s.phase = .poll → decode (.line s.cmdState s.len s.params.bufCap) s.rxNext.toList = .ok i →
        step s = exec i s.takeAgent) ∧
      (s.phase = .snap → step s = exec .snap s.takeAgent) ∧
      (s.phase = .ctrl → step s = exec .ctrl s.takeAgent) ∧
      (s.phase = .rpt → step s = exec .rpt s.takeAgent)) ∧
    s.takeAgent = { s with env := { s.env with sched := s.env.sched.tail, schedDraws := s.env.schedDraws + 1 } }

/-- R126: every state element's value after power-on reset with any parameter record. -/
def Obligations.ResetLeavesTheTablesValues : Prop :=
  ∀ p : Params,
    (State.resetOf p).params = p ∧ (State.resetOf p).phase = .poll ∧ (State.resetOf p).nowLatch = 0 ∧
    (State.resetOf p).clk = 0 ∧ (State.resetOf p).tickPending = false ∧ (State.resetOf p).tickMask = false ∧
    (State.resetOf p).setpoint = p.setpointReset ∧ (State.resetOf p).kp = p.kpReset ∧
    (State.resetOf p).ki = p.kiReset ∧ (State.resetOf p).kd = p.kdReset ∧
    (State.resetOf p).integralError = NumVal.posZero ∧ (State.resetOf p).lastError = 0 ∧
    (State.resetOf p).lastControlTime = 0 ∧ (State.resetOf p).lastReportTime = 0 ∧
    (State.resetOf p).rptSample = 0 ∧ (State.resetOf p).rptOutput = 0 ∧ (State.resetOf p).cmdState = .idle ∧
    (State.resetOf p).len = 0 ∧ (∀ i, Memory.read (State.resetOf p).buf i = none) ∧
    (State.resetOf p).actOut = p.actReset ∧ (State.resetOf p).faults = [] ∧ (State.resetOf p).trace = []

/-- R128 (1) and (4): while last_control_time still is 0, CTRL runs no PID step at a snapshot below CONTROL_INTERVAL and
runs one from it on; while last_report_time still is 0, RPT reports nothing at a snapshot below REPORT_INTERVAL and
reports from it on. -/
def Obligations.FirstStepsAfterResetWaitForTheirInterval : Prop :=
  ∀ s : State, s.Inv → s.faults = [] → s.adcNext ≤ s.params.sensorMax →
    (s.phase = .ctrl → s.lastControlTime = 0 →
      (s.nowLatch < s.params.controlInterval → exec .ctrl s = .next { s with phase := .rpt }) ∧
      (s.params.controlInterval ≤ s.nowLatch → ∃ t, exec .ctrl s = .next t ∧
        (t.faults = [] → t.actOut = t.rptOutput ∧ t.rptSample = s.adcNext ∧ t.lastControlTime = s.nowLatch ∧
          t.phase = .rpt ∧ exec (.pidStep s.adcNext) s = .next
            { s with integralError := t.integralError, lastError := t.lastError, pidRet := t.actOut }))) ∧
    (s.phase = .rpt → s.lastReportTime = 0 →
      (s.nowLatch < s.params.reportInterval → exec .rpt s = .next { s with phase := .poll }) ∧
      (s.params.reportInterval ≤ s.nowLatch → ∃ t, exec .rpt s = .next t ∧ t.lastReportTime = s.nowLatch ∧
        t.phase = .poll ∧ t.trace = s.trace ++
          [⟨s.nowLatch, if s.params.reportSrc = .latched then s.rptSample else s.adcNext, s.rptOutput⟩]))

/-- R128 (1), (2) and (4): along any run from reset in which fewer than CONTROL_INTERVAL ticks occur, the actuator holds
ACT_RESET, the accumulators and latches their reset values, and every report carries output 0 and, with REPORT_SRC =
LATCHED, sample 0; with fewer than REPORT_INTERVAL ticks nothing is reported. The environment's choices are any. -/
def Obligations.ResetValuesHoldUntilTheFirstInterval : Prop :=
  ∀ (p : Params) (env : Env) (is : List Instr) (t : State), p.legal = true →
    runAll is { State.resetOf p with env := env } = some t →
    (is.count .tick < p.controlInterval →
      t.actOut = p.actReset ∧ t.integralError = NumVal.posZero ∧ t.lastError = 0 ∧ t.lastControlTime = 0 ∧
      t.rptSample = 0 ∧ t.rptOutput = 0 ∧
      ∀ r ∈ t.trace, r.output = 0 ∧ (p.reportSrc = .latched → r.sample = 0)) ∧
    (is.count .tick < p.reportInterval → t.trace = [] ∧ t.lastReportTime = 0)

/-- R31, R126: the invariant holds after reset with every legal parameter record. -/
def Obligations.ResetSatisfiesTheRanges : Prop :=
  ∀ p : Params, p.legal = true → (State.resetOf p).Inv

/-- R31: every step keeps the invariant, from every state that satisfies it, and never changes the parameters. -/
def Obligations.EveryStepKeepsTheRanges : Prop :=
  ∀ s t : State, s.Inv → step s = .next t → t.Inv ∧ t.params = s.params

/-- R31: so does every operation taken alone, the dispatch rows and PID_STEP included. -/
def Obligations.EveryOperationKeepsTheRanges : Prop :=
  ∀ (i : Instr) (s t : State), s.Inv → exec i s = .next t → t.Inv ∧ t.params = s.params

/-- R110, R103: the actuator count fits pwm_count, 9 bits by default. -/
def Obligations.ActuatorCountFitsItsSignal : Prop :=
  (∀ s : State, s.Inv → s.actOut < 2 ^ pwmWidth s.params) ∧ pwmWidth Params.default = 9
end

