-- ==== Sys2Proof/Laws/Arith.lean ====
section
/-! SUPPORT. What rounding can answer: the half-unit bound, that a rounded value is a value of the format, and that
a value of the format rounds to itself. -/

namespace Sys2Proof

theorem one_pos (f : NumFmt) : 0 < f.one := by cases f <;> (unfold NumFmt.one; positivity)

theorem prec_pos (f : NumFmt) : 0 < f.prec := by cases f <;> decide

/-- Rounding moves a quotient by at most half a unit. -/
theorem roundHalfEven_bounds (n : Nat) {d : Nat} (hd : 0 < d) :
    2 * n ≤ 2 * (roundHalfEven n d * d) + d ∧ 2 * (roundHalfEven n d * d) ≤ 2 * n + d := by
  have hdiv := Nat.div_add_mod n d
  have hmod := Nat.mod_lt n hd
  have hc : d * (n / d) = n / d * d := Nat.mul_comm _ _
  have hs : (n / d + 1) * d = n / d * d + d := by ring
  unfold roundHalfEven
  split
  · omega
  · split
    · rw [hs]; omega
    · split
      · omega
      · rw [hs]; omega

/-- An exact quotient rounds to itself. -/
theorem roundHalfEven_exact (q : Nat) {d : Nat} (hd : 0 < d) : roundHalfEven (q * d) d = q := by
  simp [roundHalfEven, Nat.mul_mod_left, Nat.mul_div_cancel _ hd, hd]

/-- Rounding is monotone against a bound that is a whole number of units. -/
theorem roundHalfEven_le {n d k : Nat} (hd : 0 < d) (h : n ≤ k * d) : roundHalfEven n d ≤ k := by
  have hb := (roundHalfEven_bounds n hd).2
  by_contra hlt
  have : (k + 1) * d ≤ roundHalfEven n d * d := Nat.mul_le_mul_right d (by omega)
  have hk : (k + 1) * d = k * d + d := by ring
  omega

theorem le_roundHalfEven {n d k : Nat} (hd : 0 < d) (h : k * d ≤ n) : k ≤ roundHalfEven n d := by
  have hb := (roundHalfEven_bounds n hd).1
  by_contra hlt
  have : (roundHalfEven n d + 1) * d ≤ k * d := Nat.mul_le_mul_right d (by omega)
  have hk : (roundHalfEven n d + 1) * d = roundHalfEven n d * d + d := by ring
  omega

/-- Below the middle of two units a quotient rounds to the lower one. -/
theorem roundHalfEven_lt_of_lt_half {n d k : Nat} (hd : 0 < d) (h : 2 * n < (2 * k - 1) * d) :
    roundHalfEven n d < k := by
  have hb := (roundHalfEven_bounds n hd).2
  by_contra hge
  have h1 : k * d ≤ roundHalfEven n d * d := Nat.mul_le_mul_right d (by omega)
  obtain _ | k := k
  · simp at h
  · have h2 : (2 * (k + 1) - 1) * d = 2 * (k * d) + d := by
      rw [show 2 * (k + 1) - 1 = 2 * k + 1 by omega]; ring
    have h3 : (k + 1) * d = k * d + d := by ring
    omega

/-- The exponent of the spacing of the largest finite values. -/
def topSpacing : NumFmt → Nat
  | .binary32 => 253
  | .binary64 => 2045

/-- The overflow threshold is half a spacing below the first power of two that is too large. -/
theorem overflow_eq (f : NumFmt) : 2 * f.overflow = (2 * 2 ^ f.prec - 1) * 2 ^ topSpacing f := by
  cases f
  · norm_num [NumFmt.overflow, NumFmt.one, NumFmt.prec, topSpacing]
  · have h : (2 : Nat) ^ 1024 - 2 ^ 970 = (2 ^ 54 - 1) * 2 ^ 970 := by
      rw [show 1024 = 54 + 970 by norm_num, pow_add, Nat.sub_mul, Nat.one_mul]
    have h' : (2 : Nat) * (2 ^ 970 * 2 ^ 1074) = 2 ^ 2045 := by
      rw [← pow_add, ← pow_succ']
    simp only [NumFmt.overflow, NumFmt.one, NumFmt.prec, topSpacing, h]
    rw [← h', show 2 * 2 ^ 53 - 1 = 2 ^ 54 - 1 by norm_num]
    generalize (2 : Nat) ^ 970 = a
    generalize (2 : Nat) ^ 1074 = b
    generalize (2 : Nat) ^ 54 - 1 = c
    ring

/-- A magnitude below 2^(e + prec) has a spacing of at most 2^e. -/
theorem spacingExp_le {f : NumFmt} {m e : Nat} (h : m < 2 ^ (e + f.prec)) : f.spacingExp m ≤ e := by
  unfold NumFmt.spacingExp
  rcases Nat.eq_zero_or_pos m with rfl | hm
  · have := prec_pos f
    simp only [Nat.log2_zero]; omega
  · have := (Nat.log2_lt (by omega)).2 h
    omega

/-- A magnitude is below 2^prec spacings. -/
theorem lt_spacing (f : NumFmt) (m : Nat) : m < 2 ^ (f.spacingExp m + f.prec) := by
  rcases Nat.eq_zero_or_pos m with rfl | hm
  · positivity
  · refine (Nat.log2_lt (by omega)).1 ?_
    unfold NumFmt.spacingExp; omega

/-- Beyond the subnormals a magnitude is at least 2^(prec - 1) spacings. -/
theorem spacing_le {f : NumFmt} {m : Nat} (h : 0 < f.spacingExp m) : 2 ^ (f.spacingExp m + f.prec - 1) ≤ m := by
  have hm : m ≠ 0 := by
    rintro rfl
    have := prec_pos f
    simp only [NumFmt.spacingExp, Nat.log2_zero] at h; omega
  refine (Nat.le_log2 hm).1 ?_
  unfold NumFmt.spacingExp at *; omega

/-- A rounded magnitude is a multiple of its spacing and below the overflow threshold. -/
theorem roundMag_inFmt {f : NumFmt} {n d m : Nat} {neg : Bool} (hd : 0 < d) (h : roundMag f n d = some m) :
    NumVal.inFmt f ⟨neg, m⟩ = true := by
  unfold roundMag at h
  split at h
  · simp at h
  · rename_i hlt
    obtain rfl := Option.some.inj h
    set e := f.spacingExp (n / d) with he
    have hpos : 0 < d * 2 ^ e := by positivity
    have hfloor := lt_spacing f (n / d)
    rw [← he] at hfloor
    have hn : n < 2 ^ f.prec * (d * 2 ^ e) := by
      have := (Nat.div_lt_iff_lt_mul hd).1 hfloor
      calc n < 2 ^ (e + f.prec) * d := this
        _ = 2 ^ f.prec * (d * 2 ^ e) := by rw [pow_add]; ring
    have hr : roundHalfEven n (d * 2 ^ e) ≤ 2 ^ f.prec := roundHalfEven_le hpos hn.le
    set r := roundHalfEven n (d * 2 ^ e) with hrdef
    have hdvd : r * 2 ^ e % 2 ^ f.spacingExp (r * 2 ^ e) = 0 := by
      rcases hr.lt_or_eq with hr | hr
      · have : f.spacingExp (r * 2 ^ e) ≤ e := spacingExp_le (by
          rw [pow_add, Nat.mul_comm (2 ^ e)]; exact Nat.mul_lt_mul_of_pos_right hr (by positivity))
        exact Nat.mod_eq_zero_of_dvd ((pow_dvd_pow 2 this).mul_left r)
      · have : f.spacingExp (r * 2 ^ e) ≤ f.prec + e := spacingExp_le (by
          rw [hr, ← pow_add]; exact Nat.pow_lt_pow_right (by norm_num) (by have := prec_pos f; omega))
        rw [hr, ← pow_add]
        rw [hr, ← pow_add] at this
        exact Nat.mod_eq_zero_of_dvd (pow_dvd_pow 2 this)
    have hover : 2 * (r * 2 ^ e) < 2 * f.overflow := by
      have ho := overflow_eq f
      have hp2 : 2 ≤ 2 ^ f.prec := by
        calc 2 = 2 ^ 1 := by norm_num
          _ ≤ 2 ^ f.prec := Nat.pow_le_pow_right (by norm_num) (prec_pos f)
      rcases lt_trichotomy e (topSpacing f) with hlo | heq | hhi
      · calc 2 * (r * 2 ^ e) ≤ 2 * (2 ^ f.prec * 2 ^ e) := Nat.mul_le_mul_left _ (Nat.mul_le_mul_right _ hr)
          _ = 2 ^ f.prec * 2 ^ (e + 1) := by rw [pow_succ]; ring
          _ ≤ 2 ^ f.prec * 2 ^ topSpacing f := Nat.mul_le_mul_left _ (Nat.pow_le_pow_right (by norm_num) hlo)
          _ < (2 * 2 ^ f.prec - 1) * 2 ^ topSpacing f := Nat.mul_lt_mul_of_pos_right (by omega) (by positivity)
          _ = 2 * f.overflow := ho.symm
      · have hr' : r < 2 ^ f.prec := by
          refine roundHalfEven_lt_of_lt_half hpos ?_
          calc 2 * n < 2 * f.overflow * d := by rw [Nat.mul_assoc]; omega
            _ = (2 * 2 ^ f.prec - 1) * (d * 2 ^ e) := by rw [ho, heq]; ring
        calc 2 * (r * 2 ^ e) = 2 * r * 2 ^ e := by ring
          _ < (2 * 2 ^ f.prec - 1) * 2 ^ e := Nat.mul_lt_mul_of_pos_right (by omega) (by positivity)
          _ = 2 * f.overflow := by rw [ho, heq]
      · exfalso
        have hsp := spacing_le (f := f) (m := n / d) (by omega)
        rw [← he] at hsp
        have h1 : n / d < f.overflow := (Nat.div_lt_iff_lt_mul hd).2 (by omega)
        have h2 : 2 ^ f.prec * 2 ^ topSpacing f ≤ 2 ^ (e + f.prec - 1) := by
          rw [← pow_add]; exact Nat.pow_le_pow_right (by norm_num) (by omega)
        have h3 : (2 * 2 ^ f.prec - 1) * 2 ^ topSpacing f ≤ 2 * 2 ^ f.prec * 2 ^ topSpacing f :=
          Nat.mul_le_mul_right _ (by omega)
        have h4 : 2 * 2 ^ f.prec * 2 ^ topSpacing f = 2 * (2 ^ f.prec * 2 ^ topSpacing f) := by ring
        omega
    have hover : r * 2 ^ e < f.overflow := by omega
    simp [NumVal.inFmt, hdvd, hover]

/-- Every result of rnd is a value of the format. -/
theorem rnd_inFmt {f : NumFmt} {neg : Bool} {n d : Nat} {x : NumVal} (hd : 0 < d)
    (h : NumVal.rnd f neg n d = some x) : x.inFmt f = true := by
  obtain ⟨m, hm, rfl⟩ := Option.map_eq_some_iff.1 h
  exact roundMag_inFmt hd hm

theorem add_inFmt {f : NumFmt} {a b x : NumVal} (h : NumVal.add f a b = some x) : x.inFmt f = true :=
  rnd_inFmt Nat.one_pos h

theorem mul_inFmt {f : NumFmt} {a b x : NumVal} (h : NumVal.mul f a b = some x) : x.inFmt f = true :=
  rnd_inFmt (one_pos f) h

theorem ofInt_inFmt {f : NumFmt} {n : Int} {x : NumVal} (h : NumVal.ofInt f n = some x) : x.inFmt f = true :=
  rnd_inFmt Nat.one_pos h

theorem ofDec_inFmt {f : NumFmt} {neg : Bool} {n k : Nat} {x : NumVal} (h : NumVal.ofDec f neg n k = some x) :
    x.inFmt f = true :=
  rnd_inFmt (by positivity) h

theorem posZero_inFmt (f : NumFmt) : NumVal.inFmt f .posZero = true := by
  have : 0 < f.overflow := by
    have h := overflow_eq f
    have : 0 < (2 * 2 ^ f.prec - 1) * 2 ^ topSpacing f :=
      Nat.mul_pos (by have : 0 < 2 ^ f.prec := by positivity
                      omega) (by positivity)
    omega
  simp [NumVal.inFmt, NumVal.posZero, this]

/-- A value of the format rounds to itself. -/
theorem roundMag_self {f : NumFmt} {x : NumVal} (h : x.inFmt f = true) : roundMag f x.mag 1 = some x.mag := by
  simp only [NumVal.inFmt, Bool.and_eq_true, beq_iff_eq, decide_eq_true_eq] at h
  obtain ⟨hm, ho⟩ := h
  obtain ⟨q, hq⟩ := Nat.dvd_of_mod_eq_zero hm
  have hpos : 0 < 2 ^ f.spacingExp x.mag := by positivity
  unfold roundMag
  rw [if_neg (by omega), Nat.div_one, Nat.one_mul]
  generalize f.spacingExp x.mag = e at hq hpos
  rw [hq, Nat.mul_comm (2 ^ e) q, roundHalfEven_exact q hpos]

/-- An integer that R5 calls representable is exact in NUM. -/
theorem ofInt_of_representable {f : NumFmt} {n : Nat} {i : Int} (h : representable f n = true) (hi : i.natAbs = n) :
    NumVal.ofInt f i = some ⟨decide (i < 0), n * f.one⟩ := by
  have := roundMag_self h
  simp only at this
  simp [NumVal.ofInt, NumVal.rnd, hi, this]

end Sys2Proof
end

