-- ==== Sys2Proof/Laws/State.lean ====
section
/-! SUPPORT. One lemma per field per state update, all true by unfolding the one update. -/

namespace Sys2Proof.Machine

open Sys2Proof

/-! ### takeAgent -/

@[simp] theorem takeAgent_params (s : State) : (State.takeAgent s).params = s.params := rfl
@[simp] theorem takeAgent_phase (s : State) : (State.takeAgent s).phase = s.phase := rfl
@[simp] theorem takeAgent_nowLatch (s : State) : (State.takeAgent s).nowLatch = s.nowLatch := rfl
@[simp] theorem takeAgent_clk (s : State) : (State.takeAgent s).clk = s.clk := rfl
@[simp] theorem takeAgent_tickPending (s : State) : (State.takeAgent s).tickPending = s.tickPending := rfl
@[simp] theorem takeAgent_tickMask (s : State) : (State.takeAgent s).tickMask = s.tickMask := rfl
@[simp] theorem takeAgent_setpoint (s : State) : (State.takeAgent s).setpoint = s.setpoint := rfl
@[simp] theorem takeAgent_kp (s : State) : (State.takeAgent s).kp = s.kp := rfl
@[simp] theorem takeAgent_ki (s : State) : (State.takeAgent s).ki = s.ki := rfl
@[simp] theorem takeAgent_kd (s : State) : (State.takeAgent s).kd = s.kd := rfl
@[simp] theorem takeAgent_integralError (s : State) : (State.takeAgent s).integralError = s.integralError := rfl
@[simp] theorem takeAgent_lastError (s : State) : (State.takeAgent s).lastError = s.lastError := rfl
@[simp] theorem takeAgent_lastControlTime (s : State) : (State.takeAgent s).lastControlTime = s.lastControlTime := rfl
@[simp] theorem takeAgent_lastReportTime (s : State) : (State.takeAgent s).lastReportTime = s.lastReportTime := rfl
@[simp] theorem takeAgent_rptSample (s : State) : (State.takeAgent s).rptSample = s.rptSample := rfl
@[simp] theorem takeAgent_rptOutput (s : State) : (State.takeAgent s).rptOutput = s.rptOutput := rfl
@[simp] theorem takeAgent_cmdState (s : State) : (State.takeAgent s).cmdState = s.cmdState := rfl
@[simp] theorem takeAgent_len (s : State) : (State.takeAgent s).len = s.len := rfl
@[simp] theorem takeAgent_buf (s : State) : (State.takeAgent s).buf = s.buf := rfl
@[simp] theorem takeAgent_actOut (s : State) : (State.takeAgent s).actOut = s.actOut := rfl
@[simp] theorem takeAgent_faults (s : State) : (State.takeAgent s).faults = s.faults := rfl
@[simp] theorem takeAgent_trace (s : State) : (State.takeAgent s).trace = s.trace := rfl
@[simp] theorem takeAgent_tx (s : State) : (State.takeAgent s).tx = s.tx := rfl
@[simp] theorem takeAgent_pidRet (s : State) : (State.takeAgent s).pidRet = s.pidRet := rfl
@[simp] theorem takeAgent_env (s : State) : (State.takeAgent s).env = { s.env with sched := s.env.sched.tail, schedDraws := s.env.schedDraws + 1 } := rfl

/-! ### takeRx -/

@[simp] theorem takeRx_params (s : State) : (State.takeRx s).params = s.params := rfl
@[simp] theorem takeRx_phase (s : State) : (State.takeRx s).phase = s.phase := rfl
@[simp] theorem takeRx_nowLatch (s : State) : (State.takeRx s).nowLatch = s.nowLatch := rfl
@[simp] theorem takeRx_clk (s : State) : (State.takeRx s).clk = s.clk := rfl
@[simp] theorem takeRx_tickPending (s : State) : (State.takeRx s).tickPending = s.tickPending := rfl
@[simp] theorem takeRx_tickMask (s : State) : (State.takeRx s).tickMask = s.tickMask := rfl
@[simp] theorem takeRx_setpoint (s : State) : (State.takeRx s).setpoint = s.setpoint := rfl
@[simp] theorem takeRx_kp (s : State) : (State.takeRx s).kp = s.kp := rfl
@[simp] theorem takeRx_ki (s : State) : (State.takeRx s).ki = s.ki := rfl
@[simp] theorem takeRx_kd (s : State) : (State.takeRx s).kd = s.kd := rfl
@[simp] theorem takeRx_integralError (s : State) : (State.takeRx s).integralError = s.integralError := rfl
@[simp] theorem takeRx_lastError (s : State) : (State.takeRx s).lastError = s.lastError := rfl
@[simp] theorem takeRx_lastControlTime (s : State) : (State.takeRx s).lastControlTime = s.lastControlTime := rfl
@[simp] theorem takeRx_lastReportTime (s : State) : (State.takeRx s).lastReportTime = s.lastReportTime := rfl
@[simp] theorem takeRx_rptSample (s : State) : (State.takeRx s).rptSample = s.rptSample := rfl
@[simp] theorem takeRx_rptOutput (s : State) : (State.takeRx s).rptOutput = s.rptOutput := rfl
@[simp] theorem takeRx_cmdState (s : State) : (State.takeRx s).cmdState = s.cmdState := rfl
@[simp] theorem takeRx_len (s : State) : (State.takeRx s).len = s.len := rfl
@[simp] theorem takeRx_buf (s : State) : (State.takeRx s).buf = s.buf := rfl
@[simp] theorem takeRx_actOut (s : State) : (State.takeRx s).actOut = s.actOut := rfl
@[simp] theorem takeRx_faults (s : State) : (State.takeRx s).faults = s.faults := rfl
@[simp] theorem takeRx_trace (s : State) : (State.takeRx s).trace = s.trace := rfl
@[simp] theorem takeRx_tx (s : State) : (State.takeRx s).tx = s.tx := rfl
@[simp] theorem takeRx_pidRet (s : State) : (State.takeRx s).pidRet = s.pidRet := rfl
@[simp] theorem takeRx_env (s : State) : (State.takeRx s).env = { s.env with rx := s.env.rx.tail, rxDraws := s.env.rxDraws + 1 } := rfl

/-! ### takeAdc -/

@[simp] theorem takeAdc_params (s : State) : (State.takeAdc s).params = s.params := rfl
@[simp] theorem takeAdc_phase (s : State) : (State.takeAdc s).phase = s.phase := rfl
@[simp] theorem takeAdc_nowLatch (s : State) : (State.takeAdc s).nowLatch = s.nowLatch := rfl
@[simp] theorem takeAdc_clk (s : State) : (State.takeAdc s).clk = s.clk := rfl
@[simp] theorem takeAdc_tickPending (s : State) : (State.takeAdc s).tickPending = s.tickPending := rfl
@[simp] theorem takeAdc_tickMask (s : State) : (State.takeAdc s).tickMask = s.tickMask := rfl
@[simp] theorem takeAdc_setpoint (s : State) : (State.takeAdc s).setpoint = s.setpoint := rfl
@[simp] theorem takeAdc_kp (s : State) : (State.takeAdc s).kp = s.kp := rfl
@[simp] theorem takeAdc_ki (s : State) : (State.takeAdc s).ki = s.ki := rfl
@[simp] theorem takeAdc_kd (s : State) : (State.takeAdc s).kd = s.kd := rfl
@[simp] theorem takeAdc_integralError (s : State) : (State.takeAdc s).integralError = s.integralError := rfl
@[simp] theorem takeAdc_lastError (s : State) : (State.takeAdc s).lastError = s.lastError := rfl
@[simp] theorem takeAdc_lastControlTime (s : State) : (State.takeAdc s).lastControlTime = s.lastControlTime := rfl
@[simp] theorem takeAdc_lastReportTime (s : State) : (State.takeAdc s).lastReportTime = s.lastReportTime := rfl
@[simp] theorem takeAdc_rptSample (s : State) : (State.takeAdc s).rptSample = s.rptSample := rfl
@[simp] theorem takeAdc_rptOutput (s : State) : (State.takeAdc s).rptOutput = s.rptOutput := rfl
@[simp] theorem takeAdc_cmdState (s : State) : (State.takeAdc s).cmdState = s.cmdState := rfl
@[simp] theorem takeAdc_len (s : State) : (State.takeAdc s).len = s.len := rfl
@[simp] theorem takeAdc_buf (s : State) : (State.takeAdc s).buf = s.buf := rfl
@[simp] theorem takeAdc_actOut (s : State) : (State.takeAdc s).actOut = s.actOut := rfl
@[simp] theorem takeAdc_faults (s : State) : (State.takeAdc s).faults = s.faults := rfl
@[simp] theorem takeAdc_trace (s : State) : (State.takeAdc s).trace = s.trace := rfl
@[simp] theorem takeAdc_tx (s : State) : (State.takeAdc s).tx = s.tx := rfl
@[simp] theorem takeAdc_pidRet (s : State) : (State.takeAdc s).pidRet = s.pidRet := rfl
@[simp] theorem takeAdc_env (s : State) : (State.takeAdc s).env = { s.env with adc := s.env.adc.tail, adcDraws := s.env.adcDraws + 1 } := rfl

/-! ### toPhase -/

@[simp] theorem toPhase_params (s : State) (ph : Phase) : (State.toPhase s ph).params = s.params := rfl
@[simp] theorem toPhase_phase (s : State) (ph : Phase) : (State.toPhase s ph).phase = ph := rfl
@[simp] theorem toPhase_nowLatch (s : State) (ph : Phase) : (State.toPhase s ph).nowLatch = s.nowLatch := rfl
@[simp] theorem toPhase_clk (s : State) (ph : Phase) : (State.toPhase s ph).clk = s.clk := rfl
@[simp] theorem toPhase_tickPending (s : State) (ph : Phase) : (State.toPhase s ph).tickPending = s.tickPending := rfl
@[simp] theorem toPhase_tickMask (s : State) (ph : Phase) : (State.toPhase s ph).tickMask = s.tickMask := rfl
@[simp] theorem toPhase_setpoint (s : State) (ph : Phase) : (State.toPhase s ph).setpoint = s.setpoint := rfl
@[simp] theorem toPhase_kp (s : State) (ph : Phase) : (State.toPhase s ph).kp = s.kp := rfl
@[simp] theorem toPhase_ki (s : State) (ph : Phase) : (State.toPhase s ph).ki = s.ki := rfl
@[simp] theorem toPhase_kd (s : State) (ph : Phase) : (State.toPhase s ph).kd = s.kd := rfl
@[simp] theorem toPhase_integralError (s : State) (ph : Phase) : (State.toPhase s ph).integralError = s.integralError := rfl
@[simp] theorem toPhase_lastError (s : State) (ph : Phase) : (State.toPhase s ph).lastError = s.lastError := rfl
@[simp] theorem toPhase_lastControlTime (s : State) (ph : Phase) : (State.toPhase s ph).lastControlTime = s.lastControlTime := rfl
@[simp] theorem toPhase_lastReportTime (s : State) (ph : Phase) : (State.toPhase s ph).lastReportTime = s.lastReportTime := rfl
@[simp] theorem toPhase_rptSample (s : State) (ph : Phase) : (State.toPhase s ph).rptSample = s.rptSample := rfl
@[simp] theorem toPhase_rptOutput (s : State) (ph : Phase) : (State.toPhase s ph).rptOutput = s.rptOutput := rfl
@[simp] theorem toPhase_cmdState (s : State) (ph : Phase) : (State.toPhase s ph).cmdState = s.cmdState := rfl
@[simp] theorem toPhase_len (s : State) (ph : Phase) : (State.toPhase s ph).len = s.len := rfl
@[simp] theorem toPhase_buf (s : State) (ph : Phase) : (State.toPhase s ph).buf = s.buf := rfl
@[simp] theorem toPhase_actOut (s : State) (ph : Phase) : (State.toPhase s ph).actOut = s.actOut := rfl
@[simp] theorem toPhase_faults (s : State) (ph : Phase) : (State.toPhase s ph).faults = s.faults := rfl
@[simp] theorem toPhase_trace (s : State) (ph : Phase) : (State.toPhase s ph).trace = s.trace := rfl
@[simp] theorem toPhase_tx (s : State) (ph : Phase) : (State.toPhase s ph).tx = s.tx := rfl
@[simp] theorem toPhase_pidRet (s : State) (ph : Phase) : (State.toPhase s ph).pidRet = s.pidRet := rfl
@[simp] theorem toPhase_env (s : State) (ph : Phase) : (State.toPhase s ph).env = s.env := rfl

/-! ### clearLine -/

@[simp] theorem clearLine_params (s : State) : (State.clearLine s).params = s.params := rfl
@[simp] theorem clearLine_phase (s : State) : (State.clearLine s).phase = s.phase := rfl
@[simp] theorem clearLine_nowLatch (s : State) : (State.clearLine s).nowLatch = s.nowLatch := rfl
@[simp] theorem clearLine_clk (s : State) : (State.clearLine s).clk = s.clk := rfl
@[simp] theorem clearLine_tickPending (s : State) : (State.clearLine s).tickPending = s.tickPending := rfl
@[simp] theorem clearLine_tickMask (s : State) : (State.clearLine s).tickMask = s.tickMask := rfl
@[simp] theorem clearLine_setpoint (s : State) : (State.clearLine s).setpoint = s.setpoint := rfl
@[simp] theorem clearLine_kp (s : State) : (State.clearLine s).kp = s.kp := rfl
@[simp] theorem clearLine_ki (s : State) : (State.clearLine s).ki = s.ki := rfl
@[simp] theorem clearLine_kd (s : State) : (State.clearLine s).kd = s.kd := rfl
@[simp] theorem clearLine_integralError (s : State) : (State.clearLine s).integralError = s.integralError := rfl
@[simp] theorem clearLine_lastError (s : State) : (State.clearLine s).lastError = s.lastError := rfl
@[simp] theorem clearLine_lastControlTime (s : State) : (State.clearLine s).lastControlTime = s.lastControlTime := rfl
@[simp] theorem clearLine_lastReportTime (s : State) : (State.clearLine s).lastReportTime = s.lastReportTime := rfl
@[simp] theorem clearLine_rptSample (s : State) : (State.clearLine s).rptSample = s.rptSample := rfl
@[simp] theorem clearLine_rptOutput (s : State) : (State.clearLine s).rptOutput = s.rptOutput := rfl
@[simp] theorem clearLine_cmdState (s : State) : (State.clearLine s).cmdState = .idle := rfl
@[simp] theorem clearLine_len (s : State) : (State.clearLine s).len = 0 := rfl
@[simp] theorem clearLine_buf (s : State) : (State.clearLine s).buf = s.buf := rfl
@[simp] theorem clearLine_actOut (s : State) : (State.clearLine s).actOut = s.actOut := rfl
@[simp] theorem clearLine_faults (s : State) : (State.clearLine s).faults = s.faults := rfl
@[simp] theorem clearLine_trace (s : State) : (State.clearLine s).trace = s.trace := rfl
@[simp] theorem clearLine_tx (s : State) : (State.clearLine s).tx = s.tx := rfl
@[simp] theorem clearLine_pidRet (s : State) : (State.clearLine s).pidRet = s.pidRet := rfl
@[simp] theorem clearLine_env (s : State) : (State.clearLine s).env = s.env := rfl

/-! ### actuate -/

@[simp] theorem actuate_params (s : State) (c : Nat) : (State.actuate s c).params = s.params := rfl
@[simp] theorem actuate_phase (s : State) (c : Nat) : (State.actuate s c).phase = s.phase := rfl
@[simp] theorem actuate_nowLatch (s : State) (c : Nat) : (State.actuate s c).nowLatch = s.nowLatch := rfl
@[simp] theorem actuate_clk (s : State) (c : Nat) : (State.actuate s c).clk = s.clk := rfl
@[simp] theorem actuate_tickPending (s : State) (c : Nat) : (State.actuate s c).tickPending = s.tickPending := rfl
@[simp] theorem actuate_tickMask (s : State) (c : Nat) : (State.actuate s c).tickMask = s.tickMask := rfl
@[simp] theorem actuate_setpoint (s : State) (c : Nat) : (State.actuate s c).setpoint = s.setpoint := rfl
@[simp] theorem actuate_kp (s : State) (c : Nat) : (State.actuate s c).kp = s.kp := rfl
@[simp] theorem actuate_ki (s : State) (c : Nat) : (State.actuate s c).ki = s.ki := rfl
@[simp] theorem actuate_kd (s : State) (c : Nat) : (State.actuate s c).kd = s.kd := rfl
@[simp] theorem actuate_integralError (s : State) (c : Nat) : (State.actuate s c).integralError = s.integralError := rfl
@[simp] theorem actuate_lastError (s : State) (c : Nat) : (State.actuate s c).lastError = s.lastError := rfl
@[simp] theorem actuate_lastControlTime (s : State) (c : Nat) : (State.actuate s c).lastControlTime = s.lastControlTime := rfl
@[simp] theorem actuate_lastReportTime (s : State) (c : Nat) : (State.actuate s c).lastReportTime = s.lastReportTime := rfl
@[simp] theorem actuate_rptSample (s : State) (c : Nat) : (State.actuate s c).rptSample = s.rptSample := rfl
@[simp] theorem actuate_rptOutput (s : State) (c : Nat) : (State.actuate s c).rptOutput = s.rptOutput := rfl
@[simp] theorem actuate_cmdState (s : State) (c : Nat) : (State.actuate s c).cmdState = s.cmdState := rfl
@[simp] theorem actuate_len (s : State) (c : Nat) : (State.actuate s c).len = s.len := rfl
@[simp] theorem actuate_buf (s : State) (c : Nat) : (State.actuate s c).buf = s.buf := rfl
@[simp] theorem actuate_actOut (s : State) (c : Nat) : (State.actuate s c).actOut = c := rfl
@[simp] theorem actuate_faults (s : State) (c : Nat) : (State.actuate s c).faults = s.faults := rfl
@[simp] theorem actuate_trace (s : State) (c : Nat) : (State.actuate s c).trace = s.trace := rfl
@[simp] theorem actuate_tx (s : State) (c : Nat) : (State.actuate s c).tx = s.tx := rfl
@[simp] theorem actuate_pidRet (s : State) (c : Nat) : (State.actuate s c).pidRet = s.pidRet := rfl
@[simp] theorem actuate_env (s : State) (c : Nat) : (State.actuate s c).env = s.env := rfl

/-! ### emit -/

@[simp] theorem emit_params (s : State) (r : Report) : (State.emit s r).params = s.params := rfl
@[simp] theorem emit_phase (s : State) (r : Report) : (State.emit s r).phase = s.phase := rfl
@[simp] theorem emit_nowLatch (s : State) (r : Report) : (State.emit s r).nowLatch = s.nowLatch := rfl
@[simp] theorem emit_clk (s : State) (r : Report) : (State.emit s r).clk = s.clk := rfl
@[simp] theorem emit_tickPending (s : State) (r : Report) : (State.emit s r).tickPending = s.tickPending := rfl
@[simp] theorem emit_tickMask (s : State) (r : Report) : (State.emit s r).tickMask = s.tickMask := rfl
@[simp] theorem emit_setpoint (s : State) (r : Report) : (State.emit s r).setpoint = s.setpoint := rfl
@[simp] theorem emit_kp (s : State) (r : Report) : (State.emit s r).kp = s.kp := rfl
@[simp] theorem emit_ki (s : State) (r : Report) : (State.emit s r).ki = s.ki := rfl
@[simp] theorem emit_kd (s : State) (r : Report) : (State.emit s r).kd = s.kd := rfl
@[simp] theorem emit_integralError (s : State) (r : Report) : (State.emit s r).integralError = s.integralError := rfl
@[simp] theorem emit_lastError (s : State) (r : Report) : (State.emit s r).lastError = s.lastError := rfl
@[simp] theorem emit_lastControlTime (s : State) (r : Report) : (State.emit s r).lastControlTime = s.lastControlTime := rfl
@[simp] theorem emit_lastReportTime (s : State) (r : Report) : (State.emit s r).lastReportTime = s.lastReportTime := rfl
@[simp] theorem emit_rptSample (s : State) (r : Report) : (State.emit s r).rptSample = s.rptSample := rfl
@[simp] theorem emit_rptOutput (s : State) (r : Report) : (State.emit s r).rptOutput = s.rptOutput := rfl
@[simp] theorem emit_cmdState (s : State) (r : Report) : (State.emit s r).cmdState = s.cmdState := rfl
@[simp] theorem emit_len (s : State) (r : Report) : (State.emit s r).len = s.len := rfl
@[simp] theorem emit_buf (s : State) (r : Report) : (State.emit s r).buf = s.buf := rfl
@[simp] theorem emit_actOut (s : State) (r : Report) : (State.emit s r).actOut = s.actOut := rfl
@[simp] theorem emit_faults (s : State) (r : Report) : (State.emit s r).faults = s.faults := rfl
@[simp] theorem emit_trace (s : State) (r : Report) : (State.emit s r).trace = s.trace ++ [r] := rfl
@[simp] theorem emit_tx (s : State) (r : Report) : (State.emit s r).tx = s.tx ++ reportLine s.params r := rfl
@[simp] theorem emit_pidRet (s : State) (r : Report) : (State.emit s r).pidRet = s.pidRet := rfl
@[simp] theorem emit_env (s : State) (r : Report) : (State.emit s r).env = s.env := rfl

/-! ### raise -/

@[simp] theorem raise_params (s : State) (k : FaultKind) : (State.raise s k).params = s.params := rfl
@[simp] theorem raise_phase (s : State) (k : FaultKind) : (State.raise s k).phase = s.phase := rfl
@[simp] theorem raise_nowLatch (s : State) (k : FaultKind) : (State.raise s k).nowLatch = s.nowLatch := rfl
@[simp] theorem raise_clk (s : State) (k : FaultKind) : (State.raise s k).clk = s.clk := rfl
@[simp] theorem raise_tickPending (s : State) (k : FaultKind) : (State.raise s k).tickPending = s.tickPending := rfl
@[simp] theorem raise_tickMask (s : State) (k : FaultKind) : (State.raise s k).tickMask = s.tickMask := rfl
@[simp] theorem raise_setpoint (s : State) (k : FaultKind) : (State.raise s k).setpoint = s.setpoint := rfl
@[simp] theorem raise_kp (s : State) (k : FaultKind) : (State.raise s k).kp = s.kp := rfl
@[simp] theorem raise_ki (s : State) (k : FaultKind) : (State.raise s k).ki = s.ki := rfl
@[simp] theorem raise_kd (s : State) (k : FaultKind) : (State.raise s k).kd = s.kd := rfl
@[simp] theorem raise_integralError (s : State) (k : FaultKind) : (State.raise s k).integralError = s.integralError := rfl
@[simp] theorem raise_lastError (s : State) (k : FaultKind) : (State.raise s k).lastError = s.lastError := rfl
@[simp] theorem raise_lastControlTime (s : State) (k : FaultKind) : (State.raise s k).lastControlTime = s.lastControlTime := rfl
@[simp] theorem raise_lastReportTime (s : State) (k : FaultKind) : (State.raise s k).lastReportTime = s.lastReportTime := rfl
@[simp] theorem raise_rptSample (s : State) (k : FaultKind) : (State.raise s k).rptSample = s.rptSample := rfl
@[simp] theorem raise_rptOutput (s : State) (k : FaultKind) : (State.raise s k).rptOutput = s.rptOutput := rfl
@[simp] theorem raise_cmdState (s : State) (k : FaultKind) : (State.raise s k).cmdState = s.cmdState := rfl
@[simp] theorem raise_len (s : State) (k : FaultKind) : (State.raise s k).len = s.len := rfl
@[simp] theorem raise_buf (s : State) (k : FaultKind) : (State.raise s k).buf = s.buf := rfl
@[simp] theorem raise_actOut (s : State) (k : FaultKind) : (State.raise s k).actOut = s.actOut := rfl
@[simp] theorem raise_faults (s : State) (k : FaultKind) : (State.raise s k).faults = if s.faults.contains k then s.faults else s.faults ++ [k] := rfl
@[simp] theorem raise_trace (s : State) (k : FaultKind) : (State.raise s k).trace = s.trace := rfl
@[simp] theorem raise_tx (s : State) (k : FaultKind) : (State.raise s k).tx = s.tx := rfl
@[simp] theorem raise_pidRet (s : State) (k : FaultKind) : (State.raise s k).pidRet = s.pidRet := rfl
@[simp] theorem raise_env (s : State) (k : FaultKind) : (State.raise s k).env = s.env := rfl

/-! ### tickService -/

@[simp] theorem tickService_params (s : State) : (tickService s).params = s.params := rfl
@[simp] theorem tickService_phase (s : State) : (tickService s).phase = s.phase := rfl
@[simp] theorem tickService_nowLatch (s : State) : (tickService s).nowLatch = s.nowLatch := rfl
@[simp] theorem tickService_clk (s : State) : (tickService s).clk = (s.clk + 1) % 2 ^ s.params.clkW := rfl
@[simp] theorem tickService_tickPending (s : State) : (tickService s).tickPending = false := rfl
@[simp] theorem tickService_tickMask (s : State) : (tickService s).tickMask = s.tickMask := rfl
@[simp] theorem tickService_setpoint (s : State) : (tickService s).setpoint = s.setpoint := rfl
@[simp] theorem tickService_kp (s : State) : (tickService s).kp = s.kp := rfl
@[simp] theorem tickService_ki (s : State) : (tickService s).ki = s.ki := rfl
@[simp] theorem tickService_kd (s : State) : (tickService s).kd = s.kd := rfl
@[simp] theorem tickService_integralError (s : State) : (tickService s).integralError = s.integralError := rfl
@[simp] theorem tickService_lastError (s : State) : (tickService s).lastError = s.lastError := rfl
@[simp] theorem tickService_lastControlTime (s : State) : (tickService s).lastControlTime = s.lastControlTime := rfl
@[simp] theorem tickService_lastReportTime (s : State) : (tickService s).lastReportTime = s.lastReportTime := rfl
@[simp] theorem tickService_rptSample (s : State) : (tickService s).rptSample = s.rptSample := rfl
@[simp] theorem tickService_rptOutput (s : State) : (tickService s).rptOutput = s.rptOutput := rfl
@[simp] theorem tickService_cmdState (s : State) : (tickService s).cmdState = s.cmdState := rfl
@[simp] theorem tickService_len (s : State) : (tickService s).len = s.len := rfl
@[simp] theorem tickService_buf (s : State) : (tickService s).buf = s.buf := rfl
@[simp] theorem tickService_actOut (s : State) : (tickService s).actOut = s.actOut := rfl
@[simp] theorem tickService_faults (s : State) : (tickService s).faults = s.faults := rfl
@[simp] theorem tickService_trace (s : State) : (tickService s).trace = s.trace := rfl
@[simp] theorem tickService_tx (s : State) : (tickService s).tx = s.tx := rfl
@[simp] theorem tickService_pidRet (s : State) : (tickService s).pidRet = s.pidRet := rfl
@[simp] theorem tickService_env (s : State) : (tickService s).env = s.env := rfl

/-! ### snapshot -/

@[simp] theorem snapshot_params (s : State) : (snapshot s).params = s.params := rfl
@[simp] theorem snapshot_phase (s : State) : (snapshot s).phase = s.phase := rfl
@[simp] theorem snapshot_nowLatch (s : State) : (snapshot s).nowLatch = s.clk := rfl
@[simp] theorem snapshot_clk (s : State) : (snapshot s).clk = s.clk := rfl
@[simp] theorem snapshot_tickPending (s : State) : (snapshot s).tickPending = s.tickPending := rfl
@[simp] theorem snapshot_tickMask (s : State) : (snapshot s).tickMask = false := rfl
@[simp] theorem snapshot_setpoint (s : State) : (snapshot s).setpoint = s.setpoint := rfl
@[simp] theorem snapshot_kp (s : State) : (snapshot s).kp = s.kp := rfl
@[simp] theorem snapshot_ki (s : State) : (snapshot s).ki = s.ki := rfl
@[simp] theorem snapshot_kd (s : State) : (snapshot s).kd = s.kd := rfl
@[simp] theorem snapshot_integralError (s : State) : (snapshot s).integralError = s.integralError := rfl
@[simp] theorem snapshot_lastError (s : State) : (snapshot s).lastError = s.lastError := rfl
@[simp] theorem snapshot_lastControlTime (s : State) : (snapshot s).lastControlTime = s.lastControlTime := rfl
@[simp] theorem snapshot_lastReportTime (s : State) : (snapshot s).lastReportTime = s.lastReportTime := rfl
@[simp] theorem snapshot_rptSample (s : State) : (snapshot s).rptSample = s.rptSample := rfl
@[simp] theorem snapshot_rptOutput (s : State) : (snapshot s).rptOutput = s.rptOutput := rfl
@[simp] theorem snapshot_cmdState (s : State) : (snapshot s).cmdState = s.cmdState := rfl
@[simp] theorem snapshot_len (s : State) : (snapshot s).len = s.len := rfl
@[simp] theorem snapshot_buf (s : State) : (snapshot s).buf = s.buf := rfl
@[simp] theorem snapshot_actOut (s : State) : (snapshot s).actOut = s.actOut := rfl
@[simp] theorem snapshot_faults (s : State) : (snapshot s).faults = s.faults := rfl
@[simp] theorem snapshot_trace (s : State) : (snapshot s).trace = s.trace := rfl
@[simp] theorem snapshot_tx (s : State) : (snapshot s).tx = s.tx := rfl
@[simp] theorem snapshot_pidRet (s : State) : (snapshot s).pidRet = s.pidRet := rfl
@[simp] theorem snapshot_env (s : State) : (snapshot s).env = s.env := rfl

/-! ### pidWrite -/

@[simp] theorem pidWrite_params (s : State) (r : PidResult) : (pidWrite s r).params = s.params := rfl
@[simp] theorem pidWrite_phase (s : State) (r : PidResult) : (pidWrite s r).phase = s.phase := rfl
@[simp] theorem pidWrite_nowLatch (s : State) (r : PidResult) : (pidWrite s r).nowLatch = s.nowLatch := rfl
@[simp] theorem pidWrite_clk (s : State) (r : PidResult) : (pidWrite s r).clk = s.clk := rfl
@[simp] theorem pidWrite_tickPending (s : State) (r : PidResult) : (pidWrite s r).tickPending = s.tickPending := rfl
@[simp] theorem pidWrite_tickMask (s : State) (r : PidResult) : (pidWrite s r).tickMask = s.tickMask := rfl
@[simp] theorem pidWrite_setpoint (s : State) (r : PidResult) : (pidWrite s r).setpoint = s.setpoint := rfl
@[simp] theorem pidWrite_kp (s : State) (r : PidResult) : (pidWrite s r).kp = s.kp := rfl
@[simp] theorem pidWrite_ki (s : State) (r : PidResult) : (pidWrite s r).ki = s.ki := rfl
@[simp] theorem pidWrite_kd (s : State) (r : PidResult) : (pidWrite s r).kd = s.kd := rfl
@[simp] theorem pidWrite_integralError (s : State) (r : PidResult) : (pidWrite s r).integralError = r.integralError := rfl
@[simp] theorem pidWrite_lastError (s : State) (r : PidResult) : (pidWrite s r).lastError = r.lastError := rfl
@[simp] theorem pidWrite_lastControlTime (s : State) (r : PidResult) : (pidWrite s r).lastControlTime = s.lastControlTime := rfl
@[simp] theorem pidWrite_lastReportTime (s : State) (r : PidResult) : (pidWrite s r).lastReportTime = s.lastReportTime := rfl
@[simp] theorem pidWrite_rptSample (s : State) (r : PidResult) : (pidWrite s r).rptSample = s.rptSample := rfl
@[simp] theorem pidWrite_rptOutput (s : State) (r : PidResult) : (pidWrite s r).rptOutput = s.rptOutput := rfl
@[simp] theorem pidWrite_cmdState (s : State) (r : PidResult) : (pidWrite s r).cmdState = s.cmdState := rfl
@[simp] theorem pidWrite_len (s : State) (r : PidResult) : (pidWrite s r).len = s.len := rfl
@[simp] theorem pidWrite_buf (s : State) (r : PidResult) : (pidWrite s r).buf = s.buf := rfl
@[simp] theorem pidWrite_actOut (s : State) (r : PidResult) : (pidWrite s r).actOut = s.actOut := rfl
@[simp] theorem pidWrite_faults (s : State) (r : PidResult) : (pidWrite s r).faults = s.faults := rfl
@[simp] theorem pidWrite_trace (s : State) (r : PidResult) : (pidWrite s r).trace = s.trace := rfl
@[simp] theorem pidWrite_tx (s : State) (r : PidResult) : (pidWrite s r).tx = s.tx := rfl
@[simp] theorem pidWrite_pidRet (s : State) (r : PidResult) : (pidWrite s r).pidRet = r.out := rfl
@[simp] theorem pidWrite_env (s : State) (r : PidResult) : (pidWrite s r).env = s.env := rfl

/-! ### ctrlWrite -/

@[simp] theorem ctrlWrite_params (n : Nat) (s : State) : (ctrlWrite n s).params = s.params := rfl
@[simp] theorem ctrlWrite_phase (n : Nat) (s : State) : (ctrlWrite n s).phase = s.phase := rfl
@[simp] theorem ctrlWrite_nowLatch (n : Nat) (s : State) : (ctrlWrite n s).nowLatch = s.nowLatch := rfl
@[simp] theorem ctrlWrite_clk (n : Nat) (s : State) : (ctrlWrite n s).clk = s.clk := rfl
@[simp] theorem ctrlWrite_tickPending (n : Nat) (s : State) : (ctrlWrite n s).tickPending = s.tickPending := rfl
@[simp] theorem ctrlWrite_tickMask (n : Nat) (s : State) : (ctrlWrite n s).tickMask = s.tickMask := rfl
@[simp] theorem ctrlWrite_setpoint (n : Nat) (s : State) : (ctrlWrite n s).setpoint = s.setpoint := rfl
@[simp] theorem ctrlWrite_kp (n : Nat) (s : State) : (ctrlWrite n s).kp = s.kp := rfl
@[simp] theorem ctrlWrite_ki (n : Nat) (s : State) : (ctrlWrite n s).ki = s.ki := rfl
@[simp] theorem ctrlWrite_kd (n : Nat) (s : State) : (ctrlWrite n s).kd = s.kd := rfl
@[simp] theorem ctrlWrite_integralError (n : Nat) (s : State) : (ctrlWrite n s).integralError = s.integralError := rfl
@[simp] theorem ctrlWrite_lastError (n : Nat) (s : State) : (ctrlWrite n s).lastError = s.lastError := rfl
@[simp] theorem ctrlWrite_lastControlTime (n : Nat) (s : State) : (ctrlWrite n s).lastControlTime = s.nowLatch := rfl
@[simp] theorem ctrlWrite_lastReportTime (n : Nat) (s : State) : (ctrlWrite n s).lastReportTime = s.lastReportTime := rfl
@[simp] theorem ctrlWrite_rptSample (n : Nat) (s : State) : (ctrlWrite n s).rptSample = n := rfl
@[simp] theorem ctrlWrite_rptOutput (n : Nat) (s : State) : (ctrlWrite n s).rptOutput = s.pidRet := rfl
@[simp] theorem ctrlWrite_cmdState (n : Nat) (s : State) : (ctrlWrite n s).cmdState = s.cmdState := rfl
@[simp] theorem ctrlWrite_len (n : Nat) (s : State) : (ctrlWrite n s).len = s.len := rfl
@[simp] theorem ctrlWrite_buf (n : Nat) (s : State) : (ctrlWrite n s).buf = s.buf := rfl
@[simp] theorem ctrlWrite_actOut (n : Nat) (s : State) : (ctrlWrite n s).actOut = s.pidRet := rfl
@[simp] theorem ctrlWrite_faults (n : Nat) (s : State) : (ctrlWrite n s).faults = s.faults := rfl
@[simp] theorem ctrlWrite_trace (n : Nat) (s : State) : (ctrlWrite n s).trace = s.trace := rfl
@[simp] theorem ctrlWrite_tx (n : Nat) (s : State) : (ctrlWrite n s).tx = s.tx := rfl
@[simp] theorem ctrlWrite_pidRet (n : Nat) (s : State) : (ctrlWrite n s).pidRet = s.pidRet := rfl
@[simp] theorem ctrlWrite_env (n : Nat) (s : State) : (ctrlWrite n s).env = s.env := rfl

/-! ### reportWrite -/

@[simp] theorem reportWrite_params (n : Nat) (s : State) : (reportWrite n s).params = s.params := rfl
@[simp] theorem reportWrite_phase (n : Nat) (s : State) : (reportWrite n s).phase = s.phase := rfl
@[simp] theorem reportWrite_nowLatch (n : Nat) (s : State) : (reportWrite n s).nowLatch = s.nowLatch := rfl
@[simp] theorem reportWrite_clk (n : Nat) (s : State) : (reportWrite n s).clk = s.clk := rfl
@[simp] theorem reportWrite_tickPending (n : Nat) (s : State) : (reportWrite n s).tickPending = s.tickPending := rfl
@[simp] theorem reportWrite_tickMask (n : Nat) (s : State) : (reportWrite n s).tickMask = s.tickMask := rfl
@[simp] theorem reportWrite_setpoint (n : Nat) (s : State) : (reportWrite n s).setpoint = s.setpoint := rfl
@[simp] theorem reportWrite_kp (n : Nat) (s : State) : (reportWrite n s).kp = s.kp := rfl
@[simp] theorem reportWrite_ki (n : Nat) (s : State) : (reportWrite n s).ki = s.ki := rfl
@[simp] theorem reportWrite_kd (n : Nat) (s : State) : (reportWrite n s).kd = s.kd := rfl
@[simp] theorem reportWrite_integralError (n : Nat) (s : State) : (reportWrite n s).integralError = s.integralError := rfl
@[simp] theorem reportWrite_lastError (n : Nat) (s : State) : (reportWrite n s).lastError = s.lastError := rfl
@[simp] theorem reportWrite_lastControlTime (n : Nat) (s : State) : (reportWrite n s).lastControlTime = s.lastControlTime := rfl
@[simp] theorem reportWrite_lastReportTime (n : Nat) (s : State) : (reportWrite n s).lastReportTime = s.nowLatch := rfl
@[simp] theorem reportWrite_rptSample (n : Nat) (s : State) : (reportWrite n s).rptSample = s.rptSample := rfl
@[simp] theorem reportWrite_rptOutput (n : Nat) (s : State) : (reportWrite n s).rptOutput = s.rptOutput := rfl
@[simp] theorem reportWrite_cmdState (n : Nat) (s : State) : (reportWrite n s).cmdState = s.cmdState := rfl
@[simp] theorem reportWrite_len (n : Nat) (s : State) : (reportWrite n s).len = s.len := rfl
@[simp] theorem reportWrite_buf (n : Nat) (s : State) : (reportWrite n s).buf = s.buf := rfl
@[simp] theorem reportWrite_actOut (n : Nat) (s : State) : (reportWrite n s).actOut = s.actOut := rfl
@[simp] theorem reportWrite_faults (n : Nat) (s : State) : (reportWrite n s).faults = s.faults := rfl
@[simp] theorem reportWrite_trace (n : Nat) (s : State) : (reportWrite n s).trace = s.trace ++ [⟨s.nowLatch, n, s.rptOutput⟩] := rfl
@[simp] theorem reportWrite_tx (n : Nat) (s : State) : (reportWrite n s).tx = s.tx ++ reportLine s.params ⟨s.nowLatch, n, s.rptOutput⟩ := rfl
@[simp] theorem reportWrite_pidRet (n : Nat) (s : State) : (reportWrite n s).pidRet = s.pidRet := rfl
@[simp] theorem reportWrite_env (n : Nat) (s : State) : (reportWrite n s).env = s.env := rfl

end Sys2Proof.Machine
end

