-- ==== Sys2Proof/Laws/Ops.lean ====
section
/-! SUPPORT. What each shared operation can do, said once: the frame of an operation, the draws, the command
buffer, the parts of POLL, COMMIT, CTRL and RPT. -/

namespace Sys2Proof.Machine

open Sys2Proof

variable {s t u : State} {r : Result} {e : Effect}

/-! ### The frame of an operation -/

/-- A gated operation answers a next state exactly in a legal, unfaulted state where it is enabled. -/
theorem gate_eq_next {en : Bool} :
    gate s en r = .next t ↔ s.params.legal = true ∧ s.faults = [] ∧ en = true ∧ r = .next t := by
  unfold gate
  by_cases hl : s.params.legal = true <;> by_cases hf : s.faults = [] <;> cases en <;> simp [hl, hf]

/-- In a legal, unfaulted state an enabled operation is its result. -/
theorem gate_enabled {en : Bool} (hl : s.params.legal = true) (hf : s.faults = []) (he : en = true) :
    gate s en r = r := by
  simp [gate, hl, hf, he]

/-- A quiescent block runs no operation (R112). -/
theorem gate_faulted {en : Bool} (hl : s.params.legal = true) (hf : s.faults ≠ []) :
    gate s en r = .fault .nonfinite := by
  simp [gate, hl, hf]

/-- An illegal configuration has no operation (R6). -/
theorem gate_illegal {en : Bool} (hl : s.params.legal = false) : gate s en r = .refused .illegalParams := by
  simp [gate, hl]

/-- The one fault raised in an unfaulted state. -/
theorem raise_of_noFault (hf : s.faults = []) : s.raise .nonfinite = { s with faults := [.nonfinite] } := by
  simp [State.raise, hf]

/-- An effect settles to a next state either as its own state or as a raised fault. -/
theorem settle_eq_next :
    settle s e = .next t ↔ e = .ok t ∨ ∃ k, e = .error (.raise k) ∧ s.raise k = t := by
  rcases e with (k | f | r) | u
  · constructor
    · intro h; exact .inr ⟨k, rfl, by simpa [settle] using h⟩
    · rintro (h | ⟨j, h, rfl⟩)
      · simp at h
      · cases h; rfl
  all_goals simp [settle]

@[simp] theorem settle_ok : settle s (.ok t) = .next t := rfl
@[simp] theorem settle_raise (k : FaultKind) : settle s (.error (.raise k)) = .next (s.raise k) := rfl
@[simp] theorem settle_fault (f : Fault) : settle s (.error (.fault f)) = .fault f := rfl
@[simp] theorem settle_refuse (x : Refusal) : settle s (.error (.refuse x)) = .refused x := rfl

@[simp] theorem thenPhase_ok (ph : Phase) : thenPhase (.ok t) ph = .ok (t.toPhase ph) := rfl
@[simp] theorem thenPhase_error (x : Stop) (ph : Phase) : thenPhase (.error x) ph = .error x := rfl

/-- An effect followed by a phase change succeeds where the effect does. -/
theorem thenPhase_eq_ok {ph : Phase} : thenPhase e ph = .ok t ↔ ∃ u, e = .ok u ∧ u.toPhase ph = t := by
  rcases e with x | u <;> simp

/-- An effect followed by a phase change stops as the effect does. -/
theorem thenPhase_eq_error {ph : Phase} {x : Stop} : thenPhase e ph = .error x ↔ e = .error x := by
  rcases e with y | u <;> simp

/-- What a byte row can answer as a next state. -/
theorem pollRow_eq_next {place : Bool} {rx : Option Byte} {f : State → Effect} :
    pollRow s place rx f = .next t ↔
      s.params.legal = true ∧ s.faults = [] ∧ s.phase = .poll ∧ place = true ∧ s.rxNext = rx ∧
        ((∃ u, f s.takeRx = .ok u ∧ u.toPhase .snap = t) ∨
          ∃ k, f s.takeRx = .error (.raise k) ∧ s.takeRx.raise k = t) := by
  simp [pollRow, gate_eq_next, settle_eq_next, thenPhase_eq_ok, thenPhase_eq_error, and_assoc]

/-- An enabled byte row is its effect after the byte is consumed, then phase SNAP. -/
theorem pollRow_enabled {place : Bool} {rx : Option Byte} {f : State → Effect} (hl : s.params.legal = true)
    (hf : s.faults = []) (hp : s.phase = .poll) (hc : place = true) (hr : s.rxNext = rx) :
    pollRow s place rx f = settle s.takeRx (thenPhase (f s.takeRx) .snap) :=
  gate_enabled hl hf (by simp [hp, hc, hr])

/-! ### Samples -/

theorem checkSample_eq_ok {p : Params} {n : Nat} {x : Unit} : checkSample p n = .ok x ↔ n ≤ p.sensorMax := by
  unfold checkSample; split <;> simp_all

theorem checkSample_eq_error {p : Params} {n : Nat} {x : Stop} :
    checkSample p n = .error x ↔ p.sensorMax < n ∧ x = .refuse .environmentBreach := by
  unfold checkSample
  split
  · simp; omega
  · simp only [Except.error.injEq, eq_comm, iff_and_self]; intro _; omega

/-! ### The command buffer -/

theorem memory_read_write_same (m : List Host.Cell) (a : Nat) (b : Byte) :
    Memory.read (Memory.write m a b) a = some b := by
  induction m with
  | nil => simp [Memory.write, Memory.read]
  | cons c m ih =>
    obtain ⟨k, v⟩ := c
    simp only [Memory.write]
    split
    · simp [Memory.read]
    · split
      · simp [Memory.read]
      · simp only [Memory.read, ih, ite_eq_right_iff]; omega

theorem memory_read_write_other (m : List Host.Cell) {a i : Nat} (b : Byte) (h : i ≠ a) :
    Memory.read (Memory.write m a b) i = Memory.read m i := by
  induction m with
  | nil => simp [Memory.write, Memory.read, Ne.symm h]
  | cons c m ih =>
    obtain ⟨k, v⟩ := c
    simp only [Memory.write]
    split
    · simp [Memory.read, Ne.symm h]
    · split
      · subst a; simp [Memory.read, Ne.symm h]
      · simp [Memory.read, ih]

/-- A write adds no address but its own. -/
theorem memory_write_mem {m : List Host.Cell} {a : Nat} {b : Byte} {c : Host.Cell}
    (h : c ∈ Memory.write m a b) : c = (a, b) ∨ c ∈ m := by
  induction m with
  | nil => simpa [Memory.write] using h
  | cons d m ih =>
    obtain ⟨k, v⟩ := d
    simp only [Memory.write] at h
    split at h
    · simpa using h
    · split at h
      · rcases List.mem_cons.1 h with h | h <;> simp [h]
      · rcases List.mem_cons.1 h with h | h
        · simp [h]
        · rcases ih h with h | h <;> simp [h]

/-- The canonical form says that every address is below the ones after it. -/
theorem memory_wf_cons {k : Nat} {v : Byte} {m : List Host.Cell} :
    Memory.wf ((k, v) :: m) = true ↔ (∀ c ∈ m, k < c.1) ∧ Memory.wf m = true := by
  induction m generalizing k v with
  | nil => simp [Memory.wf]
  | cons c m ih =>
    obtain ⟨j, w⟩ := c
    simp only [Memory.wf, Bool.and_eq_true, decide_eq_true_eq, ih, List.mem_cons, forall_eq_or_imp]
    constructor
    · rintro ⟨h, hj, hm⟩
      exact ⟨⟨h, fun c hc => h.trans (hj c hc)⟩, hj, hm⟩
    · rintro ⟨⟨h, -⟩, hj, hm⟩
      exact ⟨h, hj, hm⟩

/-- The only write to memory keeps its canonical form. -/
theorem memory_write_wf {m : List Host.Cell} (a : Nat) (b : Byte) (h : Memory.wf m = true) :
    Memory.wf (Memory.write m a b) = true := by
  induction m with
  | nil => simp [Memory.write, Memory.wf]
  | cons c m ih =>
    obtain ⟨k, v⟩ := c
    have ⟨hk, hm⟩ := memory_wf_cons.1 h
    simp only [Memory.write]
    split
    · rename_i hlt
      refine memory_wf_cons.2 ⟨fun c hc => ?_, h⟩
      rcases List.mem_cons.1 hc with rfl | hc
      · exact hlt
      · exact hlt.trans (hk c hc)
    · split
      · rename_i heq
        subst heq
        exact memory_wf_cons.2 ⟨hk, hm⟩
      · refine memory_wf_cons.2 ⟨fun c hc => ?_, ih hm⟩
        rcases memory_write_mem hc with rfl | hc
        · simp only; omega
        · exact hk c hc

/-- Reset's memory has the canonical form. -/
theorem resetOf_buf_wf (p : Params) : Memory.wf (State.resetOf p).buf = true := rfl

theorem bufRead_eq_ok {i : Nat} {b : Byte} :
    bufRead s i = .ok b ↔ i < s.len ∧ Memory.read s.buf i = some b := by
  unfold bufRead
  split
  · cases h : Memory.read s.buf i <;> simp_all
  · simp_all

theorem bufRead_eq_error {i : Nat} {x : Stop} (h : bufRead s i = .error x) : x = .fault .noValueInByte := by
  unfold bufRead at h
  split at h
  · split at h <;> simp_all
  · simp_all

theorem bufReads_eq_error {i n : Nat} {x : Stop} (h : bufReads s i n = .error x) : x = .fault .noValueInByte := by
  induction n generalizing i with
  | zero => simp [bufReads] at h
  | succ n ih =>
    simp only [bufReads] at h
    split at h
    · rename_i y hy
      obtain rfl : y = x := by simpa using h
      exact bufRead_eq_error hy
    · split at h
      · rename_i y hy
        obtain rfl : y = x := by simpa using h
        exact ih hy
      · simp at h

/-- A read of n bytes gives n bytes, each the byte of its index. -/
theorem bufReads_eq_ok {i n : Nat} {l : List Byte} (h : bufReads s i n = .ok l) :
    l.length = n ∧ ∀ k < n, bufRead s (i + k) = .ok (l.getD k 0) := by
  induction n generalizing i l with
  | zero =>
    obtain rfl : [] = l := by simpa [bufReads] using h
    simp
  | succ n ih =>
    simp only [bufReads] at h
    split at h
    · simp at h
    · rename_i b hb
      split at h
      · simp at h
      · rename_i l' hl
        obtain rfl : b :: l' = l := by simpa using h
        obtain ⟨hn, hk⟩ := ih hl
        refine ⟨by simp [hn], fun k hlt => ?_⟩
        cases k with
        | zero => simpa using hb
        | succ k => simpa [Nat.add_comm, Nat.add_left_comm] using hk k (by omega)

/-- Bytes that have values are read. -/
theorem bufReads_of_values {i n : Nat} (h : ∀ k < n, i + k < s.len ∧ (Memory.read s.buf (i + k)).isSome = true) :
    ∃ l, bufReads s i n = .ok l := by
  induction n generalizing i with
  | zero => exact ⟨[], rfl⟩
  | succ n ih =>
    obtain ⟨hlen, hval⟩ := h 0 (by omega)
    obtain ⟨b, hb⟩ := Option.isSome_iff_exists.1 hval
    obtain ⟨l, hl⟩ := ih (i := i + 1) fun k hk => by
      have := h (k + 1) (by omega)
      rwa [show i + (k + 1) = i + 1 + k by omega] at this
    have hr : bufRead s i = .ok b := bufRead_eq_ok.2 ⟨hlen, hb⟩
    exact ⟨b :: l, by simp only [bufReads, hr, hl]⟩

theorem bufWrite_eq_ok {i : Nat} {b : Byte} :
    bufWrite s i b = .ok t ↔ i < s.params.bufCap ∧ { s with buf := Memory.write s.buf i b } = t := by
  unfold bufWrite; split <;> simp_all

theorem bufWrite_eq_error {i : Nat} {b : Byte} {x : Stop} :
    bufWrite s i b = .error x ↔ s.params.bufCap ≤ i ∧ .fault .noSuchByte = x := by
  unfold bufWrite
  split
  · simp; omega
  · rename_i h; simp [Nat.le_of_not_lt h]

/-! ### Parts of POLL -/

theorem beginLine_eq_ok {b : Byte} :
    beginLine b s = .ok t ↔
      0 < s.params.bufCap ∧ { s with buf := Memory.write s.buf 0 b, len := 1, cmdState := .collecting } = t := by
  unfold beginLine bufWrite
  by_cases h : 0 < s.params.bufCap <;> simp [h]

theorem beginLine_eq_error {b : Byte} {x : Stop} (h : beginLine b s = .error x) : x = .fault .noSuchByte := by
  unfold beginLine bufWrite at h
  split at h
  · simp at h
  · rename_i heq; split at heq <;> simp_all

theorem storeByte_eq_ok {b : Byte} :
    storeByte b s = .ok t ↔
      s.len < s.params.bufCap ∧ { s with buf := Memory.write s.buf s.len b, len := s.len + 1 } = t := by
  unfold storeByte bufWrite
  by_cases h : s.len < s.params.bufCap <;> simp [h]

theorem storeByte_eq_error {b : Byte} {x : Stop} (h : storeByte b s = .error x) : x = .fault .noSuchByte := by
  unfold storeByte bufWrite at h
  split at h
  · simp at h
  · rename_i heq; split at heq <;> simp_all

/-- A line's value: its text read and converted without overflow. -/
theorem lineValue_eq_ok {v : NumVal} :
    lineValue s = .ok v ↔ ∃ l, lineText s = .ok l ∧ textValue s.params l = some v := by
  unfold lineValue
  rcases lineText s with x | l
  · simp
  · cases h : textValue s.params l <;> simp [h]

/-- A line's value stops on a byte without a value, or raises NONFINITE where the text overflows. -/
theorem lineValue_eq_error {x : Stop} (h : lineValue s = .error x) :
    x = .fault .noValueInByte ∨
      (x = .raise .nonfinite ∧ ∃ l, lineText s = .ok l ∧ textValue s.params l = none) := by
  unfold lineValue at h
  split at h
  · rename_i y hy
    obtain rfl : y = x := by simpa using h
    exact .inl (bufReads_eq_error hy)
  · rename_i l hl
    split at h
    · simp at h
    · rename_i hv
      exact .inr ⟨by simpa using h.symm, l, hl, hv⟩

theorem applyValue_eq_ok {w : NumVal → State} :
    applyValue s w = .ok t ↔ ∃ v, lineValue s = .ok v ∧ w v = t := by
  unfold applyValue; rcases lineValue s with x | v <;> simp

theorem applyValue_eq_error {w : NumVal → State} {x : Stop} :
    applyValue s w = .error x ↔ lineValue s = .error x := by
  unfold applyValue; rcases lineValue s with y | v <;> simp

/-- What APPLY can do: one register takes the line's value, or nothing changes (R87 to R92). -/
theorem applyTag_eq_ok {tag : Byte} (h : applyTag tag s = .ok t) :
    (∃ v, lineValue s = .ok v ∧
      ((tag = byteS ∧ t = { s with setpoint := setpointOf s.params v }) ∨ (tag = byteP ∧ t = { s with kp := v }) ∨
        (tag = byteI ∧ t = { s with ki := v }) ∨ (tag = byteD ∧ t = { s with kd := v }))) ∨
      (isCommandTag tag = false ∧ t = s) := by
  unfold applyTag at h
  split at h
  · obtain ⟨v, hv, rfl⟩ := applyValue_eq_ok.1 h; simp_all
  · split at h
    · obtain ⟨v, hv, rfl⟩ := applyValue_eq_ok.1 h; simp_all
    · split at h
      · obtain ⟨v, hv, rfl⟩ := applyValue_eq_ok.1 h; simp_all
      · split at h
        · obtain ⟨v, hv, rfl⟩ := applyValue_eq_ok.1 h; simp_all
        · obtain rfl : s = t := by simpa [applyOther] using h
          simp_all [isCommandTag]

/-- APPLY stops only as the line's value does. -/
theorem applyTag_eq_error {tag : Byte} {x : Stop} (h : applyTag tag s = .error x) : lineValue s = .error x := by
  unfold applyTag at h
  repeat' split at h
  all_goals first | exact applyValue_eq_error.1 h | simp [applyOther] at h

/-- A commit applies the line under its tag and clears the line state (R86). -/
theorem commitLine_eq_ok :
    commitLine s = .ok t ↔ ∃ tag u, bufRead s 0 = .ok tag ∧ applyTag tag s = .ok u ∧ u.clearLine = t := by
  unfold commitLine
  rcases bufRead s 0 with x | tag
  · simp
  · rcases h : applyTag tag s with x | u <;> simp [h]

/-- A commit stops on a byte without a value, or raises NONFINITE where the text of a recognised tag overflows. -/
theorem commitLine_eq_error {x : Stop} (h : commitLine s = .error x) :
    x = .fault .noValueInByte ∨
      (x = .raise .nonfinite ∧ ∃ l, lineText s = .ok l ∧ textValue s.params l = none) := by
  unfold commitLine at h
  split at h
  · rename_i y hy
    obtain rfl : y = x := by simpa using h
    exact .inl (bufRead_eq_error hy)
  · split at h
    · rename_i y hy
      obtain rfl : y = x := by simpa using h
      exact lineValue_eq_error (applyTag_eq_error hy)
    · simp at h

/-! ### Parts of CTRL and RPT -/

/-- PID_STEP on a sample in range writes its result back. -/
theorem pidStepEffect_eq_ok {n : Nat} :
    pidStepEffect n s = .ok t ↔ n ≤ s.params.sensorMax ∧ ∃ x, pidOf s n = some x ∧ pidWrite s x = t := by
  unfold pidStepEffect
  rcases h : checkSample s.params n with x | x
  · have := (checkSample_eq_error.1 h).1
    simp; omega
  · have := checkSample_eq_ok.1 h
    cases hp : pidOf s n <;> simp [runPid, hp, this]

/-- PID_STEP stops on a sample out of range, or raises NONFINITE where a rounding overflows. -/
theorem pidStepEffect_eq_error {n : Nat} {x : Stop} :
    pidStepEffect n s = .error x ↔
      (s.params.sensorMax < n ∧ x = .refuse .environmentBreach) ∨
        (n ≤ s.params.sensorMax ∧ pidOf s n = none ∧ x = .raise .nonfinite) := by
  unfold pidStepEffect
  rcases h : checkSample s.params n with y | y
  · obtain ⟨h1, rfl⟩ := checkSample_eq_error.1 h
    have : ¬ n ≤ s.params.sensorMax := by omega
    simp [h1, this, eq_comm]
  · have h1 := checkSample_eq_ok.1 h
    have : ¬ s.params.sensorMax < n := by omega
    cases hp : pidOf s n <;> simp [runPid, hp, h1, this, eq_comm]

/-- The body of CTRL: PID_STEP on the sample drawn, then CTRL's own writes. -/
theorem controlStep_eq_ok :
    controlStep s = .ok t ↔ s.adcNext ≤ s.params.sensorMax ∧
      ∃ x, pidOf s s.adcNext = some x ∧ ctrlWrite s.adcNext (pidWrite s.takeAdc x) = t := by
  unfold controlStep
  rcases h : pidStepEffect s.adcNext s.takeAdc with x | u
  · rcases pidStepEffect_eq_error.1 h with ⟨h1, rfl⟩ | ⟨h1, h2, rfl⟩
    · have : ¬ s.adcNext ≤ s.params.sensorMax := by simpa using h1
      simp [this]
    · have : pidOf s s.adcNext = none := h2
      simp [this]
  · obtain ⟨h1, x, h2, rfl⟩ := pidStepEffect_eq_ok.1 h
    have h2' : pidOf s s.adcNext = some x := h2
    have h1' : s.adcNext ≤ s.params.sensorMax := h1
    simp [h2', h1']

theorem controlStep_eq_error {x : Stop} :
    controlStep s = .error x ↔ pidStepEffect s.adcNext s.takeAdc = .error x := by
  unfold controlStep
  rcases pidStepEffect s.adcNext s.takeAdc with y | u <;> simp

/-- The body of RPT: the report of the latched sample, or of a fresh one in range. -/
theorem reportStep_eq_ok :
    reportStep s = .ok t ↔
      (s.params.reportSrc = .latched ∧ reportWrite s.rptSample s = t) ∨
        (s.params.reportSrc = .fresh ∧ s.adcNext ≤ s.params.sensorMax ∧
          reportWrite s.adcNext s.takeAdc = t) := by
  unfold reportStep
  cases s.params.reportSrc
  · simp
  · rcases h : checkSample s.params s.adcNext with x | x
    · have := (checkSample_eq_error.1 h).1
      simp; omega
    · simp [checkSample_eq_ok.1 h]

/-- RPT stops only on a fresh sample out of range. -/
theorem reportStep_eq_error {x : Stop} (h : reportStep s = .error x) :
    x = .refuse .environmentBreach ∧ s.params.reportSrc = .fresh ∧ s.params.sensorMax < s.adcNext := by
  unfold reportStep at h
  split at h
  · simp at h
  · rename_i hs
    split at h
    · rename_i y hy
      obtain rfl : y = x := by simpa using h
      obtain ⟨h1, rfl⟩ := checkSample_eq_error.1 hy
      exact ⟨rfl, hs, h1⟩
    · simp at h

end Sys2Proof.Machine
end

