-- ==== Sys2Proof/Laws/Exec.lean ====
section
/-! SUPPORT. What each operation can answer as a next state, said once per constructor. -/

namespace Sys2Proof.Machine

open Sys2Proof

variable {s t : State}

/-- The enabling of an operation, as its gate asks it. -/
abbrev ranIn (s : State) : Prop := s.params.legal = true ∧ s.faults = []

theorem exec_rxNone_eq_next :
    exec .rxNone s = .next t ↔ ranIn s ∧ s.phase = .poll ∧ s.rxNext = none ∧ s.takeRx.toPhase .snap = t := by
  simp [exec, execRxNone, pollRow_eq_next, and_assoc]

theorem exec_discardLf_eq_next :
    exec .discardLf s = .next t ↔ ranIn s ∧ s.phase = .poll ∧ s.cmdState = .idle ∧ s.rxNext = some byteLF ∧
      s.takeRx.toPhase .snap = t := by
  simp [exec, execDiscardLf, pollRow_eq_next, and_assoc]

theorem exec_discardCr_eq_next :
    exec .discardCr s = .next t ↔ ranIn s ∧ s.phase = .poll ∧ s.cmdState = .idle ∧ s.rxNext = some byteCR ∧
      s.takeRx.toPhase .snap = t := by
  simp [exec, execDiscardCr, pollRow_eq_next, and_assoc]

theorem exec_tag_eq_next {b : Byte} :
    exec (.tag b) s = .next t ↔ ranIn s ∧ s.phase = .poll ∧ s.cmdState = .idle ∧ isTerminator b = false ∧
      s.rxNext = some b ∧ 0 < s.params.bufCap ∧
      ({ s.takeRx with buf := Memory.write s.buf 0 b, len := 1, cmdState := .collecting } : State).toPhase .snap =
        t := by
  simp only [exec, execTag, pollRow_eq_next, beginLine_eq_ok, takeRx_params, takeRx_buf, Bool.and_eq_true,
    beq_iff_eq, Bool.not_eq_true', and_assoc]
  constructor
  · rintro ⟨hl, hf, hp, hc, ht, hr, ⟨u, hb, rfl, rfl⟩ | ⟨k, hk, -⟩⟩
    · exact ⟨hl, hf, hp, hc, ht, hr, hb, rfl⟩
    · cases beginLine_eq_error hk
  · rintro ⟨hl, hf, hp, hc, ht, hr, hb, rfl⟩
    exact ⟨hl, hf, hp, hc, ht, hr, .inl ⟨_, hb, rfl, rfl⟩⟩

theorem exec_store_eq_next {b : Byte} :
    exec (.store b) s = .next t ↔ ranIn s ∧ s.phase = .poll ∧ s.cmdState = .collecting ∧
      s.len < s.params.bufCap ∧ isTerminator b = false ∧ s.rxNext = some b ∧
      ({ s.takeRx with buf := Memory.write s.buf s.len b, len := s.len + 1 } : State).toPhase .snap = t := by
  simp only [exec, execStore, pollRow_eq_next, storeByte_eq_ok, takeRx_params, takeRx_buf, takeRx_len,
    Bool.and_eq_true, beq_iff_eq, decide_eq_true_eq, Bool.not_eq_true', and_assoc]
  constructor
  · rintro ⟨hl, hf, hp, hc, hb, ht, hr, ⟨u, -, rfl, rfl⟩ | ⟨k, hk, -⟩⟩
    · exact ⟨hl, hf, hp, hc, hb, ht, hr, rfl⟩
    · cases storeByte_eq_error hk
  · rintro ⟨hl, hf, hp, hc, hb, ht, hr, rfl⟩
    exact ⟨hl, hf, hp, hc, hb, ht, hr, .inl ⟨_, hb, rfl, rfl⟩⟩

theorem exec_drop_eq_next {b : Byte} :
    exec (.drop b) s = .next t ↔ ranIn s ∧ s.phase = .poll ∧ s.cmdState = .collecting ∧
      s.params.bufCap ≤ s.len ∧ isTerminator b = false ∧ s.rxNext = some b ∧ s.takeRx.toPhase .snap = t := by
  simp [exec, execDrop, pollRow_eq_next, and_assoc]

/-- What a commit step does after its byte is consumed. -/
abbrev CommitAnswers (s t : State) : Prop :=
  (∃ tag u, bufRead s.takeRx 0 = .ok tag ∧ applyTag tag s.takeRx = .ok u ∧ u.clearLine.toPhase .snap = t) ∨
    (commitLine s.takeRx = .error (.raise .nonfinite) ∧ s.takeRx.raise .nonfinite = t)

theorem commit_answers :
    ((∃ u, commitLine s.takeRx = .ok u ∧ u.toPhase .snap = t) ∨
      ∃ k, commitLine s.takeRx = .error (.raise k) ∧ s.takeRx.raise k = t) ↔ CommitAnswers s t := by
  constructor
  · rintro (⟨u, hu, rfl⟩ | ⟨⟨⟩, hk, rfl⟩)
    · obtain ⟨tag, v, h1, h2, rfl⟩ := commitLine_eq_ok.1 hu
      exact .inl ⟨tag, v, h1, h2, rfl⟩
    · exact .inr ⟨hk, rfl⟩
  · rintro (⟨tag, v, h1, h2, rfl⟩ | ⟨hk, rfl⟩)
    · exact .inl ⟨_, commitLine_eq_ok.2 ⟨tag, v, h1, h2, rfl⟩, rfl⟩
    · exact .inr ⟨_, hk, rfl⟩

theorem exec_commitLf_eq_next :
    exec .commitLf s = .next t ↔ ranIn s ∧ s.phase = .poll ∧ s.cmdState = .collecting ∧
      s.rxNext = some byteLF ∧ CommitAnswers s t := by
  simp only [exec, execCommitLf, pollRow_eq_next, commit_answers, beq_iff_eq, and_assoc]

theorem exec_commitCr_eq_next :
    exec .commitCr s = .next t ↔ ranIn s ∧ s.phase = .poll ∧ s.cmdState = .collecting ∧
      s.rxNext = some byteCR ∧ CommitAnswers s t := by
  simp only [exec, execCommitCr, pollRow_eq_next, commit_answers, beq_iff_eq, and_assoc]

/-- What a dispatch row does: its register takes the line's value, or the text overflows. -/
abbrev ApplyAnswers (s t : State) (write : NumVal → State) : Prop :=
  (∃ v, lineValue s = .ok v ∧ write v = t) ∨
    (lineValue s = .error (.raise .nonfinite) ∧ s.raise .nonfinite = t)

theorem settle_applyValue {w : NumVal → State} :
    settle s (applyValue s w) = .next t ↔ ApplyAnswers s t w := by
  rw [settle_eq_next, applyValue_eq_ok]
  constructor
  · rintro (h | ⟨⟨⟩, hk, rfl⟩)
    · exact .inl h
    · exact .inr ⟨applyValue_eq_error.1 hk, rfl⟩
  · rintro (h | ⟨hk, rfl⟩)
    · exact .inl h
    · exact .inr ⟨_, applyValue_eq_error.2 hk, rfl⟩

theorem exec_cmdS_eq_next :
    exec .cmdS s = .next t ↔ ranIn s ∧ dispatching s byteS = true ∧
      ApplyAnswers s t fun v => { s with setpoint := setpointOf s.params v } := by
  simp only [exec, execCmdS, applyS, gate_eq_next, settle_applyValue, and_assoc]

theorem exec_cmdP_eq_next :
    exec .cmdP s = .next t ↔ ranIn s ∧ dispatching s byteP = true ∧ ApplyAnswers s t fun v => { s with kp := v } := by
  simp only [exec, execCmdP, applyP, gate_eq_next, settle_applyValue, and_assoc]

theorem exec_cmdI_eq_next :
    exec .cmdI s = .next t ↔ ranIn s ∧ dispatching s byteI = true ∧ ApplyAnswers s t fun v => { s with ki := v } := by
  simp only [exec, execCmdI, applyI, gate_eq_next, settle_applyValue, and_assoc]

theorem exec_cmdD_eq_next :
    exec .cmdD s = .next t ↔ ranIn s ∧ dispatching s byteD = true ∧ ApplyAnswers s t fun v => { s with kd := v } := by
  simp only [exec, execCmdD, applyD, gate_eq_next, settle_applyValue, and_assoc]

theorem exec_cmdOther_eq_next {b : Byte} :
    exec (.cmdOther b) s = .next t ↔ ranIn s ∧ dispatching s b = true ∧ isTerminator b = false ∧
      isCommandTag b = false ∧ s = t := by
  simp only [exec, execCmdOther, applyOther, gate_eq_next, settle_ok, Bool.and_eq_true, Bool.not_eq_true',
    Host.Outcome.next.injEq, and_assoc]

theorem exec_tick_eq_next :
    exec .tick s = .next t ↔ ranIn s ∧
      (if s.tickMask then { s with tickPending := true } else tickService s) = t := by
  simp only [exec, execTick, gate_eq_next, Host.Outcome.next.injEq, true_and, and_assoc]

theorem exec_snap_eq_next :
    exec .snap s = .next t ↔ ranIn s ∧ s.phase = .snap ∧ (snapshot s).toPhase .ctrl = t := by
  simp only [exec, execSnap, gate_eq_next, beq_iff_eq, Host.Outcome.next.injEq, and_assoc]

/-- What R80's pseudocode can do with a poll result, up to phase <- SNAP. -/
theorem pollEffect_eq_ok {r : Option Byte} :
    pollEffect r s = .ok t ↔
      (r = none ∧ s = t) ∨
      ∃ b, r = some b ∧
        ((s.cmdState = .idle ∧ isTerminator b = true ∧ s = t) ∨
          (s.cmdState = .idle ∧ isTerminator b = false ∧ beginLine b s = .ok t) ∨
          (s.cmdState = .collecting ∧ isTerminator b = false ∧ s.len < s.params.bufCap ∧ storeByte b s = .ok t) ∨
          (s.cmdState = .collecting ∧ isTerminator b = false ∧ s.params.bufCap ≤ s.len ∧ s = t) ∨
          (s.cmdState = .collecting ∧ isTerminator b = true ∧ commitLine s = .ok t)) := by
  unfold pollEffect
  cases r with
  | none => simp
  | some b =>
    cases hc : s.cmdState <;> cases ht : isTerminator b <;> simp [ht]
    by_cases hlt : s.len < s.params.bufCap
    · simp [hlt, Nat.not_le_of_lt hlt]
    · simp [hlt, Nat.le_of_not_lt hlt]

/-- A poll raises a fault only in a commit. -/
theorem pollEffect_eq_raise {r : Option Byte} {k : FaultKind} :
    pollEffect r s = .error (.raise k) ↔
      ∃ b, r = some b ∧ s.cmdState = .collecting ∧ isTerminator b = true ∧
        commitLine s = .error (.raise k) := by
  have hb (b : Byte) : beginLine b s ≠ .error (.raise k) := fun h => by cases beginLine_eq_error h
  have hs (b : Byte) : storeByte b s ≠ .error (.raise k) := fun h => by cases storeByte_eq_error h
  unfold pollEffect
  cases r with
  | none => simp
  | some b =>
    cases hc : s.cmdState <;> cases ht : isTerminator b <;> simp [ht, hb]
    by_cases hlt : s.len < s.params.bufCap <;> simp [hlt, hs]

theorem exec_poll_eq_next :
    exec .poll s = .next t ↔ ranIn s ∧ s.phase = .poll ∧
      ((∃ u, pollEffect s.rxNext s.takeRx = .ok u ∧ u.toPhase .snap = t) ∨
        (pollEffect s.rxNext s.takeRx = .error (.raise .nonfinite) ∧ s.takeRx.raise .nonfinite = t)) := by
  simp only [exec, execPoll, gate_eq_next, beq_iff_eq, settle_eq_next, thenPhase_eq_ok, thenPhase_eq_error,
    and_assoc]
  refine and_congr_right fun _ => and_congr_right fun _ => and_congr_right fun _ => or_congr_right ?_
  constructor
  · rintro ⟨⟨⟩, h⟩
    exact h
  · intro h
    exact ⟨_, h⟩

theorem exec_ctrl_eq_next :
    exec .ctrl s = .next t ↔ ranIn s ∧ s.phase = .ctrl ∧
      ((controlDue s = false ∧ s.toPhase .rpt = t) ∨
        (controlDue s = true ∧ s.adcNext ≤ s.params.sensorMax ∧
          ((∃ x, pidOf s s.adcNext = some x ∧
              (ctrlWrite s.adcNext (pidWrite s.takeAdc x)).toPhase .rpt = t) ∨
            (pidOf s s.adcNext = none ∧ s.takeAdc.raise .nonfinite = t)))) := by
  have herr (k : FaultKind) : controlStep s = .error (.raise k) ↔
      s.adcNext ≤ s.params.sensorMax ∧ pidOf s s.adcNext = none := by
    rw [controlStep_eq_error, pidStepEffect_eq_error]
    cases k
    simp [pidOf]
  simp only [exec, execCtrl, gate_eq_next, beq_iff_eq, and_assoc]
  refine and_congr_right fun _ => and_congr_right fun _ => and_congr_right fun _ => ?_
  cases hd : controlDue s
  · simp
  · simp only [reduceIte, settle_eq_next, thenPhase_eq_ok, thenPhase_eq_error, controlStep_eq_ok, herr]
    constructor
    · rintro (⟨u, ⟨hn, x, hx, rfl⟩, rfl⟩ | ⟨⟨⟩, ⟨hn, hx⟩, rfl⟩)
      · exact .inr ⟨trivial, hn, .inl ⟨x, hx, rfl⟩⟩
      · exact .inr ⟨trivial, hn, .inr ⟨hx, rfl⟩⟩
    · rintro (⟨h, -⟩ | ⟨-, hn, ⟨x, hx, rfl⟩ | ⟨hx, rfl⟩⟩)
      · simp at h
      · exact .inl ⟨_, ⟨hn, x, hx, rfl⟩, rfl⟩
      · exact .inr ⟨_, ⟨hn, hx⟩, rfl⟩

theorem exec_pidStep_eq_next {n : Nat} :
    exec (.pidStep n) s = .next t ↔ ranIn s ∧ s.phase = .ctrl ∧ controlDue s = true ∧ n ≤ s.params.sensorMax ∧
      ((∃ x, pidOf s n = some x ∧ pidWrite s x = t) ∨ (pidOf s n = none ∧ s.raise .nonfinite = t)) := by
  have herr (k : FaultKind) : pidStepEffect n s = .error (.raise k) ↔
      n ≤ s.params.sensorMax ∧ pidOf s n = none := by
    rw [pidStepEffect_eq_error]
    cases k
    simp
  simp only [exec, execPidStep, gate_eq_next, beq_iff_eq, Bool.and_eq_true, and_assoc]
  refine and_congr_right fun _ => and_congr_right fun _ => and_congr_right fun _ => and_congr_right fun _ => ?_
  simp only [settle_eq_next, pidStepEffect_eq_ok, herr]
  constructor
  · rintro (⟨hn, h⟩ | ⟨⟨⟩, ⟨hn, hx⟩, rfl⟩)
    · exact ⟨hn, .inl h⟩
    · exact ⟨hn, .inr ⟨hx, rfl⟩⟩
  · rintro ⟨hn, h | ⟨hx, rfl⟩⟩
    · exact .inl ⟨hn, h⟩
    · exact .inr ⟨_, ⟨hn, hx⟩, rfl⟩

theorem exec_rpt_eq_next :
    exec .rpt s = .next t ↔ ranIn s ∧ s.phase = .rpt ∧
      ((reportDue s = false ∧ s.toPhase .poll = t) ∨
        (reportDue s = true ∧
          ((s.params.reportSrc = .latched ∧ (reportWrite s.rptSample s).toPhase .poll = t) ∨
            (s.params.reportSrc = .fresh ∧ s.adcNext ≤ s.params.sensorMax ∧
              (reportWrite s.adcNext s.takeAdc).toPhase .poll = t)))) := by
  simp only [exec, execRpt, gate_eq_next, beq_iff_eq, and_assoc]
  refine and_congr_right fun _ => and_congr_right fun _ => and_congr_right fun _ => ?_
  cases hd : reportDue s
  · simp
  · simp only [reduceIte, settle_eq_next, thenPhase_eq_ok, thenPhase_eq_error, reportStep_eq_ok]
    constructor
    · rintro (⟨u, ⟨hs, rfl⟩ | ⟨hs, hn, rfl⟩, rfl⟩ | ⟨k, hk, -⟩)
      · exact .inr ⟨trivial, .inl ⟨hs, rfl⟩⟩
      · exact .inr ⟨trivial, .inr ⟨hs, hn, rfl⟩⟩
      · cases (reportStep_eq_error hk).1
    · rintro (⟨h, -⟩ | ⟨-, ⟨hs, rfl⟩ | ⟨hs, hn, rfl⟩⟩)
      · simp at h
      · exact .inl ⟨_, .inl ⟨hs, rfl⟩, rfl⟩
      · exact .inl ⟨_, .inr ⟨hs, hn, rfl⟩, rfl⟩

end Sys2Proof.Machine
end

