-- ==== Sys2Proof/Laws/PerInstr.lean ====
section
/-! SUPPORT. A statement for all operations as syntax: the shape of their encodings (R46, R47, R56). -/

namespace Sys2Proof.Laws.EncodeShape

open Sys2Proof

/-- R46 and R47: a byte row is at most one byte, and a row without one is RX_NONE; R56: an internal operation has no
bit encoding and stands at no place a byte is decoded. -/
def Statement (i : Instr) : Prop :=
  match encode i with
  | none => ∀ c, i.rowAt c = false
  | some [] => i = .rxNone
  | some [_] => ∃ c, i.rowAt c = true
  | some (_ :: _ :: _) => False

theorem rxNone : Statement .rxNone := rfl

theorem discardLf : Statement .discardLf := ⟨.line .idle 0 1, rfl⟩

theorem discardCr : Statement .discardCr := ⟨.line .idle 0 1, rfl⟩

theorem tag (b : Byte) : Statement (.tag b) := ⟨.line .idle 0 1, rfl⟩

theorem store (b : Byte) : Statement (.store b) := ⟨.line .collecting 0 1, rfl⟩

theorem drop (b : Byte) : Statement (.drop b) := ⟨.line .collecting 1 1, rfl⟩

theorem commitLf : Statement .commitLf := ⟨.line .collecting 1 1, rfl⟩

theorem commitCr : Statement .commitCr := ⟨.line .collecting 1 1, rfl⟩

theorem cmdS : Statement .cmdS := ⟨.dispatch, rfl⟩

theorem cmdP : Statement .cmdP := ⟨.dispatch, rfl⟩

theorem cmdI : Statement .cmdI := ⟨.dispatch, rfl⟩

theorem cmdD : Statement .cmdD := ⟨.dispatch, rfl⟩

theorem cmdOther (b : Byte) : Statement (.cmdOther b) := ⟨.dispatch, rfl⟩

theorem tick : Statement .tick := fun _ => rfl

theorem poll : Statement .poll := fun _ => rfl

theorem snap : Statement .snap := fun _ => rfl

theorem ctrl : Statement .ctrl := fun _ => rfl

theorem pidStep (n : Nat) : Statement (.pidStep n) := fun _ => rfl

theorem rpt : Statement .rpt := fun _ => rfl

end Sys2Proof.Laws.EncodeShape
end

