-- ==== Sys2Proof/Laws/Runs.lean ====
section
/-! SUPPORT. What a run and a received line do at their first step, said once. -/

namespace Sys2Proof.Machine

open Sys2Proof

variable {s t u : State}

@[simp] theorem answered_next : answered (.next t) = some t := rfl
@[simp] theorem answered_fault (f : Fault) : answered (.fault f) = none := rfl
@[simp] theorem answered_refused (r : Refusal) : answered (.refused r) = none := rfl

theorem answered_eq_some {r : Result} : answered r = some t ↔ r = .next t := by
  cases r <;> simp

@[simp] theorem runAll_nil : runAll [] s = some s := rfl

/-- A run is its first operation, which answers a state, and the run of the rest from there. -/
theorem runAll_cons_eq_some {i : Instr} {is : List Instr} :
    runAll (i :: is) s = some t ↔ ∃ u, exec i s = .next u ∧ runAll is u = some t := by
  simp only [runAll, Option.bind_eq_some_iff, answered_eq_some]

@[simp] theorem receive_nil : receive [] s = some s := rfl

/-- A line's first byte is received by one POLL, and the rest from the state it answers. -/
theorem receive_cons {b : Byte} {bs : List Byte} (h : exec .poll (atPoll b s) = .next u) :
    receive (b :: bs) s = receive bs u := by
  simp only [receive, h, answered_next, Option.bind_some]

end Sys2Proof.Machine
end

