-- ==== Sys2Proof/Tests/Slice0.lean ====
section
/-! SUPPORT. Tests of one step each, their expected results from spec/95_test_vectors.md or from the rule named, and
for every statement with hypotheses a witness that meets them. -/

namespace Sys2Proof.Tests

open Sys2Proof Sys2Proof.Machine

/-! ### Small states -/

/-- The operation answers a next state of which the property holds. -/
def after (r : Result) (good : State → Bool) : Bool :=
  match r with
  | .next t => good t
  | .fault _ => false
  | .refused _ => false

/-- The buffer that holds these bytes from an index on. -/
def cells : Nat → List Byte → List Host.Cell
  | _, [] => []
  | i, b :: t => (i, b) :: cells (i + 1) t

/-- After reset with a record, at a phase, with these bytes of a line collected and the poll's result scripted. -/
def withLine (p : Params) (line : List Byte) (r : Option Byte) : State :=
  { State.resetOf p with
    cmdState := if line = [] then .idle else .collecting
    len := line.length
    buf := cells 0 line
    env := { Env.free with rx := [r] } }

/-- The default record's line state. -/
abbrev line (bytes : List Byte) (r : Option Byte) : State := withLine Params.default bytes r

/-- An integer as a binary32 value, by R9's exactness: n units of one. -/
def int32 (n : Int) : NumVal := ⟨decide (n < 0), n.natAbs * 2 ^ 149⟩

/-- A binary32 value from the exact decimal of spec/95: m / 10^k. -/
def exact32 (m k : Nat) : NumVal := ⟨false, m * 2 ^ 149 / 10 ^ k⟩

/-- spec/95 table: rnd(0.6) and rnd(0.05) in binary32. -/
def num06 : NumVal := exact32 60000002384185791015625 23
def num005 : NumVal := exact32 500000007450580596923828125 28

/-- At CTRL, 10 ticks after the last control step, as the PID vectors of spec/95 give the registers. -/
def pidAt (setpoint : Nat) (kp ki kd ie : NumVal) (le : Int) (sample : Nat) : State :=
  { State.reset with
    phase := .ctrl
    nowLatch := 20
    lastControlTime := 10
    setpoint := setpoint
    kp := kp
    ki := ki
    kd := kd
    integralError := ie
    lastError := le
    env := { Env.free with adc := [sample] } }

/-- At RPT, 100 ticks after the last report (SEQ-5). -/
def reportAt (src : ReportSrc) : State :=
  { State.resetOf { Params.default with reportSrc := src } with
    phase := .rpt
    nowLatch := 100
    rptSample := 200
    rptOutput := 60
    env := { Env.free with adc := [207] } }

/-! ### Well-formedness -/

theorem test_wf_refuses_terminators :
    (Instr.tag 0x0A).wf = false ∧ (Instr.tag 0x0D).wf = false ∧ (Instr.store 0x0A).wf = false ∧
      (Instr.store 0x0D).wf = false ∧ (Instr.drop 0x0A).wf = false ∧ (Instr.drop 0x0D).wf = false ∧
      (Instr.cmdOther 0x0A).wf = false ∧ (Instr.cmdOther 0x0D).wf = false := by decide

theorem test_wf_refuses_recognised_tags_of_other :
    (Instr.cmdOther 0x53).wf = false ∧ (Instr.cmdOther 0x50).wf = false ∧ (Instr.cmdOther 0x49).wf = false ∧
      (Instr.cmdOther 0x44).wf = false ∧ (Instr.cmdOther 0x73).wf = true := by decide

/-! ### Decoding: words written out from R44, R46 and R47 -/

theorem test_decode_line_bytes :
    decode (.line .idle 0 16) [] = .ok .rxNone ∧
    decode (.line .idle 0 16) [0b00001010] = .ok .discardLf ∧
    decode (.line .idle 0 16) [0b00001101] = .ok .discardCr ∧
    decode (.line .idle 0 16) [0b01011000] = .ok (.tag 0x58) ∧
    decode (.line .collecting 15 16) [0b00110101] = .ok (.store 0x35) ∧
    decode (.line .collecting 16 16) [0b00110101] = .ok (.drop 0x35) ∧
    decode (.line .collecting 3 16) [0b00001010] = .ok .commitLf ∧
    decode (.line .collecting 3 16) [0b00001101] = .ok .commitCr := by decide

theorem test_decode_dispatch_bytes :
    decode .dispatch [0b01010011] = .ok .cmdS ∧ decode .dispatch [0b01010000] = .ok .cmdP ∧
    decode .dispatch [0b01001001] = .ok .cmdI ∧ decode .dispatch [0b01000100] = .ok .cmdD ∧
    decode .dispatch [0b01110011] = .ok (.cmdOther 0x73) := by decide

theorem test_decode_rejects_by_name :
    decode (.line .idle 0 16) [0x53, 0x33] = .error .moreThanOneByte ∧
    decode .dispatch [] = .error .notOneTagByte ∧ decode .dispatch [0x0A] = .error .terminatorAsTag := by decide

/-- The internal operations have no encoding (R56). -/
theorem test_internal_operations_have_no_bytes :
    encode .tick = none ∧ encode .poll = none ∧ encode .snap = none ∧ encode .ctrl = none ∧
      encode (.pidStep 200) = none ∧ encode .rpt = none := by decide

theorem test_table_words :
    decodeTableWord 0 0 = some .rxNone ∧ decodeTableWord 8 0x0A = some .discardLf ∧
    decodeTableWord 8 0x53 = some .cmdS ∧ decodeTableWord 8 0x58 = some (.tag 0x58) := by decide

theorem test_step_runs_a_placed_word :
    (after (step (State.reset.withFetchWord 8 0x58)) fun t =>
      t.len == 1 && t.cmdState == .collecting && Memory.read t.buf 0 == some 0x58 && t.phase == .snap) = true ∧
    (after (step (State.reset.withFetchWord 8 0x53)) fun t =>
      t.len == 0 && t.cmdState == .idle && t.setpoint == 0 && t.phase == .snap) = true ∧
    (after (step (State.reset.withFetchWord 0 0)) fun t => t.len == 0 && t.phase == .snap) = true := by decide

/-! ### The byte rows (spec/95, CMD vectors) -/

/-- CMD-1, CMD-2, CMD-3. -/
theorem test_idle_bytes :
    (after (exec .discardLf (line [] (some 0x0A))) fun t => t.len == 0 && t.cmdState == .idle) = true ∧
    (after (exec .discardCr (line [] (some 0x0D))) fun t => t.len == 0 && t.cmdState == .idle) = true ∧
    (after (exec (.tag 0x58) (line [] (some 0x58))) fun t =>
      t.len == 1 && t.cmdState == .collecting && Memory.read t.buf 0 == some 0x58) = true := by decide

/-- CMD-4, R84's example, CMD-5. -/
theorem test_collecting_bytes :
    (after (exec .rxNone (line [0x58, 0x31, 0x32] none)) fun t => t.len == 3 && t.cmdState == .collecting) = true ∧
    (after (exec (.store 0x33) (line [0x53] (some 0x33))) fun t =>
      t.len == 2 && Memory.read t.buf 1 == some 0x33 && Memory.read t.buf 0 == some 0x53) = true ∧
    (after (exec (.drop 0x35) (line (List.replicate 16 0x31) (some 0x35))) fun t =>
      t.len == 16 && Memory.read t.buf 15 == some 0x31) = true := by decide

/-- CMD-6 and CMD-7. -/
theorem test_commits :
    (after (exec .commitLf (line [0x58, 0x31, 0x32] (some 0x0A))) fun t =>
      t.len == 0 && t.cmdState == .idle && t.setpoint == 0 && t.kp == .posZero) = true ∧
    (after (exec .commitCr (line [0x53, 0x33, 0x30, 0x30] (some 0x0D))) fun t =>
      t.len == 0 && t.cmdState == .idle && t.setpoint == 300) = true := by decide

/-- CMD-9, CMD-10, CMD-11 and CMD-16: a lone tag, a lone sign, a negative zero, `5.`. -/
theorem test_cmdP :
    (after (exec .cmdP (line [0x50] none)) fun t => t.kp == ⟨false, 0⟩) = true ∧
    (after (exec .cmdP (line [0x50, 0x2D] none)) fun t => t.kp == ⟨false, 0⟩) = true ∧
    (after (exec .cmdP (line [0x50, 0x2D, 0x30] none)) fun t => t.kp == ⟨true, 0⟩) = true ∧
    (after (exec .cmdP (line [0x50, 0x35, 0x2E] none)) fun t => t.kp == int32 5) = true := by decide

/-- CMD-15 (`1e3`) and CMD-13 (`1.5abc`) under both parse modes. -/
theorem test_parse_modes :
    textValue Params.default [0x31, 0x65, 0x33] = some .posZero ∧
    textValue { Params.default with parseMode := .prefixText } [0x31, 0x65, 0x33] = some (int32 1) ∧
    textValue Params.default [0x31, 0x2E, 0x35, 0x61, 0x62, 0x63] = some .posZero ∧
    textValue { Params.default with parseMode := .prefixText } [0x31, 0x2E, 0x35, 0x61, 0x62, 0x63] =
      some (exact32 15 1) := by decide

/-- CMD-19 `300.7`, CMD-20 `1023.9`, CMD-21 `-5`. -/
theorem test_cmdS :
    (after (exec .cmdS (line [0x53, 0x33, 0x30, 0x30, 0x2E, 0x37] none)) fun t => t.setpoint == 300) = true ∧
    (after (exec .cmdS (line [0x53, 0x31, 0x30, 0x32, 0x33, 0x2E, 0x39] none)) fun t => t.setpoint == 1023) = true ∧
    (after (exec .cmdS (line [0x53, 0x2D, 0x35] none)) fun t => t.setpoint == 0) = true := by decide

/-- E4 `S9999`. -/
theorem test_cmdS_clamps :
    (after (exec .cmdS (line [0x53, 0x39, 0x39, 0x39, 0x39] none)) fun t => t.setpoint == 1023) = true := by decide

/-- CMD-23 `I0.05` and CMD-26's sixteen bytes, `I123456789012345`. -/
theorem test_cmdI :
    (after (exec .cmdI (line [0x49, 0x30, 0x2E, 0x30, 0x35] none)) fun t => t.ki == num005) = true ∧
    (after (exec .cmdI (line
      [0x49, 0x31, 0x32, 0x33, 0x34, 0x35, 0x36, 0x37, 0x38, 0x39, 0x30, 0x31, 0x32, 0x33, 0x34, 0x35] none))
      fun t => t.ki == int32 123456788103168) = true := by decide

/-- CMD-24 `D-2.5`, and CMD-25's tag `s`. -/
theorem test_cmdD_and_other :
    (after (exec .cmdD (line [0x44, 0x2D, 0x32, 0x2E, 0x35] none)) fun t => t.kd == ⟨true, 5 * 2 ^ 148⟩) = true ∧
    (after (exec (.cmdOther 0x73) (line [0x73, 0x33, 0x30, 0x30] none)) fun t =>
      t == line [0x73, 0x33, 0x30, 0x30] none) = true := by decide

/-- E2 and spec/95's table: rnd(0.6), rnd(300.7). -/
theorem test_rounding :
    NumVal.ofDec .binary32 false 6 1 = some num06 ∧
    NumVal.ofDec .binary32 false 3007 1 = some (exact32 30070001220703125 14) := by decide

/-- CMD-8: POLL by its pseudocode discards the LF of CRLF; R80's example. -/
theorem test_poll :
    (after (exec .poll (line [] (some 0x0A))) fun t => t.len == 0 && t.phase == .snap) = true ∧
    (after (exec .poll (line [] (some 0x53))) fun t =>
      t.len == 1 && t.cmdState == .collecting && t.phase == .snap) = true := by decide

/-! ### Clock (CLK vectors) -/

/-- CLK-2 and CLK-3. -/
theorem test_tick_wraps :
    (after (exec .tick { State.reset with clk := 0xFFFFFFFF }) fun t => t.clk == 0) = true ∧
    (after (exec .tick { State.resetOf { Params.default with clkW := 4, controlInterval := 10, reportInterval := 12 }
      with clk := 15 }) fun t => t.clk == 0) = true := by decide

/-- CLK-4. -/
theorem test_snap :
    (after (exec .snap { State.reset with clk := 1234, phase := .snap }) fun t =>
      t.nowLatch == 1234 && t.phase == .ctrl && t.clk == 1234) = true := by decide

/-- CLK-5, CLK-6, CLK-8. -/
theorem test_elapsed :
    elapsed Params.default 10 0xFFFFFFFE = 12 ∧ elapsed Params.default 5 0xFFFFFFFB = 10 ∧
      elapsed Params.default 3 10 = 4294967289 := by decide

/-! ### PID and sequencer (PID and SEQ vectors) -/

/-- PID-1 (SC-1) and PID-9: a fraction truncated, an output clamped while the integral comes down. -/
theorem test_pidStep :
    (after (exec (.pidStep 200) (pidAt 300 num06 .posZero .posZero .posZero 0 200)) fun t =>
      t.pidRet == 60 && t.integralError == int32 100 && t.lastError == 100) = true ∧
    (after (exec (.pidStep 110) (pidAt 100 (int32 1) (int32 1) .posZero (int32 600) (-10) 110)) fun t =>
      t.pidRet == 511 && t.integralError == int32 590 && t.lastError == -10) = true := by decide

/-- PID-10, PID-4, PID-6: no windup at MAX_COUNT, none at MIN_COUNT, the integral clamp. -/
theorem test_pidStep_antiwindup :
    (after (exec (.pidStep 289) (pidAt 300 (int32 1) (int32 1) .posZero (int32 500) 11 289)) fun t =>
      t.pidRet == 511 && t.integralError == int32 500) = true ∧
    (after (exec (.pidStep 500) (pidAt 0 (int32 1) (exact32 5 1) .posZero (int32 (-100)) 0 500)) fun t =>
      t.pidRet == 0 && t.integralError == int32 (-100) && t.lastError == -500) = true ∧
    (after (exec (.pidStep 200) (pidAt 300 (int32 1) .posZero .posZero (int32 10150) 100 200)) fun t =>
      t.pidRet == 100 && t.integralError == int32 10200) = true := by decide

/-- SEQ-2 and SEQ-3. -/
theorem test_ctrl :
    (after (exec .ctrl (pidAt 300 num06 .posZero .posZero .posZero 0 200)) fun t =>
      t.actOut == 60 && t.rptSample == 200 && t.rptOutput == 60 && t.lastControlTime == 20 && t.phase == .rpt) = true ∧
    (after (exec .ctrl { pidAt 300 num06 .posZero .posZero .posZero 0 200 with nowLatch := 19 }) fun t =>
      t.actOut == 0 && t.lastControlTime == 10 && t.phase == .rpt && t.env.adc == [200]) = true := by decide

/-- SEQ-5 and SEQ-6. -/
theorem test_rpt :
    (after (exec .rpt (reportAt .latched)) fun t =>
      t.trace == [⟨100, 200, 60⟩] && t.lastReportTime == 100 && t.phase == .poll) = true ∧
    (after (exec .rpt (reportAt .fresh)) fun t => t.trace == [⟨100, 207, 60⟩] && t.rptSample == 200) = true := by
  decide

/-- R57: 100 is spelled `100`, 0 is spelled `0`. -/
theorem test_decimalText : decimalText 100 = [0x31, 0x30, 0x30] ∧ decimalText 0 = [0x30] := by decide

/-! ### Witnesses: for each statement with hypotheses, operands and a state that meet them -/

theorem witness_DecodeOfEncodeIsTheRow :
    (Instr.store 0xFF).wf = true ∧ (Instr.store 0xFF).rowAt (.line .collecting 15 16) = true ∧
      encode (.store 0xFF) = some [0xFF] := by decide

theorem witness_DecodedRowsAreWellFormed : decode .dispatch [0x00] = .ok (.cmdOther 0x00) := by decide

/-- The bytes beside the terminators. -/
theorem witness_EveryInputHasExactlyOneRow :
    isTerminator 0x09 = false ∧ isTerminator 0x0B = false ∧ isTerminator 0x0C = false ∧
      isTerminator 0x0E = false := by decide

theorem witness_RoundingIsNearestTiesToEven : 0 < (3 : Nat) := by decide

theorem witness_SmallIntegersAreExact :
    (2 ^ 24 : Int).natAbs ≤ 2 ^ NumFmt.binary32.prec ∧ (-2 ^ 53 : Int).natAbs ≤ 2 ^ NumFmt.binary64.prec := by decide

/-- A literal `-.5` and, as the other clause, the empty text. -/
theorem witness_StrictTextsAreWorthTheirLiteralOrZero :
    Params.default.parseMode = .strictText ∧ NumberText [0x2D, 0x2E, 0x35] true 5 1 ∧
      ¬ ∃ neg n k, NumberText [] neg n k := by
  refine ⟨rfl, .mk [0x2D] [0x2E, 0x35] true 5 1 .minus (.bare [0x35] (by decide) (by unfold DigitText; decide)), ?_⟩
  rintro ⟨neg, n, k, h⟩
  generalize ht : ([] : List Byte) = t at h
  rcases h with ⟨sg, m, _, _, _, hs, hm⟩
  rcases hm with ⟨w, hw, -⟩ | ⟨w, fr, hw, -⟩ | ⟨fr, hf, -⟩ <;> simp_all

/-- A space before the literal `2`, the longest prefix; and, as the other clause, no text after the space. -/
theorem witness_PrefixTextsAreWorthTheirLongestLiteral :
    (∀ b ∈ [byteSpace], b = byteSpace ∨ b = byteTab) ∧ [(0x32 : Byte)].head? ≠ some byteSpace ∧
      [(0x32 : Byte)].head? ≠ some byteTab ∧ [(0x32 : Byte)] <+: [0x32] ∧ NumberText [0x32] false 2 0 ∧
      (∀ (q' : List Byte) neg' n' k', q' <+: [0x32] → NumberText q' neg' n' k' → q'.length ≤ [(0x32 : Byte)].length) ∧
      ([] : List Byte).head? ≠ some byteSpace ∧ ([] : List Byte).head? ≠ some byteTab ∧
      ¬ ∃ q neg n k, q <+: [] ∧ NumberText q neg n k := by
  refine ⟨by decide, by decide, by decide, List.prefix_rfl, .mk [] [0x32] false 2 0 .absent (.whole [0x32] (by decide)
    (by unfold DigitText; decide)), fun q' _ _ _ h _ => h.length_le, by decide, by decide, ?_⟩
  rintro ⟨q, neg, n, k, hq, h⟩
  obtain rfl := List.prefix_nil.1 hq
  exact witness_StrictTextsAreWorthTheirLiteralOrZero.2.2 ⟨neg, n, k, h⟩

/-- The longest text of the largest buffer the statement admits, and the default one. -/
theorem witness_ShortTextsNeverOverflow :
    Params.default.numFmt = .binary32 ∧ Params.default.bufCap ≤ 39 ∧
      (List.replicate 15 (0x39 : Byte)).length < Params.default.bufCap ∧
      (List.replicate 38 (0x39 : Byte)).length < { Params.default with bufCap := 39 }.bufCap := by decide

theorem witness_DecimalTextIsCanonical : 0 < (1 : Nat) ∧ (0 : Nat) = 0 := by decide

theorem legal_default : Params.default.legal = true := by decide

/-- The default record with another field changed. -/
theorem witness_legal_records :
    { Params.default with bufCap := 41 }.legal = true ∧ { Params.default with reportSrc := .fresh }.legal = true ∧
      { Params.default with clkW := 2, controlInterval := 3, reportInterval := 0 }.legal = true := by decide

theorem witness_TickAdvancesTheCounter :
    { State.reset with clk := 2 ^ 32 - 1 }.Running ∧ { State.reset with clk := 2 ^ 32 - 1 }.tickMask = false :=
  ⟨⟨legal_default, rfl⟩, rfl⟩

theorem witness_MaskedTickWaits :
    { State.reset with tickMask := true }.Running ∧ { State.reset with tickMask := true }.tickMask = true :=
  ⟨⟨legal_default, rfl⟩, rfl⟩

theorem witness_SnapLatchesTheCounter :
    { State.reset with phase := .snap }.Running ∧ { State.reset with phase := .snap }.phase = .snap :=
  ⟨⟨legal_default, rfl⟩, rfl⟩

/-! The invariant holds after reset, and at the states below that begin a line, a step or a report. -/

theorem inv_reset : State.reset.Inv := by constructor <;> decide

theorem inv_line : (line [0x53, 0x33] (some 0x0A)).Inv := by constructor <;> decide

theorem inv_pidAt : (pidAt 300 num06 num005 .posZero (int32 6600) 300 0).Inv := by constructor <;> decide

/-- A SNAP at the top of the counter, neither interval elapsed. -/
def snapping : State :=
  { line [0x53] none with
    phase := .snap, clk := 2 ^ 32 - 1, lastControlTime := 2 ^ 32 - 2, lastReportTime := 2 ^ 32 - 2 }

theorem inv_snapping : snapping.Inv := by constructor <;> decide

/-- A SNAP, the rest of its iteration and the next POLL with two TICKs among them, and the next SNAP. -/
theorem witness_SnapshotsDifferByTheTicksBetween :
    snapping.Inv ∧ ∃ a b c, exec .snap snapping = .next a ∧
      runAll [.tick, .ctrl, .rpt, .tick, .rxNone] a = some b ∧ exec .snap b = .next c :=
  ⟨inv_snapping, _, _, _, rfl, rfl, rfl⟩

/-! #### PID_STEP -/

/-- The interval exactly elapsed, and a sample at the top of its range. -/
theorem witness_pid_runs :
    (pidAt 1023 num06 .posZero .posZero .posZero 0 1023).Running ∧
    (pidAt 1023 num06 .posZero .posZero .posZero 0 1023).phase = .ctrl ∧
    Params.default.controlInterval = elapsed Params.default 20 10 ∧ 1023 ≤ Params.default.sensorMax :=
  ⟨⟨legal_default, rfl⟩, by decide⟩

theorem realOf_int32 (n : Int) : realOf .binary32 (int32 n) = n := by
  have h : (int32 n).toInt = n * 2 ^ 149 := by
    unfold int32 NumVal.toInt
    by_cases hn : n < 0
    · simp [hn, abs_of_neg hn]
    · simp [hn, abs_of_nonneg (not_lt.1 hn)]
  have h1 : (NumFmt.binary32.one : ℚ) = 2 ^ 149 := by norm_num [NumFmt.one]
  unfold realOf
  rw [h, h1]
  push_cast
  exact mul_div_cancel_right₀ _ (by positivity)

/-- PID-8's registers with kp = 2, ki = 1 and an integral of 10: the error 99 integrates, nothing saturates. -/
theorem witness_PidStepFollowsThePseudocode :
    (pidAt 300 (int32 2) (int32 1) .posZero (int32 10) 99 201).Running ∧
    (pidAt 300 (int32 2) (int32 1) .posZero (int32 10) 99 201).phase = .ctrl ∧
    Params.default.controlInterval ≤ elapsed Params.default 20 10 ∧ 201 ≤ Params.default.sensorMax ∧
    (99 : Int) = (if ((300 : Nat) - (201 : Nat) : Int).natAbs < Params.default.deadband then 0
      else ((300 : Nat) - (201 : Nat) : Int)) ∧
    NumVal.ofInt .binary32 99 = some (int32 99) ∧
    NumVal.mul .binary32 (int32 2) (int32 99) = some (int32 198) ∧
    NumVal.ofInt .binary32 (99 - 99) = some .posZero ∧
    NumVal.mul .binary32 .posZero .posZero = some .posZero ∧
    NumVal.mul .binary32 (int32 1) (int32 10) = some (int32 10) ∧
    NumVal.add .binary32 (int32 198) (int32 10) = some (int32 208) ∧
    NumVal.add .binary32 (int32 208) .posZero = some (int32 208) ∧
    (if ((511 : Nat) : ℚ) ≤ realOf .binary32 (int32 208) ∧ ¬ (99 : Int) < 0 ∨
        ¬ ((511 : Nat) : ℚ) ≤ realOf .binary32 (int32 208) ∧
          realOf .binary32 (int32 208) ≤ (0 : Nat) ∧ ¬ 0 < (99 : Int)
      then int32 109 = int32 10
      else NumVal.add .binary32 (int32 10) (int32 99) = some (int32 109)) ∧
    (if ((10200 : Nat) : ℚ) < realOf .binary32 (int32 109)
      then NumVal.ofInt .binary32 10200 = some (int32 109)
      else if realOf .binary32 (int32 109) < -((10200 : Nat) : ℚ)
      then NumVal.ofInt .binary32 (-10200) = some (int32 109)
      else int32 109 = int32 109) ∧
    NumVal.mul .binary32 (int32 1) (int32 109) = some (int32 109) ∧
    NumVal.add .binary32 (int32 198) (int32 109) = some (int32 307) ∧
    NumVal.add .binary32 (int32 307) .posZero = some (int32 307) := by
  refine ⟨⟨legal_default, rfl⟩, rfl, by decide, by decide, by decide, by decide, by decide, by decide, by decide,
    by decide, by decide, by decide, ?_, ?_, by decide, by decide, by decide⟩
  · rw [if_neg]
    · decide
    · simp only [realOf_int32]; norm_num
  · rw [if_neg, if_neg] <;> simp only [realOf_int32] <;> norm_num

/-- The largest binary32 value as kp, and an error of 300. -/
def overflowing : State := pidAt 300 ⟨false, (2 ^ 24 - 1) * 2 ^ 253⟩ .posZero .posZero .posZero 0 0

theorem overflowing_overflows : PidOverflows overflowing 300 := .proportional (int32 300) (by decide) (by decide)

/-- All registers zero and the sample on the setpoint 0: every rounding is of 0. -/
def idling : State := pidAt 0 .posZero .posZero .posZero .posZero 0 0

theorem idling_sum : SumIs .binary32 .posZero .posZero .posZero .posZero .posZero :=
  ⟨.posZero, .posZero, by decide, by decide, by decide⟩

theorem idling_sum_fits : ¬ SumOverflows .binary32 .posZero .posZero .posZero .posZero := by
  have hm : NumVal.mul .binary32 .posZero .posZero = some .posZero := by decide
  have ha : NumVal.add .binary32 .posZero .posZero = some .posZero := by decide
  rintro (h | ⟨i, h, h'⟩ | ⟨i, a, h, h', h''⟩)
  · simp [hm] at h
  · obtain rfl : NumVal.posZero = i := by simpa [hm] using h
    simp [ha] at h'
  · obtain rfl : NumVal.posZero = i := by simpa [hm] using h
    obtain rfl : NumVal.posZero = a := by simpa [ha] using h'
    simp [ha] at h''

theorem idling_terms {eNum pTerm dTerm : NumVal} (h : TermsAre idling 0 eNum pTerm dTerm) :
    eNum = .posZero ∧ pTerm = .posZero ∧ dTerm = .posZero := by
  have hm : NumVal.mul .binary32 .posZero .posZero = some .posZero := by decide
  have ho : NumVal.ofInt .binary32 0 = some .posZero := by decide
  obtain ⟨h1, h2, d, h3, h4⟩ := h
  obtain rfl : NumVal.posZero = eNum := Option.some.inj (ho.symm.trans h1)
  obtain rfl : NumVal.posZero = d := Option.some.inj (ho.symm.trans h3)
  exact ⟨rfl, Option.some.inj (h2.symm.trans hm), Option.some.inj (h4.symm.trans hm)⟩

theorem idling_clamps {ie : NumVal} (h : ClampsTo Params.default .posZero ie) : ie = .posZero := by
  have h0 : realOf .binary32 .posZero = 0 := by simp [realOf, NumVal.posZero, NumVal.toInt]
  rcases h with ⟨h, -⟩ | ⟨h, -⟩ | ⟨-, -, h⟩
  · norm_num [Params.default, h0] at h
  · norm_num [Params.default, h0] at h
  · exact h

theorem idling_fits : ¬ PidOverflows idling 0 := by
  have hm : NumVal.mul .binary32 .posZero .posZero = some .posZero := by decide
  have ha : NumVal.add .binary32 .posZero .posZero = some .posZero := by decide
  have ho : NumVal.ofInt .binary32 0 = some .posZero := by decide
  rintro (h | ⟨x, h, h'⟩ | h | ⟨x, h, h'⟩ | ⟨_, _, _, ht, h⟩ | ⟨_, _, _, _, ht, -, -, h⟩ | ⟨_, _, _, _, ie, ht, -, hi, h⟩)
  · exact nomatch ho.symm.trans h
  · obtain rfl : NumVal.posZero = x := Option.some.inj (ho.symm.trans h)
    exact nomatch hm.symm.trans h'
  · exact nomatch ho.symm.trans h
  · obtain rfl : NumVal.posZero = x := Option.some.inj (ho.symm.trans h)
    exact nomatch hm.symm.trans h'
  · obtain ⟨rfl, rfl, rfl⟩ := idling_terms ht
    exact idling_sum_fits h
  · obtain ⟨rfl, rfl, rfl⟩ := idling_terms ht
    exact nomatch ha.symm.trans h
  · obtain ⟨rfl, rfl, rfl⟩ := idling_terms ht
    obtain rfl : ie = .posZero := by
      rcases hi with ⟨-, sum, hs, hc⟩ | ⟨-, hc⟩
      · obtain rfl : NumVal.posZero = sum := Option.some.inj (ha.symm.trans hs)
        exact idling_clamps hc
      · exact idling_clamps hc
    exact idling_sum_fits h

/-- Both clauses: an overflow, and none. -/
theorem witness_PidOverflowRaisesNonfinite :
    (overflowing.Running ∧ overflowing.phase = .ctrl ∧
      overflowing.params.controlInterval ≤
        elapsed overflowing.params overflowing.nowLatch overflowing.lastControlTime ∧
      0 ≤ overflowing.params.sensorMax ∧
      (300 : Int) = (if ((overflowing.setpoint : Int) - (0 : Nat)).natAbs < overflowing.params.deadband then 0
        else (overflowing.setpoint : Int) - (0 : Nat)) ∧
      PidOverflows overflowing 300) ∧
    idling.Running ∧ idling.phase = .ctrl ∧
    idling.params.controlInterval ≤ elapsed idling.params idling.nowLatch idling.lastControlTime ∧
    0 ≤ idling.params.sensorMax ∧
    (0 : Int) = (if ((idling.setpoint : Int) - (0 : Nat)).natAbs < idling.params.deadband then 0
      else (idling.setpoint : Int) - (0 : Nat)) ∧
    ¬ PidOverflows idling 0 :=
  ⟨⟨⟨legal_default, rfl⟩, rfl, by decide, by decide, by decide, overflowing_overflows⟩,
    ⟨legal_default, rfl⟩, rfl, by decide, by decide, by decide, idling_fits⟩

theorem witness_PidStepCompletesWithDefaultParameters :
    (pidAt 300 num06 num005 .posZero (int32 6600) 300 0).Inv ∧
    (pidAt 300 num06 num005 .posZero (int32 6600) 300 0).faults = [] ∧
    (pidAt 300 num06 num005 .posZero (int32 6600) 300 0).phase = .ctrl ∧
    Params.default.controlInterval ≤ elapsed Params.default 20 10 ∧
    Params.default.numFmt = .binary32 ∧ Params.default.sensorMax = 1023 ∧ Params.default.maxCount = 511 ∧
    Params.default.integralLimit = 10200 ∧ 0 ≤ 1023 ∧
    |realOf .binary32 num06| < 10 ^ 33 ∧ |realOf .binary32 num005| < 10 ^ 33 ∧
    |realOf .binary32 NumVal.posZero| < 10 ^ 33 := by
  refine ⟨inv_pidAt, rfl, rfl, by decide, rfl, rfl, rfl, rfl, by decide, ?_, ?_, ?_⟩ <;>
    norm_num [realOf, num06, num005, exact32, NumVal.posZero, NumVal.toInt, NumFmt.one]

/-- PR-4: setpoint 300 with the samples 299 and 301. -/
theorem witness_DeadBandHidesTheSample :
    299 ≤ Params.default.sensorMax ∧ 301 ≤ Params.default.sensorMax ∧
    (((300 : Nat) : Int) - (299 : Nat)).natAbs < Params.default.deadband ∧
    (((300 : Nat) : Int) - (301 : Nat)).natAbs < Params.default.deadband := by decide

theorem witness_PidStepKeepsItsBounds :
    ∃ t, exec (.pidStep 200) (pidAt 300 num06 .posZero .posZero .posZero 0 200) = .next t ∧ t.faults = [] :=
  ⟨_, rfl, rfl⟩

/-- PID-10 at MAX_COUNT and PID-4 at MIN_COUNT. -/
theorem witness_SaturatedStepsDoNotWindUp :
    (-(10200 : ℚ) ≤ realOf .binary32 (int32 500) ∧ realOf .binary32 (int32 500) ≤ 10200 ∧
      deadBandError Params.default 300 289 = 11 ∧ NumVal.ofInt .binary32 11 = some (int32 11) ∧
      NumVal.mul .binary32 (int32 1) (int32 11) = some (int32 11) ∧
      NumVal.ofInt .binary32 (11 - 11) = some .posZero ∧
      NumVal.mul .binary32 .posZero .posZero = some .posZero ∧
      pidSum .binary32 (int32 11) (int32 1) (int32 500) .posZero = some (int32 511) ∧
      (∃ t, exec (.pidStep 289) (pidAt 300 (int32 1) (int32 1) .posZero (int32 500) 11 289) = .next t) ∧
      (511 : ℚ) ≤ realOf .binary32 (int32 511) ∧ (0 : Int) ≤ 11) ∧
    (-(10200 : ℚ) ≤ realOf .binary32 (int32 (-100)) ∧ realOf .binary32 (int32 (-100)) ≤ 10200 ∧
      deadBandError Params.default 0 500 = -500 ∧ NumVal.ofInt .binary32 (-500) = some (int32 (-500)) ∧
      NumVal.mul .binary32 (int32 1) (int32 (-500)) = some (int32 (-500)) ∧
      NumVal.ofInt .binary32 (-500 - 0) = some (int32 (-500)) ∧
      NumVal.mul .binary32 .posZero (int32 (-500)) = some ⟨true, 0⟩ ∧
      pidSum .binary32 (int32 (-500)) (exact32 5 1) (int32 (-100)) ⟨true, 0⟩ = some (int32 (-550)) ∧
      (∃ t, exec (.pidStep 500) (pidAt 0 (int32 1) (exact32 5 1) .posZero (int32 (-100)) 0 500) = .next t) ∧
      realOf .binary32 (int32 (-550)) ≤ 0 ∧ (-500 : Int) ≤ 0) := by
  refine ⟨⟨?_, ?_, by decide, by decide, by decide, by decide, by decide, by decide, ⟨_, rfl⟩, ?_, by decide⟩,
    ⟨?_, ?_, by decide, by decide, by decide, by decide, by decide, by decide, ⟨_, rfl⟩, ?_, by decide⟩⟩ <;>
    rw [realOf_int32] <;> norm_num

/-! #### The command protocol -/

theorem witness_EmptyPollChangesOnlyThePhase :
    (line [0x58] none).Running ∧ (line [0x58] none).phase = .poll ∧ (line [0x58] none).rxNext = none :=
  ⟨⟨legal_default, rfl⟩, rfl, rfl⟩

theorem witness_StrayTerminatorsAreDiscarded :
    (line [] (some 0x0A)).Running ∧ (line [] (some 0x0A)).phase = .poll ∧ (line [] (some 0x0A)).cmdState = .idle ∧
    (line [] (some 0x0A)).rxNext = some 0x0A ∧ (line [] (some 0x0D)).rxNext = some 0x0D :=
  ⟨⟨legal_default, rfl⟩, by decide⟩

/-- The tag bytes beside the terminators. -/
theorem witness_TagByteBeginsALine :
    (line [] (some 0x0B)).Running ∧ (line [] (some 0x0B)).phase = .poll ∧ (line [] (some 0x0B)).cmdState = .idle ∧
    (0x0B : Byte) ≠ 0x0A ∧ (0x0B : Byte) ≠ 0x0D ∧ (line [] (some 0x0B)).rxNext = some 0x0B :=
  ⟨⟨legal_default, rfl⟩, by decide⟩

/-- One byte of room left. -/
theorem witness_TextByteIsStored :
    (line (List.replicate 15 0x31) (some 0x0C)).Running ∧ (line (List.replicate 15 0x31) (some 0x0C)).phase = .poll ∧
    (line (List.replicate 15 0x31) (some 0x0C)).cmdState = .collecting ∧ (0x0C : Byte) ≠ 0x0A ∧ (0x0C : Byte) ≠ 0x0D ∧
    (line (List.replicate 15 0x31) (some 0x0C)).len < Params.default.bufCap ∧
    (line (List.replicate 15 0x31) (some 0x0C)).rxNext = some 0x0C :=
  ⟨⟨legal_default, rfl⟩, by decide⟩

theorem witness_TextByteIsDroppedWhenFull :
    (line (List.replicate 16 0x31) (some 0x35)).Running ∧ (line (List.replicate 16 0x31) (some 0x35)).phase = .poll ∧
    (line (List.replicate 16 0x31) (some 0x35)).cmdState = .collecting ∧ (0x35 : Byte) ≠ 0x0A ∧ (0x35 : Byte) ≠ 0x0D ∧
    (line (List.replicate 16 0x31) (some 0x35)).len = Params.default.bufCap ∧
    (line (List.replicate 16 0x31) (some 0x35)).rxNext = some 0x35 :=
  ⟨⟨legal_default, rfl⟩, by decide⟩

/-- A line `S3` with a LF, and with a CR a line of each other kind of tag. -/
theorem witness_CommitAppliesTheLineAndClearsIt :
    (line [0x53, 0x33] (some 0x0A)).Running ∧ (line [0x53, 0x33] (some 0x0A)).phase = .poll ∧
    (line [0x53, 0x33] (some 0x0A)).cmdState = .collecting ∧ 1 ≤ (line [0x53, 0x33] (some 0x0A)).len ∧
    Memory.read (line [0x53, 0x33] (some 0x0A)).buf 0 = some 0x53 ∧
    (line [0x53, 0x33] (some 0x0A)).rxNext = some 0x0A ∧
    lineText (line [0x53, 0x33] (some 0x0A)) = .ok [0x33] ∧
    textValue Params.default [0x33] = some (int32 3) ∧
    Memory.read (line [0x50] (some 0x0D)).buf 0 = some 0x50 ∧ lineText (line [0x50] (some 0x0D)) = .ok [] ∧
    Memory.read (line [0x49] (some 0x0D)).buf 0 = some 0x49 ∧ lineText (line [0x49] (some 0x0D)) = .ok [] ∧
    Memory.read (line [0x44] (some 0x0D)).buf 0 = some 0x44 ∧ lineText (line [0x44] (some 0x0D)) = .ok [] ∧
    textValue Params.default [] = some .posZero ∧
    Memory.read (line [0x73] (some 0x0D)).buf 0 = some 0x73 ∧ (line [0x73] (some 0x0D)).rxNext = some 0x0D :=
  ⟨⟨legal_default, rfl⟩, by decide⟩

theorem witness_CommitIsItsDispatchRowThenTheClearing :
    (line [0x53, 0x33] (some 0x0A)).cmdState = .collecting ∧
    Memory.read (line [0x53, 0x33] (some 0x0A)).buf 0 = some 0x53 ∧
    (line [0x53, 0x33] (some 0x0A)).rxNext = some 0x0A ∧
    ∃ t, exec (decodeTag 0x53) (line [0x53, 0x33] (some 0x0A)).takeRx = .next t :=
  ⟨by decide, by decide, by decide, _, rfl⟩

/-- spec/95's NONFINITE line: BUF_CAP = 41, `P` and 39 digits `9`. -/
theorem witness_OverflowingTextRaisesNonfinite :
    (withLine { Params.default with bufCap := 41 } (0x50 :: List.replicate 39 0x39) (some 0x0A)).Running ∧
    (withLine { Params.default with bufCap := 41 } (0x50 :: List.replicate 39 0x39) (some 0x0A)).phase = .poll ∧
    (withLine { Params.default with bufCap := 41 } (0x50 :: List.replicate 39 0x39) (some 0x0A)).cmdState =
      .collecting ∧
    1 ≤ (withLine { Params.default with bufCap := 41 } (0x50 :: List.replicate 39 0x39) (some 0x0A)).len ∧
    Memory.read (withLine { Params.default with bufCap := 41 } (0x50 :: List.replicate 39 0x39) (some 0x0A)).buf 0 =
      some 0x50 ∧
    (withLine { Params.default with bufCap := 41 } (0x50 :: List.replicate 39 0x39) (some 0x0A)).rxNext = some 0x0A ∧
    isCommandTag 0x50 = true ∧
    lineText (withLine { Params.default with bufCap := 41 } (0x50 :: List.replicate 39 0x39) (some 0x0A)) =
      .ok (List.replicate 39 0x39) ∧
    textValue { Params.default with bufCap := 41 } (List.replicate 39 0x39) = none :=
  ⟨⟨by decide, rfl⟩, by decide⟩

/-- The value 0, the value 1023 and a value between, on the line `S3`. -/
theorem witness_SetpointCommandStoresTheClampedValue :
    (line [0x53, 0x33] none).Running ∧ (line [0x53, 0x33] none).phase = .poll ∧
    (line [0x53, 0x33] none).cmdState = .collecting ∧ 1 ≤ (line [0x53, 0x33] none).len ∧
    Memory.read (line [0x53, 0x33] none).buf 0 = some 0x53 ∧ lineText (line [0x53, 0x33] none) = .ok [0x33] ∧
    textValue Params.default [0x33] = some (int32 3) ∧
    (1 : ℚ) ≤ realOf .binary32 (int32 3) ∧ realOf .binary32 (int32 3) < (1023 : ℚ) ∧
    lineText (line [0x53, 0x30] none) = .ok [0x30] ∧ textValue Params.default [0x30] = some (int32 0) ∧
    realOf .binary32 (int32 0) < 1 ∧
    lineText (line [0x53, 0x31, 0x30, 0x32, 0x33] none) = .ok [0x31, 0x30, 0x32, 0x33] ∧
    textValue Params.default [0x31, 0x30, 0x32, 0x33] = some (int32 1023) ∧
    (1023 : ℚ) ≤ realOf .binary32 (int32 1023) := by
  refine ⟨⟨legal_default, rfl⟩, by decide, by decide, by decide, by decide, by decide, by decide, ?_, ?_, by decide,
    by decide, ?_, by decide, by decide, ?_⟩ <;> rw [realOf_int32] <;> norm_num

theorem witness_GainCommandsStoreTheValue :
    (line [0x50, 0x33] none).Running ∧ (line [0x50, 0x33] none).phase = .poll ∧
    (line [0x50, 0x33] none).cmdState = .collecting ∧ 1 ≤ (line [0x50, 0x33] none).len ∧
    lineText (line [0x50, 0x33] none) = .ok [0x33] ∧ textValue Params.default [0x33] = some (int32 3) ∧
    Memory.read (line [0x50, 0x33] none).buf 0 = some 0x50 ∧ Memory.read (line [0x49, 0x33] none).buf 0 = some 0x49 ∧
    lineText (line [0x49, 0x33] none) = .ok [0x33] ∧ Memory.read (line [0x44, 0x33] none).buf 0 = some 0x44 ∧
    lineText (line [0x44, 0x33] none) = .ok [0x33] :=
  ⟨⟨legal_default, rfl⟩, by decide⟩

theorem witness_UnrecognisedTagHasNoEffect :
    (line [0x73, 0x33] none).Running ∧ (line [0x73, 0x33] none).phase = .poll ∧
    (line [0x73, 0x33] none).cmdState = .collecting ∧ 1 ≤ (line [0x73, 0x33] none).len ∧
    Memory.read (line [0x73, 0x33] none).buf 0 = some 0x73 ∧ (0x73 : Byte) ≠ 0x53 ∧ (0x73 : Byte) ≠ 0x50 ∧
    (0x73 : Byte) ≠ 0x49 ∧ (0x73 : Byte) ≠ 0x44 ∧ (0x73 : Byte) ≠ 0x0A ∧ (0x73 : Byte) ≠ 0x0D :=
  ⟨⟨legal_default, rfl⟩, by decide⟩

theorem witness_PollIsTheRowOfItsByte :
    (line [0x53] (some 0x33)).phase = .poll ∧
    decode (.line (line [0x53] (some 0x33)).cmdState (line [0x53] (some 0x33)).len Params.default.bufCap)
      (line [0x53] (some 0x33)).rxNext.toList = .ok (.store 0x33) := by decide

/-- Also of TerminatorsResynchronise: the byte is a terminator. -/
theorem witness_PollAlwaysCompletes :
    (line [0x53, 0x33] (some 0x0A)).Inv ∧ (line [0x53, 0x33] (some 0x0A)).faults = [] ∧
    (line [0x53, 0x33] (some 0x0A)).phase = .poll ∧ (line [0x53, 0x33] (some 0x0A)).rxNext = some 0x0A ∧
    isTerminator 0x0A = true ∧ isTerminator 0x0D = true ∧ Params.default.numFmt = .binary32 ∧
    Params.default.bufCap ≤ 39 ∧ (line [0x53] none).rxNext = none :=
  ⟨inv_line, by decide⟩

/-- The line `S3` with LF, and with an unrecognised tag any value. -/
theorem witness_ReceivedLineAppliesItsFirstBytes :
    State.reset.Running ∧ State.reset.cmdState = .idle ∧ isTerminator 0x53 = false ∧ isTerminator 0x0A = true ∧
    (∀ b ∈ [(0x33 : Byte)], isTerminator b = false) ∧
    (isCommandTag 0x53 = true → textValue Params.default ([0x33].take (Params.default.bufCap - 1)) = some (int32 3)) ∧
    isTerminator 0x73 = false ∧ isCommandTag 0x73 = false :=
  ⟨⟨legal_default, rfl⟩, by decide⟩

/-! #### The sequencer -/

/-- One tick short of the interval. -/
theorem witness_ControlBeforeItsIntervalOnlyMovesOn :
    { pidAt 300 num06 .posZero .posZero .posZero 0 0 with nowLatch := 19 }.Running ∧
    { pidAt 300 num06 .posZero .posZero .posZero 0 0 with nowLatch := 19 }.phase = .ctrl ∧
    elapsed Params.default 19 10 < Params.default.controlInterval :=
  ⟨⟨legal_default, rfl⟩, by decide⟩

theorem witness_ControlStepActuatesThePidCount :
    (pidAt 300 num06 .posZero .posZero .posZero 0 200).Running ∧
    (pidAt 300 num06 .posZero .posZero .posZero 0 200).phase = .ctrl ∧
    Params.default.controlInterval ≤ elapsed Params.default 20 10 ∧
    (pidAt 300 num06 .posZero .posZero .posZero 0 200).adcNext = 200 ∧ 200 ≤ Params.default.sensorMax ∧
    pidOf (pidAt 300 num06 .posZero .posZero .posZero 0 200) 200 = some ⟨int32 100, 100, 60⟩ :=
  ⟨⟨legal_default, rfl⟩, by decide⟩

/-- The states of witness_PidOverflowRaisesNonfinite, their next sample 0. -/
theorem witness_ControlOverflowRaisesNonfinite :
    (overflowing.Running ∧ overflowing.phase = .ctrl ∧
      overflowing.params.controlInterval ≤
        elapsed overflowing.params overflowing.nowLatch overflowing.lastControlTime ∧
      overflowing.adcNext ≤ overflowing.params.sensorMax ∧
      (300 : Int) = (if ((overflowing.setpoint : Int) - overflowing.adcNext).natAbs < overflowing.params.deadband then 0
        else (overflowing.setpoint : Int) - overflowing.adcNext) ∧
      PidOverflows overflowing 300) ∧
    idling.Running ∧ idling.phase = .ctrl ∧
    idling.params.controlInterval ≤ elapsed idling.params idling.nowLatch idling.lastControlTime ∧
    idling.adcNext ≤ idling.params.sensorMax ∧
    (0 : Int) = (if ((idling.setpoint : Int) - idling.adcNext).natAbs < idling.params.deadband then 0
      else (idling.setpoint : Int) - idling.adcNext) ∧
    ¬ PidOverflows idling 0 :=
  ⟨⟨⟨legal_default, rfl⟩, rfl, by decide, by decide, by decide, overflowing_overflows⟩,
    ⟨legal_default, rfl⟩, rfl, by decide, by decide, by decide, idling_fits⟩

theorem witness_ReportBeforeItsIntervalOnlyMovesOn :
    { reportAt .latched with nowLatch := 99 }.Running ∧ { reportAt .latched with nowLatch := 99 }.phase = .rpt ∧
    elapsed Params.default 99 0 < Params.default.reportInterval :=
  ⟨⟨by decide, rfl⟩, by decide⟩

/-- Both report sources. -/
theorem witness_ReportStepEmitsTheReport :
    (reportAt .latched).Running ∧ (reportAt .latched).phase = .rpt ∧
    Params.default.reportInterval ≤ elapsed Params.default 100 0 ∧ (reportAt .latched).params.reportSrc = .latched ∧
    (reportAt .fresh).Running ∧ (reportAt .fresh).phase = .rpt ∧ (reportAt .fresh).params.reportSrc = .fresh ∧
    (reportAt .fresh).adcNext ≤ Params.default.sensorMax :=
  ⟨⟨by decide, rfl⟩, by decide, by decide, by decide, ⟨by decide, rfl⟩, by decide⟩

/-- An operation that writes phase and one that does not. -/
theorem witness_PhasesFollowTheCycle :
    (∃ t, exec .snap { line [0x53] none with phase := .snap } = .next t ∧ t.faults = []) ∧
    ∃ t, exec .tick State.reset = .next t ∧ t.faults = [] := ⟨⟨_, rfl, rfl⟩, _, rfl, rfl⟩

theorem witness_TheBlockAlwaysHasAStep :
    (pidAt 300 num06 num005 .posZero (int32 6600) 300 0).Inv ∧
    (pidAt 300 num06 num005 .posZero (int32 6600) 300 0).faults = [] ∧
    (pidAt 300 num06 num005 .posZero (int32 6600) 300 0).adcNext ≤ 1023 :=
  ⟨inv_pidAt, rfl, by decide⟩

theorem witness_ControlStepsAreAnIntervalApart :
    ∃ t, exec .ctrl (pidAt 300 num06 .posZero .posZero .posZero 0 200) = .next t ∧ t.lastControlTime ≠ 10 ∧
      t.actOut ≠ 0 := ⟨_, rfl, by decide, by decide⟩

theorem witness_CommandsReachTheSameIterationsPidStep :
    (∀ i ∈ [Instr.tick, .snap, .tick], i = .tick ∨ i = .snap) ∧
    ∃ t, runAll [.tick, .snap, .tick] { line [] none with phase := .snap } = some t := ⟨by decide, _, rfl⟩

/-! #### The whole machine -/

theorem witness_OperationsWriteOnlyTheirElements :
    (∃ t, exec (.store 0x33) (line [0x53] (some 0x33)) = .next t) ∧ Reg.setpoint ∉ mayWrite (.store 0x33) :=
  ⟨⟨_, rfl⟩, by decide⟩

theorem witness_OperationsStoreOnlyTheirByte :
    (∃ t, exec (.store 0x33) (line [0x53] (some 0x33)) = .next t) ∧
    storedIndex (.store 0x33) (line [0x53] (some 0x33)) ≠ some 0 ∧
    storedIndex .poll (line [0x53] (some 0x33)) = some 1 ∧ storedIndex .poll (line [0x53] (some 0x0A)) ≠ some 0 :=
  ⟨⟨_, rfl⟩, by decide⟩

theorem witness_RaisingStepsWriteOnlyTheFaultSet :
    ∃ t, exec (.pidStep 0) overflowing = .next t ∧
      t.faults ≠ [] := ⟨_, rfl, by decide⟩

theorem witness_FaultedBlockTakesNoStep :
    { State.reset with faults := [.nonfinite] }.params.legal = true ∧
    { State.reset with faults := [.nonfinite] }.faults ≠ [] := by decide

/-- D31's examples: MAX_COUNT ≤ MIN_COUNT, BUF_CAP = 0. -/
theorem witness_IllegalParametersAreRefused :
    (State.resetOf { Params.default with maxCount := 0 }).params.legal = false ∧
    (State.resetOf { Params.default with bufCap := 0 }).params.legal = false := by decide

/-- The tick agent; the sequencer at each phase. -/
theorem witness_StepRunsTheSelectedOperation :
    { State.reset with env := ⟨[.tick], [], [], 0, 0, 0⟩ }.agentNext = .tick ∧
    { State.reset with env := ⟨[.sequencer], [some 0x53], [], 0, 0, 0⟩ }.agentNext = .sequencer ∧
    { State.reset with env := ⟨[.sequencer], [some 0x53], [], 0, 0, 0⟩ }.phase = .poll ∧
    decode (.line .idle 0 16) [0x53] = .ok (.tag 0x53) ∧
    { State.reset with env := ⟨[.sequencer], [some 0x53], [], 0, 0, 0⟩ }.rxNext.toList = [0x53] ∧
    { State.reset with phase := .snap, env := ⟨[.sequencer], [], [], 0, 0, 0⟩ }.agentNext = .sequencer ∧
    { State.reset with phase := .ctrl, env := ⟨[.sequencer], [], [], 0, 0, 0⟩ }.agentNext = .sequencer ∧
    { State.reset with phase := .rpt, env := ⟨[.sequencer], [], [], 0, 0, 0⟩ }.agentNext = .sequencer := by decide

/-- At CTRL and at RPT, nothing done since reset, with this snapshot and this sample to come. -/
def firstAt (ph : Phase) (now : Nat) : State :=
  { State.reset with phase := ph, nowLatch := now, env := { Env.free with adc := [200] } }

theorem inv_firstAt : (firstAt .ctrl 9).Inv ∧ (firstAt .ctrl 10).Inv ∧ (firstAt .rpt 99).Inv ∧ (firstAt .rpt 100).Inv := by
  refine ⟨?_, ?_, ?_, ?_⟩ <;> constructor <;> decide

/-- One tick short of each interval, and at it. -/
theorem witness_FirstStepsAfterResetWaitForTheirInterval :
    (firstAt .ctrl 9).Inv ∧ (firstAt .ctrl 10).Inv ∧ (firstAt .rpt 99).Inv ∧ (firstAt .rpt 100).Inv ∧
    (firstAt .ctrl 9).faults = [] ∧ (firstAt .ctrl 9).adcNext ≤ Params.default.sensorMax ∧
    (firstAt .ctrl 9).phase = .ctrl ∧ (firstAt .ctrl 9).lastControlTime = 0 ∧
    9 < Params.default.controlInterval ∧ Params.default.controlInterval ≤ 10 ∧
    (firstAt .rpt 99).phase = .rpt ∧ (firstAt .rpt 99).lastReportTime = 0 ∧
    99 < Params.default.reportInterval ∧ Params.default.reportInterval ≤ 100 :=
  ⟨inv_firstAt.1, inv_firstAt.2.1, inv_firstAt.2.2.1, inv_firstAt.2.2.2, by decide⟩

/-- One iteration after reset with a tick in it. -/
theorem witness_ResetValuesHoldUntilTheFirstInterval :
    Params.default.legal = true ∧
    (∃ t, runAll [.rxNone, .tick, .snap, .ctrl, .rpt]
      { State.resetOf Params.default with env := { Env.free with rx := [none] } } = some t) ∧
    [Instr.rxNone, .tick, .snap, .ctrl, .rpt].count .tick < Params.default.controlInterval ∧
    [Instr.rxNone, .tick, .snap, .ctrl, .rpt].count .tick < Params.default.reportInterval :=
  ⟨legal_default, ⟨_, rfl⟩, by decide, by decide⟩

theorem witness_ResetSatisfiesTheRanges : Params.default.legal = true := legal_default

theorem witness_EveryStepKeepsTheRanges :
    { State.reset with env := ⟨[.tick], [], [], 0, 0, 0⟩ }.Inv ∧
    ∃ t, step { State.reset with env := ⟨[.tick], [], [], 0, 0, 0⟩ } = .next t :=
  ⟨by constructor <;> decide, _, rfl⟩

theorem witness_EveryOperationKeepsTheRanges :
    (pidAt 300 num06 num005 .posZero (int32 6600) 300 0).Inv ∧
    ∃ t, exec .ctrl (pidAt 300 num06 num005 .posZero (int32 6600) 300 0) = .next t := ⟨inv_pidAt, _, rfl⟩

theorem witness_ActuatorCountFitsItsSignal : State.reset.Inv := inv_reset

end Sys2Proof.Tests
end

section
/-! SUPPORT. Rounding is nearest, ties to even (R9): first on whole multiples of a spacing, then among all values of
the format, then on the exact rationals. -/

namespace Sys2Proof

open Machine

/-! ### The nearest multiple -/

/-- Exactly half a unit away, rounding has taken the even neighbour. -/
theorem roundHalfEven_even_of_half {n d : Nat} (h : 2 * (roundHalfEven n d * d - n : Int).natAbs = d) (hd : 0 < d) :
    roundHalfEven n d % 2 = 0 := by
  have hdiv : n / d * d + n % d = n := Nat.div_add_mod' n d
  have hmod := Nat.mod_lt n hd
  unfold roundHalfEven at h ⊢
  generalize n / d = q at *
  generalize n % d = r at *
  subst hdiv
  have hs : ((q + 1 : Nat) : Int) * d = q * d + d := by push_cast; ring
  split at h
  · push_cast at h; omega
  · split at h
    · rw [hs] at h; push_cast at h; omega
    · simp only [*, if_false]
      split <;> omega

/-- Every multiple of d but the rounded one is at least half of d away from n. -/
theorem le_two_mul_natAbs_of_ne {n d : Nat} (hd : 0 < d) {k : Int} (hk : k ≠ roundHalfEven n d) :
    d ≤ 2 * (k * d - n).natAbs := by
  have hhalf := roundHalfEven_bounds n hd
  have hgap : d ≤ (k * d - roundHalfEven n d * d : Int).natAbs := by
    rw [← sub_mul, Int.natAbs_mul, Int.natAbs_natCast]
    exact Nat.le_mul_of_pos_left d (Int.natAbs_pos.2 (sub_ne_zero.2 hk))
  zify at hhalf
  omega

/-- The rounded multiple is at most half of d away from n. -/
theorem two_mul_natAbs_roundHalfEven_le (n : Nat) {d : Nat} (hd : 0 < d) :
    2 * (roundHalfEven n d * d - n : Int).natAbs ≤ d := by
  have hhalf := roundHalfEven_bounds n hd
  zify at hhalf
  omega

/-- No multiple of d is nearer n than the rounded one. -/
theorem roundHalfEven_nearest (n : Nat) {d : Nat} (hd : 0 < d) (k : Int) :
    (roundHalfEven n d * d - n : Int).natAbs ≤ (k * d - n).natAbs := by
  have hr := two_mul_natAbs_roundHalfEven_le n hd
  by_cases hk : k = roundHalfEven n d
  · rw [hk]
  · have := le_two_mul_natAbs_of_ne hd hk
    omega

/-- Where another multiple of d is as near n, the rounded one is even. -/
theorem roundHalfEven_even_of_tie {n d : Nat} (hd : 0 < d) {k : Int} (hk : k ≠ roundHalfEven n d)
    (htie : (roundHalfEven n d * d - n : Int).natAbs = (k * d - n).natAbs) : roundHalfEven n d % 2 = 0 := by
  have hr := two_mul_natAbs_roundHalfEven_le n hd
  have := le_two_mul_natAbs_of_ne hd hk
  exact roundHalfEven_even_of_half (by omega) hd

/-! ### The values of the format around a magnitude -/

theorem inFmt_iff {f : NumFmt} {z : NumVal} :
    z.inFmt f = true ↔ 2 ^ f.spacingExp z.mag ∣ z.mag ∧ z.mag < f.overflow := by
  simp [NumVal.inFmt, Nat.dvd_iff_mod_eq_zero]

/-- A value of the format is a multiple of the spacing at m, or lies below a multiple of it that m reaches. -/
theorem inFmt_multiple_or_below {f : NumFmt} {z : NumVal} (hz : z.inFmt f = true) (m : Nat) :
    (∃ k : Int, z.toInt = k * (2 ^ f.spacingExp m : Nat)) ∨
      ∃ k : Int, z.toInt < k * (2 ^ f.spacingExp m : Nat) ∧ k * (2 ^ f.spacingExp m : Nat) ≤ m := by
  rcases Nat.lt_or_ge (f.spacingExp z.mag) (f.spacingExp m) with hlt | hge
  · right
    have hp := prec_pos f
    have hz_lt : z.mag < 2 ^ (f.spacingExp m + f.prec - 1) :=
      (lt_spacing f z.mag).trans_le (Nat.pow_le_pow_right (by norm_num) (by omega))
    have hm : 2 ^ (f.spacingExp m + f.prec - 1) ≤ m := spacing_le (by omega)
    have hsplit : 2 ^ (f.prec - 1) * 2 ^ f.spacingExp m = 2 ^ (f.spacingExp m + f.prec - 1) := by
      rw [← pow_add]; congr 1; omega
    refine ⟨(2 ^ (f.prec - 1) : Nat), ?_⟩
    rw [← Nat.cast_mul, hsplit]
    unfold NumVal.toInt
    constructor
    · split <;> omega
    · omega
  · left
    obtain ⟨q, hq⟩ := (pow_dvd_pow 2 hge).trans (inFmt_iff.1 hz).1
    have hmag : (z.mag : Int) = q * (2 ^ f.spacingExp m : Nat) := by rw [← Nat.cast_mul, Nat.mul_comm, ← hq]
    unfold NumVal.toInt
    split
    · exact ⟨-q, by rw [hmag, neg_mul]⟩
    · exact ⟨q, hmag⟩

/-- A magnitude of at least 2^(e + prec - 1) has a spacing of at least 2^e. -/
theorem le_spacingExp {f : NumFmt} {m e : Nat} (h : 2 ^ (e + f.prec - 1) ≤ m) : e ≤ f.spacingExp m := by
  have hm : m ≠ 0 := (h.trans_lt' (by positivity)).ne'
  have := (Nat.le_log2 hm).2 h
  unfold NumFmt.spacingExp
  omega

/-- A rounded magnitude is its significand, the rounded quotient, times the spacing; none from the threshold on. -/
theorem roundMag_eq_some {f : NumFmt} {n d m : Nat} :
    roundMag f n d = some m ↔ n < f.overflow * d ∧
      roundHalfEven n (d * 2 ^ f.spacingExp (n / d)) * 2 ^ f.spacingExp (n / d) = m := by
  unfold roundMag
  split <;> simp <;> omega

/-- The significand of a rounded magnitude has at most prec bits, or is 2^prec where rounding carries. -/
theorem significand_le (f : NumFmt) (n : Nat) {d : Nat} (hd : 0 < d) :
    roundHalfEven n (d * 2 ^ f.spacingExp (n / d)) ≤ 2 ^ f.prec := by
  have hn := (Nat.div_lt_iff_lt_mul hd).1 (lt_spacing f (n / d))
  exact roundHalfEven_le (by positivity) (hn.le.trans_eq (by rw [pow_add]; ring))

/-- Beyond the subnormals the significand of a rounded magnitude is normalised. -/
theorem le_significand {f : NumFmt} {n d : Nat} (hd : 0 < d) (he : 0 < f.spacingExp (n / d)) :
    2 ^ (f.prec - 1) ≤ roundHalfEven n (d * 2 ^ f.spacingExp (n / d)) := by
  have hn := (Nat.le_div_iff_mul_le hd).1 (spacing_le he)
  have hp := prec_pos f
  rw [show f.spacingExp (n / d) + f.prec - 1 = f.prec - 1 + f.spacingExp (n / d) by omega, pow_add] at hn
  exact le_roundHalfEven (by positivity) (hn.trans_eq' (by ring))

/-- A significand below 2^prec needs no larger spacing than its own. -/
theorem spacingExp_mul_le {f : NumFmt} {r : Nat} (e : Nat) (hr : r < 2 ^ f.prec) : f.spacingExp (r * 2 ^ e) ≤ e :=
  spacingExp_le (by rw [pow_add, Nat.mul_comm]; exact Nat.mul_lt_mul_of_pos_left hr (by positivity))

/-- The significand 2^prec carries into the next spacing. -/
theorem spacingExp_carry (f : NumFmt) (e : Nat) : f.spacingExp (2 ^ f.prec * 2 ^ e) = e + 1 := by
  rw [← pow_add, NumFmt.spacingExp, Nat.log2_two_pow]
  omega

/-- A significand of at most 2^prec gives a multiple of the spacing at its magnitude. -/
theorem spacing_dvd {f : NumFmt} {r : Nat} (e : Nat) (hr : r ≤ 2 ^ f.prec) :
    2 ^ f.spacingExp (r * 2 ^ e) ∣ r * 2 ^ e := by
  rcases hr.lt_or_eq with hlt | rfl
  · exact (pow_dvd_pow 2 (spacingExp_mul_le e hlt)).mul_left r
  · rw [spacingExp_carry, ← pow_add]
    exact pow_dvd_pow 2 (by have := prec_pos f; omega)

/-- A normalised or subnormal significand r of spacing 2^e that is even stays even where r * 2^e is read with its own
spacing, a carry to 2^prec included. -/
theorem significand_even {f : NumFmt} {e r : Nat} (hlo : 0 < e → 2 ^ (f.prec - 1) ≤ r) (hhi : r ≤ 2 ^ f.prec)
    (hr : r % 2 = 0) : r * 2 ^ e / 2 ^ f.spacingExp (r * 2 ^ e) % 2 = 0 := by
  rcases hhi.lt_or_eq with hlt | rfl
  · have hge : e ≤ f.spacingExp (r * 2 ^ e) := by
      rcases Nat.eq_zero_or_pos e with rfl | he
      · exact Nat.zero_le _
      · have := prec_pos f
        refine le_spacingExp ?_
        rw [show e + f.prec - 1 = f.prec - 1 + e by omega, pow_add]
        exact Nat.mul_le_mul_right _ (hlo he)
    rw [(spacingExp_mul_le e hlt).antisymm hge, Nat.mul_div_cancel _ (by positivity), hr]
  · have hp : f.prec = f.prec - 2 + 2 := by cases f <;> rfl
    rw [spacingExp_carry, hp, show 2 ^ (f.prec - 2 + 2) * 2 ^ e = 2 ^ (f.prec - 2) * 2 * 2 ^ (e + 1) by ring,
      Nat.mul_div_cancel _ (by positivity), Nat.mul_mod_left]

/-! ### The nearest value of the format -/

section
variable {f : NumFmt} {n d m : Nat} {z : NumVal}

theorem mul_spacing (k : Int) (e d : Nat) : k * (2 ^ e : Nat) * d = k * (d * 2 ^ e : Nat) := by
  push_cast; ring

/-- A value of the format is a multiple of the spacing at n / d, or such a multiple is nearer n / d (distances
multiplied by d). -/
theorem inFmt_multiple_or_nearer (hd : 0 < d) (hz : z.inFmt f = true) :
    (∃ k : Int, z.toInt = k * (2 ^ f.spacingExp (n / d) : Nat)) ∨
      ∃ k : Int, (k * (d * 2 ^ f.spacingExp (n / d) : Nat) - n : Int).natAbs < (z.toInt * d - n).natAbs := by
  refine (inFmt_multiple_or_below hz (n / d)).imp_right fun ⟨k, hlt, hle⟩ => ⟨k, ?_⟩
  have hd' : (0 : Int) < d := by exact_mod_cast hd
  have hlt := mul_lt_mul_of_pos_right hlt hd'
  have hle : k * (2 ^ f.spacingExp (n / d) : Nat) * d ≤ n :=
    (mul_le_mul_of_nonneg_right hle hd'.le).trans (by exact_mod_cast Nat.div_mul_le_self n d)
  rw [← mul_spacing]
  omega

/-- No value of the format is nearer n / d than the rounded magnitude (distances multiplied by d). -/
theorem roundMag_nearest (hd : 0 < d) (h : roundMag f n d = some m) (hz : z.inFmt f = true) :
    (m * d - n : Int).natAbs ≤ (z.toInt * d - n).natAbs := by
  obtain ⟨-, rfl⟩ := roundMag_eq_some.1 h
  have hnear := roundHalfEven_nearest n (d := d * 2 ^ f.spacingExp (n / d)) (by positivity)
  rw [Nat.cast_mul, mul_spacing]
  rcases inFmt_multiple_or_nearer (n := n) hd hz with ⟨k, hk⟩ | ⟨k, hlt⟩
  · rw [hk, mul_spacing]
    exact hnear k
  · exact (hnear k).trans hlt.le

/-- Where another value of the format is as near n / d, the rounded magnitude has an even significand. -/
theorem roundMag_even_of_tie (hd : 0 < d) (h : roundMag f n d = some m) (hz : z.inFmt f = true) (hne : z.toInt ≠ m)
    (htie : (m * d - n : Int).natAbs = (z.toInt * d - n).natAbs) : m / 2 ^ f.spacingExp m % 2 = 0 := by
  obtain ⟨-, rfl⟩ := roundMag_eq_some.1 h
  have hpos : 0 < d * 2 ^ f.spacingExp (n / d) := by positivity
  refine significand_even (le_significand hd) (significand_le f n hd) ?_
  rw [Nat.cast_mul, mul_spacing] at htie
  rcases inFmt_multiple_or_nearer (n := n) hd hz with ⟨k, hk⟩ | ⟨k, hlt⟩
  · rw [hk, mul_spacing] at htie
    refine roundHalfEven_even_of_tie hpos (fun h => hne ?_) htie
    rw [hk, h, Nat.cast_mul]
  · have := roundHalfEven_nearest n hpos k
    omega

end

/-! ### The exact rationals -/

/-- A value counted against the direction `neg`: its sign is flipped where `neg` is set. -/
def NumVal.along (neg : Bool) (z : NumVal) : NumVal := ⟨z.neg != neg, z.mag⟩

theorem along_inFmt (f : NumFmt) (neg : Bool) (z : NumVal) : (z.along neg).inFmt f = z.inFmt f := rfl

theorem along_toInt (neg : Bool) (z : NumVal) : (z.along neg).toInt = (if neg then -1 else 1) * z.toInt := by
  cases neg <;> cases hz : z.neg <;> simp [NumVal.along, NumVal.toInt, hz]

@[simp] theorem along_mk_toInt (neg : Bool) (m : Nat) : (NumVal.along neg ⟨neg, m⟩).toInt = m := by
  simp [NumVal.along, NumVal.toInt]

theorem along_toInt_inj {neg : Bool} {y z : NumVal} (h : (y.along neg).toInt = (z.along neg).toInt) :
    y.toInt = z.toInt := by
  cases neg <;> simpa [along_toInt] using h

/-- The exact value of sign `neg` and magnitude n / d units. -/
def exactValue (f : NumFmt) (neg : Bool) (n d : Nat) : ℚ := (if neg then -1 else 1) * ((n : ℚ) / d) / f.one

theorem abs_exactValue (f : NumFmt) (neg : Bool) (n d : Nat) : |exactValue f neg n d| = n / (d * f.one) := by
  cases neg <;> simp [exactValue, abs_div, div_div]

/-- The distance of a value from an exact one, counted in units and multiplied by d. -/
theorem abs_realOf_sub_exactValue (f : NumFmt) (neg : Bool) (n : Nat) {d : Nat} (hd : 0 < d) (z : NumVal) :
    |realOf f z - exactValue f neg n d| = (((z.along neg).toInt * d - n).natAbs : ℚ) / (d * f.one) := by
  have hd' : (d : ℚ) ≠ 0 := by positivity
  have h1 : (f.one : ℚ) ≠ 0 := by have := one_pos f; positivity
  have hsign : |(if neg then -1 else 1 : ℚ)| = 1 := by cases neg <;> simp
  have hsq : (if neg then -1 else 1 : ℚ) * (if neg then -1 else 1) = 1 := by cases neg <;> simp
  have hpos : |(d : ℚ) * f.one| = d * f.one := abs_of_nonneg (by positivity)
  rw [along_toInt, Nat.cast_natAbs, ← hpos, Int.cast_abs, ← abs_div, ← one_mul |_ / _|, ← hsign, ← abs_mul]
  congr 1
  push_cast
  unfold realOf exactValue
  generalize (if neg then -1 else 1 : ℚ) = σ at *
  field_simp
  linear_combination (-(z.toInt * d : ℚ)) * hsq

/-- The overflow threshold of the model is that of R9. -/
theorem overflowReal_mul_one (f : NumFmt) : overflowReal f * f.one = f.overflow := by
  have hle : (2 : Nat) ^ 970 ≤ 2 ^ 1024 := pow_right_mono₀ one_le_two (by norm_num)
  cases f
  · norm_num [overflowReal, NumFmt.overflow]
  · simp only [overflowReal, NumFmt.overflow, Nat.cast_mul, Nat.cast_sub hle, Nat.cast_pow, Nat.cast_ofNat]

theorem overflowReal_le_iff (f : NumFmt) (n : Nat) {d : Nat} (hd : 0 < d) :
    overflowReal f ≤ (n : ℚ) / (d * f.one) ↔ f.overflow * d ≤ n := by
  have := one_pos f
  rw [le_div_iff₀ (by positivity), mul_left_comm, overflowReal_mul_one, mul_comm]
  norm_cast

/-- R9: rnd answers the nearest value, ties to even, and overflows exactly from the threshold on. -/
theorem rnd_roundsTo (f : NumFmt) (neg : Bool) (n : Nat) {d : Nat} (hd : 0 < d) :
    RoundsTo f (exactValue f neg n d) (NumVal.rnd f neg n d) := by
  cases hm : roundMag f n d with
  | none =>
    simp only [NumVal.rnd, hm, Option.map_none, RoundsTo, abs_exactValue, overflowReal_le_iff f n hd]
    by_contra hlt
    simp [roundMag, hlt] at hm
  | some m =>
    have hlt := (roundMag_eq_some.1 hm).1
    have hden : (0 : ℚ) ≤ d * f.one := by positivity
    simp only [NumVal.rnd, hm, Option.map_some, RoundsTo]
    refine ⟨?_, ⟨roundMag_inFmt hd hm, fun z hz => ?_⟩, fun ⟨z, hz, hne, htie⟩ => ?_⟩
    · rw [abs_exactValue, ← not_le, overflowReal_le_iff f n hd]
      exact hlt.not_ge
    · simp only [abs_realOf_sub_exactValue f neg n hd, along_mk_toInt]
      exact div_le_div_of_nonneg_right (by exact_mod_cast roundMag_nearest hd hm ((along_inFmt f neg z).trans hz)) hden
    · simp only [abs_realOf_sub_exactValue f neg n hd, along_mk_toInt] at htie
      refine roundMag_even_of_tie hd hm ((along_inFmt f neg z).trans hz) (fun h => hne ?_) ?_
      · rw [realOf, along_toInt_inj (h.trans (along_mk_toInt neg m).symm), realOf]
      · have := one_pos f
        rw [div_left_inj' (by positivity)] at htie
        exact_mod_cast htie

/-- Settles O5: the statement names the exact value of rnd's arguments. -/
theorem roundingIsNearestTiesToEven : Obligations.RoundingIsNearestTiesToEven :=
  fun f neg n _ hd => rnd_roundsTo f neg n hd

/-! ### The operations -/

/-- The exact value of a value of the format. -/
theorem realOf_eq_exactValue (f : NumFmt) (x : NumVal) : realOf f x = exactValue f x.neg x.mag 1 := by
  cases hx : x.neg <;> simp [realOf, exactValue, NumVal.toInt, hx]

/-- An integer is its magnitude with its sign; a zero may have either. -/
theorem sign_mul_natAbs {neg : Bool} {z : Int} (h : z ≠ 0 → neg = decide (z < 0)) :
    (if neg then -1 else 1 : ℚ) * z.natAbs = z := by
  rcases lt_trichotomy z 0 with hz | rfl | hz
  · simp [h hz.ne, hz, abs_of_neg (Int.cast_lt_zero.2 hz : (z : ℚ) < 0)]
  · simp
  · simp [h hz.ne', hz.not_gt, abs_of_pos (Int.cast_pos.2 hz : (0 : ℚ) < z)]

theorem add_roundsTo (f : NumFmt) (a b : NumVal) : RoundsTo f (realOf f a + realOf f b) (NumVal.add f a b) := by
  have hx : realOf f a + realOf f b = ((a.toInt + b.toInt : Int) : ℚ) / f.one := by
    rw [realOf, realOf, ← add_div, Int.cast_add]
  have h := rnd_roundsTo f (if a.toInt + b.toInt = 0 then a.neg && b.neg else decide (a.toInt + b.toInt < 0))
    (a.toInt + b.toInt).natAbs Nat.one_pos
  rwa [exactValue, Nat.cast_one, div_one, sign_mul_natAbs fun hz => if_neg hz, ← hx] at h

theorem mul_roundsTo (f : NumFmt) (a b : NumVal) : RoundsTo f (realOf f a * realOf f b) (NumVal.mul f a b) := by
  have hx : realOf f a * realOf f b = exactValue f (a.neg != b.neg) (a.mag * b.mag) f.one := by
    rw [realOf_eq_exactValue, realOf_eq_exactValue]
    cases a.neg <;> cases b.neg <;> simp [exactValue] <;> ring
  rw [hx]
  exact rnd_roundsTo f _ _ (one_pos f)

theorem ofInt_roundsTo (f : NumFmt) (n : Int) : RoundsTo f n (NumVal.ofInt f n) := by
  have h1 : (f.one : ℚ) ≠ 0 := by have := one_pos f; positivity
  have h := rnd_roundsTo f (decide (n < 0)) (n.natAbs * f.one) Nat.one_pos
  rwa [exactValue, Nat.cast_one, div_one, Nat.cast_mul, ← mul_assoc, sign_mul_natAbs fun _ => rfl,
    mul_div_cancel_right₀ _ h1] at h

theorem ofDec_roundsTo (f : NumFmt) (neg : Bool) (n k : Nat) :
    RoundsTo f (decReal neg n k) (NumVal.ofDec f neg n k) := by
  have hx : decReal neg n k = exactValue f neg (n * f.one) (10 ^ k) := by
    have h1 : (f.one : ℚ) ≠ 0 := by have := one_pos f; positivity
    unfold decReal exactValue
    push_cast
    field_simp
  rw [hx]
  exact rnd_roundsTo f neg _ (by positivity)

/-- Settles O6: the exact value of each operation is the one its rnd is given. -/
theorem arithmeticRoundsTheExactValueOnce : Obligations.ArithmeticRoundsTheExactValueOnce :=
  fun f => ⟨add_roundsTo f, mul_roundsTo f, ofInt_roundsTo f, ofDec_roundsTo f⟩

/-! ### Integers -/

/-- The unit is a power of two, well below the largest spacing. -/
theorem one_eq_two_pow (f : NumFmt) : ∃ k, f.one = 2 ^ k ∧ k + 1 ≤ topSpacing f := by
  cases f
  · exact ⟨149, rfl, by decide⟩
  · exact ⟨1074, rfl, by decide⟩

/-- An integer of at most prec bits, or 2^prec itself, is a value of the format. -/
theorem representable_of_le {f : NumFmt} {n : Nat} (hn : n ≤ 2 ^ f.prec) : representable f n = true := by
  obtain ⟨k, hk, htop⟩ := one_eq_two_pow f
  have hlt : 2 * (n * 2 ^ k) < 2 * f.overflow := by
    have h2 : 2 ≤ 2 ^ f.prec := Nat.le_self_pow (prec_pos f).ne' 2
    calc 2 * (n * 2 ^ k) ≤ 2 ^ f.prec * 2 ^ (k + 1) := by
          rw [pow_succ]; nlinarith [Nat.mul_le_mul_right (2 ^ k) hn]
      _ ≤ 2 ^ f.prec * 2 ^ topSpacing f := Nat.mul_le_mul_left _ (Nat.pow_le_pow_right Nat.two_pos htop)
      _ < (2 * 2 ^ f.prec - 1) * 2 ^ topSpacing f := Nat.mul_lt_mul_of_pos_right (by omega) (by positivity)
      _ = 2 * f.overflow := (overflow_eq f).symm
  exact inFmt_iff.2 ⟨hk ▸ spacing_dvd k hn, by simp only [hk]; omega⟩

/-- Settles O7: such an integer is representable, and a representable one rounds to itself. -/
theorem smallIntegersAreExact : Obligations.SmallIntegersAreExact :=
  fun _ _ hn => ofInt_of_representable (representable_of_le hn) rfl

end Sys2Proof
end

section
/-! SUPPORT. Which operation a step runs, and that none runs in an illegal configuration. -/

namespace Sys2Proof.Machine

open Sys2Proof

variable {s : State}

/-- Every operation runs behind the gate of R6 and R112. -/
theorem exec_eq_gate (i : Instr) (s : State) : ∃ enabled result, exec i s = gate s enabled result := by
  cases i <;> exact ⟨_, _, rfl⟩

/-- R6: an illegal configuration refuses every operation. -/
theorem exec_illegal (hl : s.params.legal = false) (i : Instr) : exec i s = .refused .illegalParams := by
  obtain ⟨enabled, result, h⟩ := exec_eq_gate i s
  rw [h, gate_illegal hl]

/-- Settles O52: the agent's choice leaves the parameters, and no operation passes the gate. -/
theorem illegalParametersAreRefused : Obligations.IllegalParametersAreRefused :=
  fun s hl => ⟨exec_illegal (s := s.takeAgent) hl (fetch s), exec_illegal hl⟩

/-- Where the tick agent moves, a step is TICK. -/
theorem step_of_tick (h : s.agentNext = .tick) : step s = exec .tick s.takeAgent := by
  simp [step, fetch, h]

/-- Where the sequencer moves, a step is its next operation. -/
theorem step_of_sequencer (h : s.agentNext = .sequencer) : step s = exec (sequencerNext s) s.takeAgent := by
  simp [step, fetch, h]

/-- A poll result decodes to its row, one byte or none. -/
theorem decode_line_toList (cs : CmdState) (len cap : Nat) (r : Option Byte) :
    decode (.line cs len cap) r.toList = .ok (decodeRx cs len cap r) := by
  cases r <;> rfl

/-- At POLL the sequencer's operation is the row its poll result decodes to. -/
theorem sequencerNext_of_poll {i : Instr} (hp : s.phase = .poll)
    (hi : decode (.line s.cmdState s.len s.params.bufCap) s.rxNext.toList = .ok i) : sequencerNext s = i := by
  rw [decode_line_toList] at hi
  simpa [sequencerNext, hp] using hi

/-- Settles O53, by the agent that moves and, for the sequencer, by the phase. -/
theorem stepRunsTheSelectedOperation : Obligations.StepRunsTheSelectedOperation := by
  refine fun s => ⟨step_of_tick, fun hseq => ?_, rfl⟩
  rw [step_of_sequencer hseq]
  refine ⟨fun i hp hi => ?_, fun hp => ?_, fun hp => ?_, fun hp => ?_⟩
  · rw [sequencerNext_of_poll hp hi]
  all_goals simp [sequencerNext, hp]

end Sys2Proof.Machine
end

section
/-! SUPPORT. The frame of every operation (R13 "written by"): the elements each state update can change, and from them
the elements each operation can. -/

namespace Sys2Proof.Machine

open Sys2Proof

variable {s t u : State} {ws ws' : List Reg}

/-- Every element outside the list is the same in both states. -/
def Frame (ws : List Reg) (s t : State) : Prop := ∀ r, r ∉ ws → r.same s t

theorem Reg.same_refl (r : Reg) (s : State) : r.same s s := by cases r <;> simp [Reg.same]

theorem Reg.same_trans {r : Reg} (h : r.same s t) (h' : r.same t u) : r.same s u := by
  cases r <;> simp_all [Reg.same]

theorem Frame.refl (s : State) : Frame [] s s := fun r _ => r.same_refl s

theorem Frame.trans (h : Frame ws s t) (h' : Frame ws' t u) : Frame (ws ++ ws') s u := fun r hr => by
  rw [List.mem_append, not_or] at hr
  exact Reg.same_trans (h r hr.1) (h' r hr.2)

theorem Frame.mono (h : Frame ws s t) (hsub : ws ⊆ ws') : Frame ws' s t := fun r hr => h r fun hm => hr (hsub hm)

/-! ### The state updates -/

theorem takeRx_frame (s : State) : Frame [.rx] s s.takeRx := fun r hr => by
  cases r <;> simp_all [Reg.same]

theorem takeAdc_frame (s : State) : Frame [.adc] s s.takeAdc := fun r hr => by
  cases r <;> simp_all [Reg.same]

theorem toPhase_frame (s : State) (ph : Phase) : Frame [.phase] s (s.toPhase ph) := fun r hr => by
  cases r <;> simp_all [Reg.same]

theorem clearLine_frame (s : State) : Frame [.len, .cmdState] s s.clearLine := fun r hr => by
  cases r <;> simp_all [Reg.same]

theorem raise_frame (s : State) (k : FaultKind) : Frame [.faults] s (s.raise k) := fun r hr => by
  cases r <;> simp_all [Reg.same]

theorem tickService_frame (s : State) : Frame [.clk, .tickPending] s (tickService s) := fun r hr => by
  cases r <;> simp_all [Reg.same]

theorem tickPending_frame (s : State) (b : Bool) : Frame [.tickPending] s { s with tickPending := b } := fun r hr => by
  cases r <;> simp_all [Reg.same]

theorem snapshot_frame (s : State) : Frame [.nowLatch, .tickMask] s (snapshot s) := fun r hr => by
  cases r <;> simp_all [Reg.same]

theorem pidWrite_frame (s : State) (x : PidResult) :
    Frame [.integralError, .lastError, .pidRet] s (pidWrite s x) := fun r hr => by
  cases r <;> simp_all [Reg.same]

theorem ctrlWrite_frame (n : Nat) (s : State) :
    Frame [.actOut, .rptSample, .rptOutput, .lastControlTime] s (ctrlWrite n s) := fun r hr => by
  cases r <;> simp_all [Reg.same]

theorem reportWrite_frame (n : Nat) (s : State) :
    Frame [.lastReportTime, .trace, .tx] s (reportWrite n s) := fun r hr => by
  cases r <;> simp_all [Reg.same]

/-! ### The parts of POLL and COMMIT -/

theorem beginLine_frame {b : Byte} (h : beginLine b s = .ok t) : Frame [.len, .cmdState] s t := fun r hr => by
  obtain ⟨-, rfl⟩ := beginLine_eq_ok.1 h
  cases r <;> simp_all [Reg.same]

theorem storeByte_frame {b : Byte} (h : storeByte b s = .ok t) : Frame [.len] s t := fun r hr => by
  obtain ⟨-, rfl⟩ := storeByte_eq_ok.1 h
  cases r <;> simp_all [Reg.same]

theorem setpoint_frame (s : State) (n : Nat) : Frame [.setpoint] s { s with setpoint := n } := fun r hr => by
  cases r <;> simp_all [Reg.same]

theorem kp_frame (s : State) (v : NumVal) : Frame [.kp] s { s with kp := v } := fun r hr => by
  cases r <;> simp_all [Reg.same]

theorem ki_frame (s : State) (v : NumVal) : Frame [.ki] s { s with ki := v } := fun r hr => by
  cases r <;> simp_all [Reg.same]

theorem kd_frame (s : State) (v : NumVal) : Frame [.kd] s { s with kd := v } := fun r hr => by
  cases r <;> simp_all [Reg.same]

theorem applyTag_frame {tag : Byte} (h : applyTag tag s = .ok t) : Frame [.setpoint, .kp, .ki, .kd] s t := by
  rcases applyTag_eq_ok h with ⟨v, -, ⟨-, rfl⟩ | ⟨-, rfl⟩ | ⟨-, rfl⟩ | ⟨-, rfl⟩⟩ | ⟨-, rfl⟩
  · exact (setpoint_frame s _).mono (by decide)
  · exact (kp_frame s v).mono (by decide)
  · exact (ki_frame s v).mono (by decide)
  · exact (kd_frame s v).mono (by decide)
  · exact (Frame.refl t).mono (by decide)

theorem commitLine_frame (h : commitLine s = .ok t) : Frame [.setpoint, .kp, .ki, .kd, .len, .cmdState] s t := by
  obtain ⟨tag, u, -, hu, rfl⟩ := commitLine_eq_ok.1 h
  exact (applyTag_frame hu).trans (clearLine_frame u)

theorem pollEffect_frame {r : Option Byte} (h : pollEffect r s = .ok t) :
    Frame [.setpoint, .kp, .ki, .kd, .len, .cmdState] s t := by
  rcases pollEffect_eq_ok.1 h with
    ⟨-, rfl⟩ | ⟨b, -, ⟨-, -, rfl⟩ | ⟨-, -, h⟩ | ⟨-, -, -, h⟩ | ⟨-, -, -, rfl⟩ | ⟨-, -, h⟩⟩
  · exact (Frame.refl s).mono (by decide)
  · exact (Frame.refl s).mono (by decide)
  · exact (beginLine_frame h).mono (by decide)
  · exact (storeByte_frame h).mono (by decide)
  · exact (Frame.refl s).mono (by decide)
  · exact commitLine_frame h

/-- A step at POLL consumes its byte before its effect and moves to SNAP after it. -/
theorem pollStep_frame (h : Frame ws s.takeRx u) : Frame (ws ++ [.phase, .rx]) s (u.toPhase .snap) :=
  ((takeRx_frame s).trans (h.trans (toPhase_frame u .snap))).mono (by simp)

/-- A commit's frame, whether it applies its line or raises. -/
theorem commitAnswers_frame (h : CommitAnswers s t) : Frame commitWrites s t := by
  rcases commit_answers.2 h with ⟨u, hu, rfl⟩ | ⟨k, -, rfl⟩
  · exact (pollStep_frame (commitLine_frame hu)).mono (by decide)
  · exact ((takeRx_frame s).trans (raise_frame _ k)).mono (by decide)

/-- A dispatch row's frame: that of its write, and the fault set where it raises. -/
theorem applyAnswers_frame {write : NumVal → State} (hw : ∀ v, Frame ws s (write v)) (h : ApplyAnswers s t write) :
    Frame (ws ++ [.faults]) s t := by
  rcases h with ⟨v, -, rfl⟩ | ⟨-, rfl⟩
  · exact (hw v).mono (List.subset_append_left _ _)
  · exact (raise_frame s _).mono (List.subset_append_right _ _)

/-! ### The operations -/

/-- R13: an operation's frame is the list of the elements its rule lets it write. -/
theorem exec_frame {i : Instr} (h : exec i s = .next t) : Frame (mayWrite i) s t := by
  cases i with
  | rxNone =>
    obtain ⟨-, -, -, rfl⟩ := exec_rxNone_eq_next.1 h
    exact pollStep_frame (Frame.refl _)
  | discardLf =>
    obtain ⟨-, -, -, -, rfl⟩ := exec_discardLf_eq_next.1 h
    exact pollStep_frame (Frame.refl _)
  | discardCr =>
    obtain ⟨-, -, -, -, rfl⟩ := exec_discardCr_eq_next.1 h
    exact pollStep_frame (Frame.refl _)
  | tag b =>
    obtain ⟨-, -, -, -, -, hcap, rfl⟩ := exec_tag_eq_next.1 h
    exact pollStep_frame (beginLine_frame (beginLine_eq_ok.2 ⟨hcap, rfl⟩))
  | store b =>
    obtain ⟨-, -, -, hcap, -, -, rfl⟩ := exec_store_eq_next.1 h
    exact pollStep_frame (storeByte_frame (storeByte_eq_ok.2 ⟨hcap, rfl⟩))
  | drop b =>
    obtain ⟨-, -, -, -, -, -, rfl⟩ := exec_drop_eq_next.1 h
    exact pollStep_frame (Frame.refl _)
  | commitLf =>
    obtain ⟨-, -, -, -, hc⟩ := exec_commitLf_eq_next.1 h
    exact commitAnswers_frame hc
  | commitCr =>
    obtain ⟨-, -, -, -, hc⟩ := exec_commitCr_eq_next.1 h
    exact commitAnswers_frame hc
  | cmdS =>
    obtain ⟨-, -, ha⟩ := exec_cmdS_eq_next.1 h
    exact applyAnswers_frame (fun v => setpoint_frame s _) ha
  | cmdP =>
    obtain ⟨-, -, ha⟩ := exec_cmdP_eq_next.1 h
    exact applyAnswers_frame (kp_frame s) ha
  | cmdI =>
    obtain ⟨-, -, ha⟩ := exec_cmdI_eq_next.1 h
    exact applyAnswers_frame (ki_frame s) ha
  | cmdD =>
    obtain ⟨-, -, ha⟩ := exec_cmdD_eq_next.1 h
    exact applyAnswers_frame (kd_frame s) ha
  | cmdOther b =>
    obtain ⟨-, -, -, -, rfl⟩ := exec_cmdOther_eq_next.1 h
    exact Frame.refl s
  | tick =>
    obtain ⟨-, rfl⟩ := exec_tick_eq_next.1 h
    split
    · exact (tickPending_frame s true).mono (by decide)
    · exact tickService_frame s
  | poll =>
    obtain ⟨-, -, ⟨u, hu, rfl⟩ | ⟨-, rfl⟩⟩ := exec_poll_eq_next.1 h
    · exact (pollStep_frame (pollEffect_frame hu)).mono (by decide)
    · exact ((takeRx_frame s).trans (raise_frame _ _)).mono (by decide)
  | snap =>
    obtain ⟨-, -, rfl⟩ := exec_snap_eq_next.1 h
    exact (snapshot_frame s).trans (toPhase_frame _ _)
  | ctrl =>
    obtain ⟨-, -, ⟨-, rfl⟩ | ⟨-, -, ⟨x, -, rfl⟩ | ⟨-, rfl⟩⟩⟩ := exec_ctrl_eq_next.1 h
    · exact (toPhase_frame s _).mono (by decide)
    · exact ((takeAdc_frame s).trans ((pidWrite_frame _ x).trans ((ctrlWrite_frame _ _).trans
        (toPhase_frame _ _)))).mono (by decide)
    · exact ((takeAdc_frame s).trans (raise_frame _ _)).mono (by decide)
  | pidStep n =>
    obtain ⟨-, -, -, -, ⟨x, -, rfl⟩ | ⟨-, rfl⟩⟩ := exec_pidStep_eq_next.1 h
    · exact (pidWrite_frame s x).mono (by simp [mayWrite])
    · exact (raise_frame s _).mono (by simp [mayWrite])
  | rpt =>
    obtain ⟨-, -, ⟨-, rfl⟩ | ⟨-, ⟨-, rfl⟩ | ⟨-, -, rfl⟩⟩⟩ := exec_rpt_eq_next.1 h
    · exact (toPhase_frame s _).mono (by decide)
    · exact ((reportWrite_frame _ s).trans (toPhase_frame _ _)).mono (by decide)
    · exact ((takeAdc_frame s).trans ((reportWrite_frame _ _).trans (toPhase_frame _ _))).mono (by decide)

/-- Settles O48: each operation is a sequence of updates, and each update has its frame. -/
theorem operationsWriteOnlyTheirElements : Obligations.OperationsWriteOnlyTheirElements :=
  fun _ _ _ r h hr => exec_frame h r hr

/-- R126: no operation's rule lets it write the parameters. -/
theorem params_notMem_mayWrite (i : Instr) : Reg.params ∉ mayWrite i := by
  cases i <;> simp [mayWrite, commitWrites]

/-- R126: an operation leaves the parameter record. -/
theorem exec_params {i : Instr} (h : exec i s = .next t) : t.params = s.params :=
  exec_frame h .params (params_notMem_mayWrite i)

end Sys2Proof.Machine
end

section
/-! SUPPORT. The invariant of R31: the ranges of what the arithmetic computes, that each state update keeps the
invariant, and that each operation does. -/

namespace Sys2Proof.Machine

open Sys2Proof

/-! ### The parameters -/

/-- R5: the legal values that the ranges of the state rest on. -/
structure ParamRanges (p : Params) : Prop where
  minCount_eq : p.minCount = 0
  minCount_lt : p.minCount < p.maxCount
  limit_num : representable p.numFmt p.integralLimit = true
  setpointReset_le : p.setpointReset ≤ p.sensorMax
  kpReset_num : p.kpReset.inFmt p.numFmt = true
  kiReset_num : p.kiReset.inFmt p.numFmt = true
  kdReset_num : p.kdReset.inFmt p.numFmt = true
  actReset_range : p.minCount ≤ p.actReset ∧ p.actReset ≤ p.maxCount

theorem paramRanges_of_legal {p : Params} (hl : p.legal = true) : ParamRanges p := by
  simp only [Params.legal, Bool.and_eq_true, decide_eq_true_eq, beq_iff_eq, and_assoc] at hl
  obtain ⟨-, -, -, -, hmin, hlt, -, hlim, -, hsp, hkp, hki, hkd, hlo, hhi, -, -⟩ := hl
  exact ⟨hmin, hlt, hlim, hsp, hkp, hki, hkd, hlo, hhi⟩

/-! ### What the arithmetic computes -/

section
variable {f : NumFmt} {p : Params} {x ie : NumVal}

/-- R31 (2): the accumulator within its limit. -/
structure IntegralInRange (p : Params) (ie : NumVal) : Prop where
  le : ie.toInt ≤ scaled p.numFmt p.integralLimit
  ge : scaled p.numFmt (-(p.integralLimit : Int)) ≤ ie.toInt
  num : ie.inFmt p.numFmt = true

theorem scaled_neg (f : NumFmt) (n : Int) : scaled f (-n) = -scaled f n := neg_mul n _

theorem scaled_natCast (f : NumFmt) (n : Nat) : scaled f n = (n * f.one : Nat) := (Nat.cast_mul n f.one).symm

/-- A representable integer in NUM is exactly itself. -/
theorem ofInt_toInt {i : Int} (hr : representable f i.natAbs = true) (h : NumVal.ofInt f i = some x) :
    x.toInt = scaled f i := by
  obtain rfl := Option.some.inj ((ofInt_of_representable hr rfl).symm.trans h)
  rcases lt_or_ge i 0 with hi | hi
  · simp [NumVal.toInt, scaled, hi, abs_of_neg hi]
  · simp [NumVal.toInt, scaled, hi.not_gt, abs_of_nonneg hi]

/-- R74: the clamp brings every value of the format into range. -/
theorem clampIntegral_inRange {ie' : NumVal} (hlim : representable p.numFmt p.integralLimit = true)
    (hn : ie.inFmt p.numFmt = true) (h : clampIntegral p ie = some ie') : IntegralInRange p ie' := by
  have hpos : 0 ≤ scaled p.numFmt p.integralLimit := by rw [scaled_natCast]; positivity
  have hneg := scaled_neg p.numFmt p.integralLimit
  unfold clampIntegral at h
  split at h
  · have := ofInt_toInt (by simpa using hlim) h
    exact ⟨by omega, by omega, ofInt_inFmt h⟩
  · split at h
    · have := ofInt_toInt (by simpa using hlim) h
      exact ⟨by omega, by omega, ofInt_inFmt h⟩
    · obtain rfl := Option.some.inj h
      exact ⟨by omega, by omega, hn⟩

/-- R73, R74: the accumulator is in range after steps 6 and 7, whether the step integrates or not. -/
theorem updateIntegral_inRange {u0 eNum ie' : NumVal} {e : Int} (hlim : representable p.numFmt p.integralLimit = true)
    (hn : ie.inFmt p.numFmt = true) (h : updateIntegral p u0 e eNum ie = some ie') : IntegralInRange p ie' := by
  unfold updateIntegral at h
  split at h
  · split at h
    · simp at h
    · rename_i sum hsum
      exact clampIntegral_inRange hlim (add_inFmt hsum) h
  · exact clampIntegral_inRange hlim hn h

/-- A value of at least 0 truncates to the quotient of its magnitude. -/
theorem trunc_of_nonneg (h : 0 ≤ x.toInt) : (x.trunc f).toNat = x.toInt.toNat / f.one := by
  unfold NumVal.trunc NumVal.toInt at *
  split at h
  · have hz : x.mag = 0 := by omega
    simp [hz]
  · rename_i hneg
    rw [if_neg hneg, if_neg hneg]
    rfl

/-- R75, R78 (2): the count lies between MIN_COUNT and MAX_COUNT. -/
theorem outputCount_range (u : NumVal) (hp : p.minCount ≤ p.maxCount) :
    p.minCount ≤ outputCount p u ∧ outputCount p u ≤ p.maxCount := by
  unfold outputCount
  split
  · exact ⟨le_rfl, hp⟩
  · split
    · exact ⟨hp, le_rfl⟩
    · simp only [scaled_natCast] at *
      rw [trunc_of_nonneg (by omega), Nat.le_div_iff_mul_le (one_pos _)]
      exact ⟨by omega, Nat.div_le_of_le_mul (by rw [Nat.mul_comm]; omega)⟩

/-- R68, R31 (4): the error of a setpoint and a sample in range. -/
theorem deadBandError_range {setpoint sample : Nat} (hs : setpoint ≤ p.sensorMax) (hn : sample ≤ p.sensorMax) :
    -(p.sensorMax : Int) ≤ deadBandError p setpoint sample ∧ deadBandError p setpoint sample ≤ p.sensorMax := by
  unfold deadBandError
  dsimp only
  split <;> omega

/-- R88: the setpoint a command gives is in range. -/
theorem setpointOf_le (p : Params) (v : NumVal) : setpointOf p v ≤ p.sensorMax := by
  unfold setpointOf clampInt
  split
  · simp
  · split <;> omega

/-- R49 to R51: a text's value is a value of the format. -/
theorem textValue_inFmt {l : List Byte} (h : textValue p l = some x) : x.inFmt p.numFmt = true := by
  have hzero (h : some NumVal.posZero = some x) : x.inFmt p.numFmt = true := Option.some.inj h ▸ posZero_inFmt _
  unfold textValue at h
  split at h
  · unfold strictValue at h
    split at h
    · exact hzero h
    · split at h
      · exact ofDec_inFmt h
      · exact hzero h
  · unfold longestValue at h
    split at h
    · exact hzero h
    · exact ofDec_inFmt h

end

variable {s t u : State}

theorem lineValue_inFmt {v : NumVal} (h : lineValue s = .ok v) : v.inFmt s.params.numFmt = true := by
  obtain ⟨l, -, hv⟩ := lineValue_eq_ok.1 h
  exact textValue_inFmt hv

/-- The ranges of what PID_STEP writes back and returns (R31, R78). -/
structure PidInRange (p : Params) (x : PidResult) : Prop where
  integral : IntegralInRange p x.integralError
  lastError : -(p.sensorMax : Int) ≤ x.lastError ∧ x.lastError ≤ p.sensorMax
  out : p.minCount ≤ x.out ∧ x.out ≤ p.maxCount

/-- R67: where PID_STEP has a result, its error is that of step 2, its accumulator that of steps 6 and 7 and its count
that of step 9. -/
theorem pidOf_eq_some {n : Nat} {x : PidResult} (h : pidOf s n = some x) :
    x.lastError = deadBandError s.params s.setpoint n ∧
      (∃ u0 eNum, updateIntegral s.params u0 x.lastError eNum s.integralError = some x.integralError) ∧
      ∃ u, x.out = outputCount s.params u := by
  simp only [pidOf, pidCompute, Option.bind_eq_bind, Option.bind_eq_some_iff] at h
  obtain ⟨eNum, -, -, -, -, -, -, -, u0, -, ie, hie, u, -, hx⟩ := h
  obtain rfl := Option.some.inj hx
  exact ⟨rfl, ⟨u0, eNum, hie⟩, u, rfl⟩

/-- R78: PID_STEP on a sample in range computes values in range, for all gains. -/
theorem State.Inv.pidOf_inRange (hi : s.Inv) {n : Nat} {x : PidResult} (hn : n ≤ s.params.sensorMax)
    (h : pidOf s n = some x) : PidInRange s.params x := by
  have hp := paramRanges_of_legal hi.legal
  obtain ⟨he, ⟨u0, eNum, hie⟩, u, hu⟩ := pidOf_eq_some h
  exact ⟨updateIntegral_inRange hp.limit_num hi.integral_num hie, he ▸ deadBandError_range hi.setpoint_le hn,
    hu ▸ outputCount_range u hp.minCount_lt.le⟩

/-! ### The state updates -/

theorem State.Inv.takeAgent (hi : s.Inv) : s.takeAgent.Inv := { hi with }

theorem State.Inv.takeRx (hi : s.Inv) : s.takeRx.Inv := { hi with }

theorem State.Inv.takeAdc (hi : s.Inv) : s.takeAdc.Inv := { hi with }

theorem State.Inv.toPhase (hi : s.Inv) (ph : Phase) : (s.toPhase ph).Inv := { hi with }

theorem State.Inv.setpoint (hi : s.Inv) {n : Nat} (hn : n ≤ s.params.sensorMax) : { s with setpoint := n }.Inv :=
  { hi with setpoint_le := hn }

section
variable {v : NumVal}

theorem State.Inv.kp (hi : s.Inv) (hv : v.inFmt s.params.numFmt = true) : { s with kp := v }.Inv :=
  { hi with kp_num := hv }

theorem State.Inv.ki (hi : s.Inv) (hv : v.inFmt s.params.numFmt = true) : { s with ki := v }.Inv :=
  { hi with ki_num := hv }

theorem State.Inv.kd (hi : s.Inv) (hv : v.inFmt s.params.numFmt = true) : { s with kd := v }.Inv :=
  { hi with kd_num := hv }

end

theorem State.Inv.clearLine (hi : s.Inv) : s.clearLine.Inv :=
  { hi with
    idle_iff := ⟨fun _ => rfl, fun _ => rfl⟩
    len_le := Nat.zero_le _
    buf_val := fun _ h => absurd h (Nat.not_lt_zero _) }

/-- R30: NONFINITE recorded once. -/
theorem State.Inv.raise (hi : s.Inv) (k : FaultKind) : (s.raise k).Inv :=
  { hi with
    faults_set := by
      cases k
      rcases hi.faults_set with hf | hf <;> simp [hf] }

theorem State.Inv.tickService (hi : s.Inv) : (tickService s).Inv :=
  { hi with
    clk_lt := Nat.mod_lt _ (by positivity)
    tickPending_off := rfl }

theorem State.Inv.snapshot (hi : s.Inv) : (snapshot s).Inv :=
  { hi with
    nowLatch_lt := hi.clk_lt
    tickMask_off := rfl }

theorem State.Inv.pidWrite (hi : s.Inv) {x : PidResult} (hx : PidInRange s.params x) : (pidWrite s x).Inv :=
  { hi with
    integral_le := hx.integral.le
    integral_ge := hx.integral.ge
    integral_num := hx.integral.num
    lastError_range := hx.lastError }

theorem State.Inv.ctrlWrite (hi : s.Inv) {n : Nat} (hn : n ≤ s.params.sensorMax)
    (hout : s.params.minCount ≤ s.pidRet ∧ s.pidRet ≤ s.params.maxCount) : (ctrlWrite n s).Inv :=
  { hi with
    actOut_range := hout
    rptOutput_range := hout
    rptSample_le := hn
    lastControlTime_lt := hi.nowLatch_lt }

theorem State.Inv.reportWrite (hi : s.Inv) (n : Nat) : (reportWrite n s).Inv :=
  { hi with lastReportTime_lt := hi.nowLatch_lt }

/-- R83, R84: a byte stored at or below len, len then standing behind it. -/
theorem State.Inv.storedAt (hi : s.Inv) {a : Nat} (b : Byte) (ha : a ≤ s.len) (hcap : a < s.params.bufCap) :
    { s with buf := Memory.write s.buf a b, len := a + 1, cmdState := .collecting }.Inv :=
  { hi with
    idle_iff := by simp
    len_le := hcap
    buf_wf := memory_write_wf a b hi.buf_wf
    buf_addr := fun c hc => by
      rcases memory_write_mem hc with rfl | hc
      · exact hcap
      · exact hi.buf_addr c hc
    buf_val := fun i hlt => by
      by_cases hia : i = a
      · simp [hia, memory_read_write_same]
      · have hlt : i < a + 1 := hlt
        simpa [memory_read_write_other _ b hia] using hi.buf_val i (by omega) }

/-! ### The parts of POLL and COMMIT -/

theorem State.Inv.beginLine (hi : s.Inv) {b : Byte} (h : beginLine b s = .ok t) : t.Inv := by
  obtain ⟨hcap, rfl⟩ := beginLine_eq_ok.1 h
  exact hi.storedAt b (Nat.zero_le _) hcap

theorem State.Inv.storeByte (hi : s.Inv) {b : Byte} (hc : s.cmdState = .collecting) (h : storeByte b s = .ok t) :
    t.Inv := by
  obtain ⟨hcap, rfl⟩ := storeByte_eq_ok.1 h
  have := hi.storedAt b le_rfl hcap
  rwa [← hc] at this

theorem State.Inv.applyTag (hi : s.Inv) {tag : Byte} (h : applyTag tag s = .ok t) : t.Inv := by
  rcases applyTag_eq_ok h with ⟨v, hv, ⟨-, rfl⟩ | ⟨-, rfl⟩ | ⟨-, rfl⟩ | ⟨-, rfl⟩⟩ | ⟨-, rfl⟩
  · exact hi.setpoint (setpointOf_le _ v)
  · exact hi.kp (lineValue_inFmt hv)
  · exact hi.ki (lineValue_inFmt hv)
  · exact hi.kd (lineValue_inFmt hv)
  · exact hi

theorem State.Inv.commitLine (hi : s.Inv) (h : commitLine s = .ok t) : t.Inv := by
  obtain ⟨tag, u, -, hu, rfl⟩ := commitLine_eq_ok.1 h
  exact (hi.applyTag hu).clearLine

theorem State.Inv.pollEffect (hi : s.Inv) {r : Option Byte} (h : pollEffect r s = .ok t) : t.Inv := by
  rcases pollEffect_eq_ok.1 h with
    ⟨-, rfl⟩ | ⟨b, -, ⟨-, -, rfl⟩ | ⟨-, -, h⟩ | ⟨hc, -, -, h⟩ | ⟨-, -, -, rfl⟩ | ⟨-, -, h⟩⟩
  · exact hi
  · exact hi
  · exact hi.beginLine h
  · exact hi.storeByte hc h
  · exact hi
  · exact hi.commitLine h

theorem State.Inv.commitAnswers (hi : s.Inv) (h : CommitAnswers s t) : t.Inv := by
  rcases commit_answers.2 h with ⟨u, hu, rfl⟩ | ⟨k, -, rfl⟩
  · exact (hi.takeRx.commitLine hu).toPhase _
  · exact hi.takeRx.raise k

/-- A dispatch row keeps the invariant where its write of a value of the format does. -/
theorem State.Inv.applyAnswers (hi : s.Inv) {write : NumVal → State}
    (hw : ∀ v, v.inFmt s.params.numFmt = true → (write v).Inv) (h : ApplyAnswers s t write) : t.Inv := by
  rcases h with ⟨v, hv, rfl⟩ | ⟨-, rfl⟩
  · exact hw v (lineValue_inFmt hv)
  · exact hi.raise _

/-! ### The operations -/

/-- R31: every operation that answers a next state keeps the invariant. -/
theorem State.Inv.exec (hi : s.Inv) {i : Instr} (h : exec i s = .next t) : t.Inv := by
  cases i with
  | rxNone =>
    obtain ⟨-, -, -, rfl⟩ := exec_rxNone_eq_next.1 h
    exact hi.takeRx.toPhase _
  | discardLf =>
    obtain ⟨-, -, -, -, rfl⟩ := exec_discardLf_eq_next.1 h
    exact hi.takeRx.toPhase _
  | discardCr =>
    obtain ⟨-, -, -, -, rfl⟩ := exec_discardCr_eq_next.1 h
    exact hi.takeRx.toPhase _
  | tag b =>
    obtain ⟨-, -, -, -, -, hcap, rfl⟩ := exec_tag_eq_next.1 h
    exact (hi.takeRx.beginLine (beginLine_eq_ok.2 ⟨hcap, rfl⟩)).toPhase _
  | store b =>
    obtain ⟨-, -, hc, hcap, -, -, rfl⟩ := exec_store_eq_next.1 h
    exact (hi.takeRx.storeByte hc (storeByte_eq_ok.2 ⟨hcap, rfl⟩)).toPhase _
  | drop b =>
    obtain ⟨-, -, -, -, -, -, rfl⟩ := exec_drop_eq_next.1 h
    exact hi.takeRx.toPhase _
  | commitLf =>
    obtain ⟨-, -, -, -, hc⟩ := exec_commitLf_eq_next.1 h
    exact hi.commitAnswers hc
  | commitCr =>
    obtain ⟨-, -, -, -, hc⟩ := exec_commitCr_eq_next.1 h
    exact hi.commitAnswers hc
  | cmdS =>
    obtain ⟨-, -, ha⟩ := exec_cmdS_eq_next.1 h
    exact hi.applyAnswers (fun v _ => hi.setpoint (setpointOf_le _ v)) ha
  | cmdP =>
    obtain ⟨-, -, ha⟩ := exec_cmdP_eq_next.1 h
    exact hi.applyAnswers (fun _ => hi.kp) ha
  | cmdI =>
    obtain ⟨-, -, ha⟩ := exec_cmdI_eq_next.1 h
    exact hi.applyAnswers (fun _ => hi.ki) ha
  | cmdD =>
    obtain ⟨-, -, ha⟩ := exec_cmdD_eq_next.1 h
    exact hi.applyAnswers (fun _ => hi.kd) ha
  | cmdOther b =>
    obtain ⟨-, -, -, -, rfl⟩ := exec_cmdOther_eq_next.1 h
    exact hi
  | tick =>
    obtain ⟨-, rfl⟩ := exec_tick_eq_next.1 h
    rw [hi.tickMask_off]
    exact hi.tickService
  | poll =>
    obtain ⟨-, -, ⟨u, hu, rfl⟩ | ⟨-, rfl⟩⟩ := exec_poll_eq_next.1 h
    · exact (hi.takeRx.pollEffect hu).toPhase _
    · exact hi.takeRx.raise _
  | snap =>
    obtain ⟨-, -, rfl⟩ := exec_snap_eq_next.1 h
    exact hi.snapshot.toPhase _
  | ctrl =>
    obtain ⟨-, -, ⟨-, rfl⟩ | ⟨-, hn, ⟨x, hx, rfl⟩ | ⟨-, rfl⟩⟩⟩ := exec_ctrl_eq_next.1 h
    · exact hi.toPhase _
    · have hr := hi.pidOf_inRange hn hx
      exact ((hi.takeAdc.pidWrite hr).ctrlWrite hn hr.out).toPhase _
    · exact hi.takeAdc.raise _
  | pidStep n =>
    obtain ⟨-, -, -, hn, ⟨x, hx, rfl⟩ | ⟨-, rfl⟩⟩ := exec_pidStep_eq_next.1 h
    · exact hi.pidWrite (hi.pidOf_inRange hn hx)
    · exact hi.raise _
  | rpt =>
    obtain ⟨-, -, ⟨-, rfl⟩ | ⟨-, ⟨-, rfl⟩ | ⟨-, -, rfl⟩⟩⟩ := exec_rpt_eq_next.1 h
    · exact hi.toPhase _
    · exact (hi.reportWrite _).toPhase _
    · exact (hi.takeAdc.reportWrite _).toPhase _

/-- Settles O58: the invariant by the operation's updates, the parameters by its frame. -/
theorem everyOperationKeepsTheRanges : Obligations.EveryOperationKeepsTheRanges :=
  fun _ _ _ hi h => ⟨hi.exec h, exec_params h⟩

/-- Settles O57: the choice of agent keeps the invariant and the parameters, and so does the operation selected. -/
theorem everyStepKeepsTheRanges : Obligations.EveryStepKeepsTheRanges :=
  fun s t hi h => everyOperationKeepsTheRanges (fetch s) s.takeAgent t hi.takeAgent h

/-- Settles O56: the legal values of R5 are in the ranges, and every other element is 0, empty or off. -/
theorem resetSatisfiesTheRanges : Obligations.ResetSatisfiesTheRanges := by
  intro p hl
  have hp := paramRanges_of_legal hl
  have hlim : 0 ≤ scaled p.numFmt p.integralLimit := by rw [scaled_natCast]; positivity
  exact
    { legal := hl
      setpoint_le := hp.setpointReset_le
      integral_le := hlim
      integral_ge := by rw [scaled_neg]; exact neg_nonpos.2 hlim
      actOut_range := hp.actReset_range
      rptOutput_range := ⟨hp.minCount_eq.le, Nat.zero_le _⟩
      rptSample_le := Nat.zero_le _
      lastError_range := ⟨neg_nonpos.2 (Int.natCast_nonneg _), Int.natCast_nonneg _⟩
      idle_iff := ⟨fun _ => rfl, fun _ => rfl⟩
      len_le := Nat.zero_le _
      clk_lt := Nat.two_pow_pos _
      nowLatch_lt := Nat.two_pow_pos _
      lastControlTime_lt := Nat.two_pow_pos _
      lastReportTime_lt := Nat.two_pow_pos _
      tickPending_off := rfl
      tickMask_off := rfl
      kp_num := hp.kpReset_num
      ki_num := hp.kiReset_num
      kd_num := hp.kdReset_num
      integral_num := posZero_inFmt _
      buf_wf := resetOf_buf_wf p
      buf_addr := fun _ hc => absurd hc List.not_mem_nil
      buf_val := fun _ h => absurd h (Nat.not_lt_zero _)
      faults_set := .inl rfl }

/-- Settles O14: with the mask set, TICK's one next state is the one that records the event. -/
theorem maskedTickWaits : Obligations.MaskedTickWaits :=
  fun _ hr hm => exec_tick_eq_next.2 ⟨⟨hr.legal, hr.noFault⟩, by rw [if_pos hm]⟩

end Sys2Proof.Machine
end

section
/-! SUPPORT. The frame of the command buffer (R33): what each operation leaves in it, by the index it stores to. -/

namespace Sys2Proof.Machine

open Sys2Proof

variable {s t : State}

/-! ### The index POLL stores to -/

theorem decodeRx_idle_of_text {b : Byte} (ht : isTerminator b = false) (len cap : Nat) :
    decodeRx .idle len cap (some b) = .tag b := by
  simp_all [decodeRx, isTerminator]

theorem decodeRx_collecting_of_text {b : Byte} (ht : isTerminator b = false) {len cap : Nat} (hlt : len < cap) :
    decodeRx .collecting len cap (some b) = .store b := by
  simp_all [decodeRx, isTerminator]

/-- R83: a POLL of a byte that begins a line stores to index 0. -/
theorem storedIndex_poll_idle {b : Byte} (hr : s.rxNext = some b) (hc : s.cmdState = .idle)
    (ht : isTerminator b = false) : storedIndex .poll s = some 0 := by
  simp only [storedIndex, hr, hc, decodeRx_idle_of_text ht]

/-- R84: a POLL of a text byte stores to index len where the buffer has room. -/
theorem storedIndex_poll_collecting {b : Byte} (hr : s.rxNext = some b) (hc : s.cmdState = .collecting)
    (ht : isTerminator b = false) (hlt : s.len < s.params.bufCap) : storedIndex .poll s = some s.len := by
  simp only [storedIndex, hr, hc, decodeRx_collecting_of_text ht hlt]

/-! ### The parts of POLL and COMMIT -/

theorem applyTag_buf {tag : Byte} (h : applyTag tag s = .ok t) : t.buf = s.buf := by
  rcases applyTag_eq_ok h with ⟨v, -, ⟨-, rfl⟩ | ⟨-, rfl⟩ | ⟨-, rfl⟩ | ⟨-, rfl⟩⟩ | ⟨-, rfl⟩ <;> rfl

/-- R86: a commit keeps the bytes of the line it clears. -/
theorem commitLine_buf (h : commitLine s = .ok t) : t.buf = s.buf := by
  obtain ⟨tag, u, -, hu, rfl⟩ := commitLine_eq_ok.1 h
  simpa using applyTag_buf hu

theorem commitAnswers_buf (h : CommitAnswers s t) : t.buf = s.buf := by
  rcases commit_answers.2 h with ⟨u, hu, rfl⟩ | ⟨k, -, rfl⟩
  · simpa using commitLine_buf hu
  · rfl

theorem applyAnswers_buf {write : NumVal → State} (h : ApplyAnswers s t write) (hw : ∀ v, (write v).buf = s.buf) :
    t.buf = s.buf := by
  rcases h with ⟨v, -, rfl⟩ | ⟨-, rfl⟩
  · exact hw v
  · rfl

/-! ### The operations -/

/-- The buffer of t is that of s, or that of s with one byte written at the index. -/
def BufWrittenAt (index : Option Nat) (s t : State) : Prop :=
  t.buf = s.buf ∨ ∃ a b, index = some a ∧ t.buf = Memory.write s.buf a b

/-- R33: a byte at another index reads as before. -/
theorem BufWrittenAt.read_of_ne {index : Option Nat} (h : BufWrittenAt index s t) {a : Nat} (ha : index ≠ some a) :
    Memory.read t.buf a = Memory.read s.buf a := by
  rcases h with h | ⟨i, b, rfl, h⟩
  · rw [h]
  · rw [h, memory_read_write_other _ b fun hai => ha (congrArg some hai.symm)]

/-- R80: POLL stores where the row of its byte does. -/
theorem pollEffect_bufWrittenAt (h : pollEffect s.rxNext s.takeRx = .ok t) :
    BufWrittenAt (storedIndex .poll s) s t := by
  rcases pollEffect_eq_ok.1 h with
    ⟨-, rfl⟩ | ⟨b, hr, ⟨-, -, rfl⟩ | ⟨hc, ht, h⟩ | ⟨hc, ht, hlt, h⟩ | ⟨-, -, -, rfl⟩ | ⟨-, -, h⟩⟩
  · exact .inl rfl
  · exact .inl rfl
  · obtain ⟨-, rfl⟩ := beginLine_eq_ok.1 h
    exact .inr ⟨0, b, storedIndex_poll_idle hr hc ht, rfl⟩
  · obtain ⟨-, rfl⟩ := storeByte_eq_ok.1 h
    exact .inr ⟨s.len, b, storedIndex_poll_collecting hr hc ht hlt, rfl⟩
  · exact .inl rfl
  · exact .inl (by simpa using commitLine_buf h)

/-- R33: an operation writes no byte but the one its rule stores. -/
theorem exec_bufWrittenAt {i : Instr} (h : exec i s = .next t) : BufWrittenAt (storedIndex i s) s t := by
  cases i with
  | tag b =>
    obtain ⟨-, -, -, -, -, -, rfl⟩ := exec_tag_eq_next.1 h
    exact .inr ⟨0, b, rfl, rfl⟩
  | store b =>
    obtain ⟨-, -, -, -, -, -, rfl⟩ := exec_store_eq_next.1 h
    exact .inr ⟨s.len, b, rfl, rfl⟩
  | poll =>
    obtain ⟨-, -, ⟨u, hu, rfl⟩ | ⟨-, rfl⟩⟩ := exec_poll_eq_next.1 h
    · simpa [BufWrittenAt] using pollEffect_bufWrittenAt hu
    · exact .inl rfl
  | rxNone =>
    obtain ⟨-, -, -, rfl⟩ := exec_rxNone_eq_next.1 h
    exact .inl rfl
  | discardLf =>
    obtain ⟨-, -, -, -, rfl⟩ := exec_discardLf_eq_next.1 h
    exact .inl rfl
  | discardCr =>
    obtain ⟨-, -, -, -, rfl⟩ := exec_discardCr_eq_next.1 h
    exact .inl rfl
  | drop b =>
    obtain ⟨-, -, -, -, -, -, rfl⟩ := exec_drop_eq_next.1 h
    exact .inl rfl
  | commitLf =>
    obtain ⟨-, -, -, -, hc⟩ := exec_commitLf_eq_next.1 h
    exact .inl (commitAnswers_buf hc)
  | commitCr =>
    obtain ⟨-, -, -, -, hc⟩ := exec_commitCr_eq_next.1 h
    exact .inl (commitAnswers_buf hc)
  | cmdS =>
    obtain ⟨-, -, ha⟩ := exec_cmdS_eq_next.1 h
    exact .inl (applyAnswers_buf ha fun _ => rfl)
  | cmdP =>
    obtain ⟨-, -, ha⟩ := exec_cmdP_eq_next.1 h
    exact .inl (applyAnswers_buf ha fun _ => rfl)
  | cmdI =>
    obtain ⟨-, -, ha⟩ := exec_cmdI_eq_next.1 h
    exact .inl (applyAnswers_buf ha fun _ => rfl)
  | cmdD =>
    obtain ⟨-, -, ha⟩ := exec_cmdD_eq_next.1 h
    exact .inl (applyAnswers_buf ha fun _ => rfl)
  | cmdOther b =>
    obtain ⟨-, -, -, -, rfl⟩ := exec_cmdOther_eq_next.1 h
    exact .inl rfl
  | tick =>
    obtain ⟨-, rfl⟩ := exec_tick_eq_next.1 h
    split <;> exact .inl rfl
  | snap =>
    obtain ⟨-, -, rfl⟩ := exec_snap_eq_next.1 h
    exact .inl rfl
  | ctrl =>
    obtain ⟨-, -, ⟨-, rfl⟩ | ⟨-, -, ⟨x, -, rfl⟩ | ⟨-, rfl⟩⟩⟩ := exec_ctrl_eq_next.1 h <;> exact .inl rfl
  | pidStep n =>
    obtain ⟨-, -, -, -, ⟨x, -, rfl⟩ | ⟨-, rfl⟩⟩ := exec_pidStep_eq_next.1 h <;> exact .inl rfl
  | rpt =>
    obtain ⟨-, -, ⟨-, rfl⟩ | ⟨-, ⟨-, rfl⟩ | ⟨-, -, rfl⟩⟩⟩ := exec_rpt_eq_next.1 h <;> exact .inl rfl

/-- Settles O49: an operation writes at most the byte its rule stores, and a write leaves every other byte. -/
theorem operationsStoreOnlyTheirByte : Obligations.OperationsStoreOnlyTheirByte :=
  fun _ _ _ _ h ha => (exec_bufWrittenAt h).read_of_ne ha

end Sys2Proof.Machine
end

section
/-! SUPPORT. Decoding and encoding (R46, R47): decoding gives exactly the well-formed rows that stand at a place, with
their bytes. -/

namespace Sys2Proof

open Machine

/-- A well-formed row that stands at the place and has these bytes. -/
def Instr.IsRowOf (i : Instr) (c : DecodeCtx) (bs : List Byte) : Prop :=
  i.wf = true ∧ i.rowAt c = true ∧ encode i = some bs

/-! ### From the row to its bytes and back -/

theorem decodeRx_collecting_of_full {b : Byte} (ht : isTerminator b = false) {len cap : Nat} (hfull : cap ≤ len) :
    decodeRx .collecting len cap (some b) = .drop b := by
  simp_all [decodeRx, isTerminator]

theorem decodeTag_of_not_commandTag {b : Byte} (h : isCommandTag b = false) : decodeTag b = .cmdOther b := by
  simp_all [decodeTag, isCommandTag]

theorem decode_dispatch {b : Byte} (ht : isTerminator b = false) : decode .dispatch [b] = .ok (decodeTag b) := by
  simp [decode, ht]

/-- A row that stands at a line state is the one its poll result is decoded to. -/
theorem decodeRx_of_rowAt {i : Instr} {cs : CmdState} {len cap : Nat} (hw : i.wf = true)
    (hat : i.rowAt (.line cs len cap) = true) :
    ∃ r : Option Byte, encode i = some r.toList ∧ decodeRx cs len cap r = i := by
  cases i <;> simp only [Instr.rowAt, DecodeCtx.lineWith, DecodeCtx.isDispatch, Bool.and_eq_true, beq_iff_eq,
    decide_eq_true_eq, Bool.false_eq_true] at hat
  case rxNone => exact ⟨none, rfl, rfl⟩
  case discardLf => subst hat; exact ⟨some byteLF, rfl, rfl⟩
  case discardCr => subst hat; exact ⟨some byteCR, rfl, rfl⟩
  case tag b => subst hat; exact ⟨some b, rfl, decodeRx_idle_of_text (by simpa [Instr.wf] using hw) len cap⟩
  case store b =>
    obtain ⟨rfl, hlt⟩ := hat
    exact ⟨some b, rfl, decodeRx_collecting_of_text (by simpa [Instr.wf] using hw) hlt⟩
  case drop b =>
    obtain ⟨rfl, hfull⟩ := hat
    exact ⟨some b, rfl, decodeRx_collecting_of_full (by simpa [Instr.wf] using hw) hfull⟩
  case commitLf => subst hat; exact ⟨some byteLF, rfl, rfl⟩
  case commitCr => subst hat; exact ⟨some byteCR, rfl, rfl⟩

/-- A row that stands at a dispatch is the one its tag byte is decoded to. -/
theorem decodeTag_of_rowAt {i : Instr} (hw : i.wf = true) (hat : i.rowAt .dispatch = true) :
    ∃ b, encode i = some [b] ∧ isTerminator b = false ∧ decodeTag b = i := by
  cases i <;> simp only [Instr.rowAt, DecodeCtx.lineWith, DecodeCtx.isDispatch, Bool.false_eq_true] at hat
  case cmdS => exact ⟨byteS, rfl, rfl, rfl⟩
  case cmdP => exact ⟨byteP, rfl, rfl, rfl⟩
  case cmdI => exact ⟨byteI, rfl, rfl, rfl⟩
  case cmdD => exact ⟨byteD, rfl, rfl, rfl⟩
  case cmdOther b =>
    obtain ⟨ht, hc⟩ : isTerminator b = false ∧ isCommandTag b = false := by simpa [Instr.wf] using hw
    exact ⟨b, rfl, ht, decodeTag_of_not_commandTag hc⟩

/-- Settles O2, at a line state and at a dispatch: the row's bytes are the input that is decoded to it. -/
theorem decodeOfEncodeIsTheRow : Obligations.DecodeOfEncodeIsTheRow := by
  rintro i (⟨cs, len, cap⟩ | -) bs hw hat hbs
  · obtain ⟨r, hr, rfl⟩ := decodeRx_of_rowAt hw hat
    obtain rfl : r.toList = bs := Option.some.inj (hr.symm.trans hbs)
    exact decode_line_toList cs len cap r
  · obtain ⟨b, hb, ht, rfl⟩ := decodeTag_of_rowAt hw hat
    obtain rfl : [b] = bs := Option.some.inj (hb.symm.trans hbs)
    exact decode_dispatch ht

/-! ### From the bytes to their row -/

/-- R46: a poll result is decoded to a row that stands at the line state and has this byte, or none. -/
theorem decodeRx_isRowOf (cs : CmdState) (len cap : Nat) (r : Option Byte) :
    (decodeRx cs len cap r).IsRowOf (.line cs len cap) r.toList := by
  obtain _ | b := r
  · exact ⟨rfl, rfl, rfl⟩
  by_cases hlf : b = byteLF
  · subst hlf; cases cs <;> exact ⟨rfl, rfl, rfl⟩
  by_cases hcr : b = byteCR
  · subst hcr; cases cs <;> exact ⟨rfl, rfl, rfl⟩
  have ht : isTerminator b = false := by simp [isTerminator, hlf, hcr]
  have hw : (!isTerminator b) = true := by rw [ht]; rfl
  cases cs with
  | idle => rw [decodeRx_idle_of_text ht]; exact ⟨hw, rfl, rfl⟩
  | collecting =>
    rcases Nat.lt_or_ge len cap with hlt | hfull
    · rw [decodeRx_collecting_of_text ht hlt]
      exact ⟨hw, by simp [Instr.rowAt, DecodeCtx.lineWith, hlt], rfl⟩
    · rw [decodeRx_collecting_of_full ht hfull]
      exact ⟨hw, by simp [Instr.rowAt, DecodeCtx.lineWith, hfull], rfl⟩

/-- R47: a tag byte is decoded to a dispatch row with this byte. -/
theorem decodeTag_isRowOf {b : Byte} (ht : isTerminator b = false) : (decodeTag b).IsRowOf .dispatch [b] := by
  unfold decodeTag
  split_ifs with hs hp hi hd
  · exact ⟨rfl, rfl, hs ▸ rfl⟩
  · exact ⟨rfl, rfl, hp ▸ rfl⟩
  · exact ⟨rfl, rfl, hi ▸ rfl⟩
  · exact ⟨rfl, rfl, hd ▸ rfl⟩
  · exact ⟨by simp [Instr.wf, isCommandTag, ht, hs, hp, hi, hd], rfl, rfl⟩

/-- Settles O3, by the place and the number of bytes decoding accepts there. -/
theorem decodedRowsAreWellFormed : Obligations.DecodedRowsAreWellFormed := by
  intro c bs i h
  unfold decode at h
  split at h
  · cases h; exact decodeRx_isRowOf _ _ _ none
  · cases h; exact decodeRx_isRowOf _ _ _ (some _)
  · cases h
  · split at h
    · cases h
    · rename_i b ht
      cases h; exact decodeTag_isRowOf (by simpa using ht)
  · cases h
  · cases h

/-- Bytes that decoding accepts have the decoded row and no other. -/
theorem existsUnique_of_decode {c : DecodeCtx} {bs : List Byte} {i : Instr} (h : decode c bs = .ok i) :
    ∃! i : Instr, i.IsRowOf c bs :=
  ⟨i, decodedRowsAreWellFormed c bs i h, fun j ⟨hw, hat, hbs⟩ =>
    Except.ok.inj ((decodeOfEncodeIsTheRow j c bs hw hat hbs).symm.trans h)⟩

/-- Settles O4: decoding accepts every poll result and every tag byte. -/
theorem everyInputHasExactlyOneRow : Obligations.EveryInputHasExactlyOneRow :=
  ⟨fun cs len cap r => existsUnique_of_decode (decode_line_toList cs len cap r),
    fun _ ht => existsUnique_of_decode (decode_dispatch ht)⟩

/-- Settles O1: each word is decoded by computation. -/
theorem wordsDecodeAsTheTablesSay : Obligations.WordsDecodeAsTheTablesSay := by
  refine ⟨?_, ?_, ?_, ?_, ?_, ?_, ?_, ?_, ?_, ?_, ?_, ?_, ?_, ?_⟩ <;> rfl

end Sys2Proof
end

section
/-! SUPPORT. Digit bytes as a number, and the decimal digits of the status line (R57). -/

namespace Sys2Proof.Machine

open Sys2Proof

/-! ### Digit bytes as a number -/

@[simp] theorem digitsValue_nil : digitsValue [] = 0 := rfl

@[simp] theorem digitsValue_concat (w : List Byte) (b : Byte) :
    digitsValue (w ++ [b]) = 10 * digitsValue w + digitVal b := by
  simp [digitsValue]

@[simp] theorem digitText_nil : DigitText [] := by simp [DigitText]

theorem digitText_append {w x : List Byte} : DigitText (w ++ x) ↔ DigitText w ∧ DigitText x := by
  simp [DigitText, or_imp, forall_and]

theorem digitVal_lt {b : Byte} (h : isDigit b = true) : digitVal b < 10 := by
  simp only [isDigit, Bool.and_eq_true, decide_eq_true_eq] at h
  unfold digitVal
  omega

/-- A number of k digits is below 10^k. -/
theorem digitsValue_lt {w : List Byte} (hw : DigitText w) : digitsValue w < 10 ^ w.length := by
  induction w using List.reverseRecOn with
  | nil => simp
  | append_singleton w b ih =>
    obtain ⟨hw, hb⟩ := digitText_append.1 hw
    have := digitVal_lt (hb b (by simp))
    have := ih hw
    rw [digitsValue_concat, List.length_append, List.length_singleton, pow_succ]
    omega

/-! ### Decimal digits -/

/-- The byte of a digit (R44). -/
def digitByte (d : Nat) : Byte := BitVec.ofNat 8 (0x30 + d)

theorem digitByte_toNat {d : Nat} (hd : d < 10) : (digitByte d).toNat = 0x30 + d := by
  simp only [digitByte, BitVec.toNat_ofNat]
  omega

theorem digitVal_digitByte {d : Nat} (hd : d < 10) : digitVal (digitByte d) = d := by
  simp [digitVal, digitByte_toNat hd]

theorem isDigit_digitByte {d : Nat} (hd : d < 10) : isDigit (digitByte d) = true := by
  simp only [isDigit, digitByte_toNat hd, Bool.and_eq_true, decide_eq_true_eq]
  omega

theorem digitByte_ne_zero {d : Nat} (hd : d < 10) (hpos : 0 < d) : digitByte d ≠ 0x30 := fun h => by
  have h := congrArg BitVec.toNat h
  rw [digitByte_toNat hd] at h
  simp at h
  omega

theorem decimalText_of_lt {d : Nat} (hd : d < 10) : decimalText d = [digitByte d] := by
  simp [decimalText, Nat.toDigits_of_lt_base hd, Nat.toNat_digitChar_of_lt_ten hd, digitByte]

theorem decimalText_append {m d : Nat} (hm : 0 < m) (hd : d < 10) :
    decimalText (10 * m + d) = decimalText m ++ [digitByte d] := by
  rw [← decimalText_of_lt hd]
  simp [decimalText, ← Nat.toDigits_append_toDigits (b := 10) (by decide) hm hd]

theorem decimalText_ne_nil (n : Nat) : decimalText n ≠ [] := by simp [decimalText]

theorem digitsValue_decimalText (n : Nat) : digitsValue (decimalText n) = n := by
  induction n using Nat.base_induction 10 (by decide) with
  | single d hd => simpa [decimalText_of_lt hd, digitsValue] using digitVal_digitByte hd
  | digit m d hd hm ih => rw [decimalText_append hm hd, digitsValue_concat, ih, digitVal_digitByte hd]

theorem digitText_decimalText (n : Nat) : DigitText (decimalText n) := by
  induction n using Nat.base_induction 10 (by decide) with
  | single d hd => simpa [decimalText_of_lt hd, DigitText] using isDigit_digitByte hd
  | digit m d hd hm ih =>
    rw [decimalText_append hm hd, digitText_append]
    exact ⟨ih, by simpa [DigitText] using isDigit_digitByte hd⟩

/-- R57: no leading zero. -/
theorem decimalText_head {n : Nat} (hn : 0 < n) : (decimalText n).head? ≠ some 0x30 := by
  induction n using Nat.base_induction 10 (by decide) with
  | single d hd => simpa [decimalText_of_lt hd] using digitByte_ne_zero hd hn
  | digit m d hd hm ih =>
    rw [decimalText_append hm hd, List.head?_append_of_ne_nil _ (decimalText_ne_nil m)]
    exact ih hm

/-- Settles O12, by the digits of n: the last one appended to those of n / 10. -/
theorem decimalTextIsCanonical : Obligations.DecimalTextIsCanonical :=
  fun n => ⟨digitsValue_decimalText n, digitText_decimalText n, decimalText_head, fun h => h ▸ rfl⟩

end Sys2Proof.Machine
end

section
/-! SUPPORT. The parser is the grammar of R48: sound, complete, and reading as far as any literal goes. -/

namespace Sys2Proof.Machine

open Sys2Proof

theorem digitText_takeWhile (t : List Byte) : DigitText (t.takeWhile isDigit) := fun _ => List.mem_takeWhile_imp

@[simp] theorem isDigit_bytePoint : isDigit bytePoint = false := rfl

/-! ### MANTISSA -/

/-- Digits with no point after them are a mantissa read whole. -/
theorem takeMantissa_digits {w : List Byte} (hw : DigitText w) (hne : w ≠ []) : takeMantissa w = some (w, [], []) := by
  have htake : w.takeWhile isDigit = w := List.takeWhile_eq_self_iff.2 hw
  have hdrop : w.dropWhile isDigit = [] := List.dropWhile_eq_nil_iff.2 hw
  simp [takeMantissa, htake, hdrop, hne]

/-- At a point the parser reads the digits on both sides of it. -/
theorem takeMantissa_append_point {w fr : List Byte} (hw : DigitText w) (hfr : DigitText fr) (hne : w = [] → fr ≠ [])
    (r : List Byte) : takeMantissa (w ++ bytePoint :: (fr ++ r)) =
      some (w, fr ++ r.takeWhile isDigit, r.dropWhile isDigit) := by
  have hnone : ¬(w = [] ∧ fr ++ r.takeWhile isDigit = []) := fun ⟨h, h'⟩ => hne h (List.append_eq_nil_iff.1 h').1
  simp only [takeMantissa, List.takeWhile_append_of_pos hw, List.dropWhile_append_of_pos hw,
    List.takeWhile_append_of_pos hfr, List.dropWhile_append_of_pos hfr, List.takeWhile_cons, List.dropWhile_cons,
    isDigit_bytePoint, Bool.false_eq_true,
    reduceIte, List.append_nil, if_neg hnone]

/-- What the parser reads as a mantissa is one of the grammar. -/
theorem mantissaText_of_takeMantissa {t w fr rest : List Byte} (h : takeMantissa t = some (w, fr, rest)) :
    ∃ m, t = m ++ rest ∧ MantissaText m (digitsValue (w ++ fr)) fr.length := by
  have ht : t.takeWhile isDigit ++ t.dropWhile isDigit = t := List.takeWhile_append_dropWhile
  have hw := digitText_takeWhile t
  unfold takeMantissa at h
  generalize t.takeWhile isDigit = whole at ht hw h
  generalize t.dropWhile isDigit = after at ht h
  subst ht
  obtain _ | ⟨b, r⟩ := after
  · obtain ⟨hne, rfl, rfl, rfl⟩ : whole ≠ [] ∧ whole = w ∧ [] = fr ∧ [] = rest := by simpa using h
    exact ⟨whole, rfl, by simpa using MantissaText.whole whole hne hw⟩
  by_cases hb : b = bytePoint
  · subst hb
    have hr : r.takeWhile isDigit ++ r.dropWhile isDigit = r := List.takeWhile_append_dropWhile
    have hfr := digitText_takeWhile r
    obtain ⟨hne, rfl, rfl, rfl⟩ : ¬(whole = [] ∧ r.takeWhile isDigit = []) ∧ whole = w ∧
        r.takeWhile isDigit = fr ∧ r.dropWhile isDigit = rest := by simpa using h
    by_cases hnil : whole = []
    · subst hnil
      exact ⟨bytePoint :: r.takeWhile isDigit, by simp [hr], .bare _ (fun hf => hne ⟨rfl, hf⟩) hfr⟩
    · exact ⟨whole ++ bytePoint :: r.takeWhile isDigit, by simp [hr], .pointed whole _ hnil hw hfr⟩
  · obtain ⟨hne, rfl, rfl, rfl⟩ : whole ≠ [] ∧ whole = w ∧ [] = fr ∧ b :: r = rest := by simpa [hb] using h
    exact ⟨whole, rfl, by simpa using MantissaText.whole whole hne hw⟩

/-- A mantissa of the grammar is read whole, with its digits. -/
theorem takeMantissa_of_mantissaText {m : List Byte} {n k : Nat} (h : MantissaText m n k) :
    ∃ w fr, takeMantissa m = some (w, fr, []) ∧ digitsValue (w ++ fr) = n ∧ fr.length = k := by
  cases h with
  | whole _ hne hw => exact ⟨m, [], takeMantissa_digits hw hne, by simp, rfl⟩
  | pointed w fr hne hw hfr =>
    exact ⟨w, fr, by simpa using takeMantissa_append_point hw hfr (absurd · hne) [], rfl, rfl⟩
  | bare fr hne hfr =>
    exact ⟨[], fr, by simpa using takeMantissa_append_point digitText_nil hfr (fun _ => hne) [], rfl, rfl⟩

/-- Where the text begins with a mantissa of the grammar, the parser reads at least that far. -/
theorem takeMantissa_append {m : List Byte} {n k : Nat} (h : MantissaText m n k) (r : List Byte) :
    ∃ w fr rest, takeMantissa (m ++ r) = some (w, fr, rest) ∧ rest.length ≤ r.length := by
  have hdrop : (r.dropWhile isDigit).length ≤ r.length := (List.dropWhile_suffix _).length_le
  cases h with
  | whole _ hne hw =>
    have hne' : m ++ r.takeWhile isDigit ≠ [] := by simp [hne]
    simp only [takeMantissa, List.takeWhile_append_of_pos hw, List.dropWhile_append_of_pos hw, hne', false_and,
      if_false]
    generalize r.dropWhile isDigit = after at hdrop
    split
    · exact ⟨_, _, _, rfl, hdrop⟩
    · rename_i b x
      have hx : (x.dropWhile isDigit).length ≤ (b :: x).length := (List.dropWhile_suffix _).length_le.trans (by simp)
      split_ifs
      · exact ⟨_, _, _, rfl, hx.trans hdrop⟩
      · exact ⟨_, _, _, rfl, hdrop⟩
  | pointed w fr hne hw hfr =>
    exact ⟨_, _, _, by simpa using takeMantissa_append_point hw hfr (absurd · hne) r, hdrop⟩
  | bare fr hne hfr =>
    exact ⟨_, _, _, by simpa using takeMantissa_append_point digitText_nil hfr (fun _ => hne) r, hdrop⟩

/-! ### NUMBER -/

/-- A sign is read off a text whose mantissa begins with a digit or a point. -/
theorem takeSign_append {sg m : List Byte} {neg : Bool} {n k : Nat} (hs : SignText sg neg) (hm : MantissaText m n k)
    (r : List Byte) : takeSign (sg ++ (m ++ r)) = (neg, m ++ r) := by
  cases hs with
  | plus => rfl
  | minus => rfl
  | absent =>
    obtain ⟨b, x, rfl, hb⟩ : ∃ b x, m = b :: x ∧ (isDigit b = true ∨ b = bytePoint) := by
      cases hm with
      | whole _ hne hw =>
        obtain ⟨b, x, rfl⟩ := List.exists_cons_of_ne_nil hne
        exact ⟨b, x, rfl, .inl (hw b (by simp))⟩
      | pointed w fr hne hw hfr =>
        obtain ⟨b, x, rfl⟩ := List.exists_cons_of_ne_nil hne
        exact ⟨b, _, rfl, .inl (hw b (by simp))⟩
      | bare fr hne hfr => exact ⟨bytePoint, fr, rfl, .inr rfl⟩
    have hminus : b ≠ byteMinus := by rintro rfl; revert hb; decide
    have hplus : b ≠ bytePlus := by rintro rfl; revert hb; decide
    simp [takeSign, hminus, hplus]

theorem signText_of_takeSign (t : List Byte) : ∃ sg, SignText sg (takeSign t).1 ∧ t = sg ++ (takeSign t).2 := by
  unfold takeSign
  split
  · exact ⟨[], .absent, rfl⟩
  · split_ifs with hm hp
    · exact ⟨[byteMinus], .minus, by simp [hm]⟩
    · exact ⟨[bytePlus], .plus, by simp [hp]⟩
    · exact ⟨[], .absent, rfl⟩

/-- What the parser reads is a literal of the grammar, and the rest stands after it. -/
theorem numberText_of_takeNumber {t : List Byte} {l : Literal} (h : takeNumber t = some l) :
    ∃ q, t = q ++ l.rest ∧ NumberText q l.neg l.digits l.scale := by
  obtain ⟨sg, hs, ht⟩ := signText_of_takeSign t
  unfold takeNumber at h
  split at h
  · cases h
  · rename_i hm
    cases h
    obtain ⟨m, hm, hgram⟩ := mantissaText_of_takeMantissa hm
    exact ⟨sg ++ m, by rw [List.append_assoc, ← hm]; exact ht, .mk sg m _ _ _ hs hgram⟩

/-- A literal of the grammar is read whole. -/
theorem takeNumber_of_numberText {t : List Byte} {neg : Bool} {n k : Nat} (h : NumberText t neg n k) :
    takeNumber t = some ⟨neg, n, k, []⟩ := by
  obtain ⟨sg, m, _, _, _, hs, hm⟩ := h
  obtain ⟨w, fr, htake, rfl, rfl⟩ := takeMantissa_of_mantissaText hm
  have hsign := takeSign_append hs hm []
  rw [List.append_nil] at hsign
  simp [takeNumber, hsign, htake]

/-- Where the text begins with a literal of the grammar, the parser reads at least that far. -/
theorem takeNumber_append {q : List Byte} {neg : Bool} {n k : Nat} (h : NumberText q neg n k) (r : List Byte) :
    ∃ l, takeNumber (q ++ r) = some l ∧ l.rest.length ≤ r.length := by
  obtain ⟨sg, m, _, _, _, hs, hm⟩ := h
  obtain ⟨w, fr, rest, htake, hlen⟩ := takeMantissa_append hm r
  exact ⟨⟨neg, digitsValue (w ++ fr), fr.length, rest⟩, by simp [takeNumber, takeSign_append hs hm r, htake], hlen⟩

/-- Settles O8: the parser is sound and complete for the grammar. -/
theorem numberTextsAreTheGrammar : Obligations.NumberTextsAreTheGrammar := by
  refine fun t neg n k => ⟨fun h => ?_, takeNumber_of_numberText⟩
  obtain ⟨q, rfl, hq⟩ := numberText_of_takeNumber h
  simpa using hq

end Sys2Proof.Machine
end

section
/-! SUPPORT. The value of a text (R49, R50), and that a short one has it (R51). -/

namespace Sys2Proof.Machine

open Sys2Proof

/-! ### The value of a text -/

theorem ofDec_neg {f : NumFmt} {neg : Bool} {n k : Nat} {v : NumVal} (h : NumVal.ofDec f neg n k = some v) :
    v.neg = neg := by
  obtain ⟨m, -, rfl⟩ := Option.map_eq_some_iff.1 h
  rfl

/-- R49: under STRICT a literal is worth its decimal. -/
theorem strictValue_of_numberText {t : List Byte} {neg : Bool} {n k : Nat} (f : NumFmt) (h : NumberText t neg n k) :
    strictValue f t = NumVal.ofDec f neg n k := by
  simp [strictValue, takeNumber_of_numberText h, literalValue]

/-- R49: under STRICT a text that is no literal is worth +0. -/
theorem strictValue_of_not_numberText {t : List Byte} (f : NumFmt) (h : ¬∃ neg n k, NumberText t neg n k) :
    strictValue f t = some .posZero := by
  unfold strictValue
  split
  · rfl
  · rename_i l hl
    obtain ⟨q, hq, hgram⟩ := numberText_of_takeNumber hl
    have hrest : l.rest ≠ [] := fun hnil => h ⟨l.neg, l.digits, l.scale, by rwa [hq, hnil, List.append_nil]⟩
    simp [hrest]

/-- Settles O9, by whether the grammar derives the text. -/
theorem strictTextsAreWorthTheirLiteralOrZero : Obligations.StrictTextsAreWorthTheirLiteralOrZero := by
  intro p t hmode
  have hval : textValue p t = strictValue p.numFmt t := by simp [textValue, hmode]
  rw [hval]
  refine ⟨fun neg n k h => ?_, strictValue_of_not_numberText p.numFmt⟩
  rw [strictValue_of_numberText p.numFmt h]
  exact ⟨ofDec_roundsTo p.numFmt neg n k, fun _ => ofDec_neg⟩

/-- The longest literal a text begins with is the one the parser reads. -/
theorem takeNumber_of_longest {t q : List Byte} {neg : Bool} {n k : Nat} (hpre : q <+: t) (h : NumberText q neg n k)
    (hmax : ∀ q' neg' n' k', q' <+: t → NumberText q' neg' n' k' → q'.length ≤ q.length) :
    ∃ rest, takeNumber t = some ⟨neg, n, k, rest⟩ := by
  obtain ⟨r, rfl⟩ := hpre
  obtain ⟨l, hl, hlen⟩ := takeNumber_append h r
  obtain ⟨q', hq, hgram⟩ := numberText_of_takeNumber hl
  have hle := hmax q' _ _ _ ⟨l.rest, hq.symm⟩ hgram
  obtain ⟨rfl, rfl⟩ : q = q' ∧ r = l.rest := by
    refine List.append_inj hq ?_
    have := congrArg List.length hq
    simp only [List.length_append] at this
    omega
  have := (takeNumber_of_numberText h).symm.trans (takeNumber_of_numberText hgram)
  obtain ⟨rfl, rfl, rfl⟩ : neg = l.neg ∧ n = l.digits ∧ k = l.scale := by simpa using this
  exact ⟨l.rest, hl⟩

/-- Leading spaces and tabs are skipped, up to a byte that is neither. -/
theorem dropWhile_blanks_append {ws t : List Byte} (hws : ∀ b ∈ ws, b = byteSpace ∨ b = byteTab)
    (hspace : t.head? ≠ some byteSpace) (htab : t.head? ≠ some byteTab) :
    (ws ++ t).dropWhile (fun b => b == byteSpace || b == byteTab) = t := by
  rw [List.dropWhile_append_of_pos fun b hb => by simpa using hws b hb]
  cases t with
  | nil => rfl
  | cons b t => simp_all

/-- Settles O10, by whether the text begins with a literal after its blanks. -/
theorem prefixTextsAreWorthTheirLongestLiteral : Obligations.PrefixTextsAreWorthTheirLongestLiteral := by
  intro p ws t hmode hws hspace htab
  have hskip := dropWhile_blanks_append hws hspace htab
  simp only [textValue, hmode, longestValue, hskip]
  refine ⟨fun q neg n k hpre hq hmax => ?_, fun hnone => ?_⟩
  · obtain ⟨rest, hl⟩ := takeNumber_of_longest hpre hq hmax
    simp only [hl]
    exact ⟨ofDec_roundsTo p.numFmt neg n k, fun _ => ofDec_neg⟩
  · cases hl : takeNumber t with
    | none => rfl
    | some l =>
      obtain ⟨q, rfl, hq⟩ := numberText_of_takeNumber hl
      exact absurd ⟨q, _, _, _, List.prefix_append q _, hq⟩ hnone

/-! ### Short texts -/

/-- A literal of k bytes has digits below 10^k. -/
theorem digits_lt_of_numberText {q : List Byte} {neg : Bool} {n k : Nat} (h : NumberText q neg n k) :
    n < 10 ^ q.length := by
  obtain ⟨sg, m, _, _, _, -, hm⟩ := h
  have hlt : n < 10 ^ m.length := by
    cases hm with
    | whole _ _ hw => exact digitsValue_lt hw
    | pointed w fr _ hw hfr =>
      exact (digitsValue_lt (digitText_append.2 ⟨hw, hfr⟩)).trans_le (Nat.pow_le_pow_right (by norm_num) (by simp))
    | bare fr _ hfr => exact (digitsValue_lt hfr).trans_le (Nat.pow_le_pow_right (by norm_num) (by simp))
  exact hlt.trans_le (Nat.pow_le_pow_right (by norm_num) (by simp))

theorem digits_lt_of_takeNumber {t : List Byte} {l : Literal} (h : takeNumber t = some l) :
    l.digits < 10 ^ t.length := by
  obtain ⟨q, hq, hgram⟩ := numberText_of_takeNumber h
  refine (digits_lt_of_numberText hgram).trans_le (Nat.pow_le_pow_right (by norm_num) ?_)
  simp [hq]

/-- R51: 38 digits are below the overflow threshold of binary32, wherever the point stands. -/
theorem ofDec_binary32_of_lt {n : Nat} (hn : n < 10 ^ 38) (neg : Bool) (k : Nat) :
    ∃ v, NumVal.ofDec .binary32 neg n k = some v := by
  have hlt : n * NumFmt.one .binary32 < NumFmt.overflow .binary32 :=
    Nat.mul_lt_mul_of_pos_right (hn.trans (by norm_num)) (one_pos _)
  have hle : NumFmt.overflow .binary32 ≤ NumFmt.overflow .binary32 * 10 ^ k :=
    Nat.le_mul_of_pos_right _ (by positivity)
  simp [NumVal.ofDec, NumVal.rnd, roundMag, (hlt.trans_le hle).not_ge]

theorem literalValue_of_short {t : List Byte} {l : Literal} (ht : t.length ≤ 38) (h : takeNumber t = some l) :
    ∃ v, literalValue .binary32 l = some v :=
  ofDec_binary32_of_lt ((digits_lt_of_takeNumber h).trans_le (Nat.pow_le_pow_right (by norm_num) ht)) _ _

/-- Settles O11: a literal within 38 bytes has at most 38 digits, and every other text is worth +0. -/
theorem shortTextsNeverOverflow : Obligations.ShortTextsNeverOverflow := by
  intro p t hfmt hcap hlen
  have ht : t.length ≤ 38 := by omega
  unfold textValue
  rw [hfmt]
  split
  · unfold strictValue
    split
    · exact ⟨_, rfl⟩
    · rename_i l hl
      split_ifs
      · exact literalValue_of_short ht hl
      · exact ⟨_, rfl⟩
  · unfold longestValue
    split
    · exact ⟨_, rfl⟩
    · rename_i l hl
      exact literalValue_of_short ((List.dropWhile_suffix _).length_le.trans ht) hl

end Sys2Proof.Machine
end

section
/-! SUPPORT. A commit and its dispatch row (R47, R86, R112). -/

namespace Sys2Proof.Machine

open Sys2Proof

variable {s t : State} {tag : Byte}

theorem isTerminator_of_isCommandTag (h : isCommandTag tag = true) : isTerminator tag = false := by
  simp only [isCommandTag, Bool.or_eq_true, beq_iff_eq] at h
  obtain ((rfl | rfl) | rfl) | rfl := h <;> rfl

/-- R47: a tag's dispatch row applies the line under it, where the row stands. -/
theorem exec_decodeTag (tag : Byte) (s : State) :
    exec (decodeTag tag) s = gate s (dispatching s tag && !isTerminator tag) (settle s (applyTag tag s)) := by
  unfold decodeTag applyTag
  split_ifs with hs hp hi hd
  · subst hs; exact congrArg (gate s · _) (Bool.and_true _).symm
  · subst hp; exact congrArg (gate s · _) (Bool.and_true _).symm
  · subst hi; exact congrArg (gate s · _) (Bool.and_true _).symm
  · subst hd; exact congrArg (gate s · _) (Bool.and_true _).symm
  · have hc : isCommandTag tag = false := by
      simp only [isCommandTag, beq_eq_false_iff_ne.2 hs, beq_eq_false_iff_ne.2 hp, beq_eq_false_iff_ne.2 hi,
        beq_eq_false_iff_ne.2 hd, Bool.or_self]
    simp [exec, execCmdOther, hc]

/-- Where a dispatch row stands. -/
theorem dispatching_iff :
    dispatching s tag = true ↔
      s.phase = .poll ∧ s.cmdState = .collecting ∧ 1 ≤ s.len ∧ Memory.read s.buf 0 = some tag := by
  simp [dispatching, and_assoc]

/-- The bytes read depend on the line alone. -/
theorem bufReads_congr (hlen : t.len = s.len) (hbuf : t.buf = s.buf) (i n : Nat) : bufReads t i n = bufReads s i n := by
  induction n generalizing i with
  | zero => rfl
  | succ n ih => simp only [bufReads, bufRead, hlen, hbuf, ih]

/-- Consuming a poll result leaves the line's value. -/
@[simp] theorem lineValue_takeRx (s : State) : lineValue s.takeRx = lineValue s := by
  simp only [lineValue, lineText, takeRx_len, takeRx_params, bufReads_congr (takeRx_len s) (takeRx_buf s)]

/-- APPLY of a recognised tag stops as the line's value does. -/
theorem applyTag_of_error {x : Stop} (hc : isCommandTag tag = true) (hv : lineValue s = .error x) :
    applyTag tag s = .error x := by
  simp only [isCommandTag, Bool.or_eq_true, beq_iff_eq] at hc
  obtain ((rfl | rfl) | rfl) | rfl := hc <;> exact applyValue_eq_error.2 hv

/-- A commit of either terminator is its effect after the byte is consumed, then phase SNAP. -/
theorem exec_commit_enabled {i : Instr} {b : Byte} (hib : i = .commitLf ∧ b = 0x0A ∨ i = .commitCr ∧ b = 0x0D)
    (hl : s.params.legal = true) (hf : s.faults = []) (hp : s.phase = .poll) (hc : s.cmdState = .collecting)
    (hr : s.rxNext = some b) : exec i s = settle s.takeRx (thenPhase (commitLine s.takeRx) .snap) := by
  rcases hib with ⟨rfl, rfl⟩ | ⟨rfl, rfl⟩ <;> exact pollRow_enabled hl hf hp (by simp [hc]) hr

/-- With its tag in buf[0] a commit is APPLY, then the clearing. -/
theorem commitLine_of_ok (hlen : 1 ≤ s.len) (htag : Memory.read s.buf 0 = some tag) (h : applyTag tag s = .ok t) :
    commitLine s = .ok t.clearLine :=
  commitLine_eq_ok.2 ⟨tag, t, bufRead_eq_ok.2 ⟨hlen, htag⟩, h, rfl⟩

/-- With its tag in buf[0] a commit stops as APPLY does. -/
theorem commitLine_of_error {x : Stop} (hlen : 1 ≤ s.len) (htag : Memory.read s.buf 0 = some tag)
    (h : applyTag tag s = .error x) : commitLine s = .error x := by
  have hread : bufRead s 0 = .ok tag := bufRead_eq_ok.2 ⟨hlen, htag⟩
  simp only [commitLine, hread, h]

/-- Settles O30: both run APPLY on the state after the byte is consumed, which answers a state or raises. -/
theorem commitIsItsDispatchRowThenTheClearing : Obligations.CommitIsItsDispatchRowThenTheClearing := by
  intro s t i b tag hib hc htag hr hrow
  rw [exec_decodeTag, gate_eq_next] at hrow
  obtain ⟨hl, hf, hen, happly⟩ := hrow
  obtain ⟨hp, -, hlen, -⟩ := dispatching_iff.1 (Bool.and_eq_true_iff.1 hen).1
  rw [exec_commit_enabled (s := s) hib hl hf hp hc hr]
  rcases settle_eq_next.1 happly with hok | ⟨⟨⟩, herr, rfl⟩
  · have hft : t.faults = [] := (applyTag_frame hok .faults (by decide)).trans hf
    rw [commitLine_of_ok hlen htag hok, thenPhase_ok, settle_ok, if_pos hft]
    rfl
  · rw [commitLine_of_error hlen htag herr, thenPhase_error, settle_raise, raise_of_noFault (s := s.takeRx) hf]
    simp

/-- Settles O31: APPLY raises in the commit and in the dispatch row alike. -/
theorem overflowingTextRaisesNonfinite : Obligations.OverflowingTextRaisesNonfinite := by
  intro s i b tag text hib hs hp hc hlen htag hr hcmd htext hv
  obtain ⟨hl, hf⟩ := hs
  have hval : lineValue s = .error (.raise .nonfinite) := by simp only [lineValue, htext, hv]
  have happly : applyTag tag s = .error (.raise .nonfinite) := applyTag_of_error hcmd hval
  constructor
  · have happly' : applyTag tag s.takeRx = .error (.raise .nonfinite) :=
      applyTag_of_error hcmd (by rwa [lineValue_takeRx])
    rw [exec_commit_enabled hib hl hf hp hc hr, commitLine_of_error (s := s.takeRx) hlen htag happly',
      thenPhase_error, settle_raise, raise_of_noFault (s := s.takeRx) hf]
  · have hen : (dispatching s tag && !isTerminator tag) = true := by
      simp [dispatching_iff, hp, hc, hlen, htag, isTerminator_of_isCommandTag hcmd]
    rw [exec_decodeTag, gate_enabled hl hf hen, happly, settle_raise, raise_of_noFault hf]

end Sys2Proof.Machine
end

section
/-! SUPPORT. A line received byte by byte (R45, R52, R83 to R86): what the buffer holds after each byte, up to BUF_CAP,
and that reception changes nothing else until the commit. -/

namespace Sys2Proof.Machine

open Sys2Proof

variable {s t u : State} {b tag : Byte} {bytes : List Byte}

/-- The block assembles a line whose stored bytes are these. -/
structure State.HoldsLine (s : State) (bytes : List Byte) : Prop where
  collecting : s.cmdState = .collecting
  len_eq : s.len = bytes.length
  read_eq : ∀ i b, bytes[i]? = some b → Memory.read s.buf i = some b

/-- A byte stored at index len is the line's next. -/
theorem State.HoldsLine.concat (h : s.HoldsLine bytes) (hc : t.cmdState = .collecting) (hlen : t.len = s.len + 1)
    (hbuf : t.buf = Memory.write s.buf s.len b) : t.HoldsLine (bytes ++ [b]) := by
  refine ⟨hc, by simp [hlen, h.len_eq], fun i c hi => ?_⟩
  rw [hbuf, h.len_eq]
  rcases lt_trichotomy i bytes.length with hlt | rfl | hgt
  · rw [memory_read_write_other _ b hlt.ne]
    exact h.read_eq i c (by rwa [List.getElem?_append_left hlt] at hi)
  · obtain rfl : b = c := by simpa using hi
    exact memory_read_write_same _ _ b
  · rw [List.getElem?_eq_none (by simpa using hgt)] at hi
    cases hi

/-- Reception of k bytes: the states differ in the line state, the buffer, the phase and the polls used up. -/
def ReceivedOnly (k : Nat) (s t : State) : Prop :=
  ∃ cs len buf ph rx, t = { s with
    cmdState := cs, len := len, buf := buf, phase := ph, env := { s.env with rx := rx, rxDraws := s.env.rxDraws + k } }

theorem ReceivedOnly.refl (s : State) : ReceivedOnly 0 s s := ⟨_, _, _, _, _, rfl⟩

theorem ReceivedOnly.trans {j k : Nat} (h : ReceivedOnly j s t) (h' : ReceivedOnly k t u) :
    ReceivedOnly (j + k) s u := by
  obtain ⟨_, _, _, _, _, rfl⟩ := h
  obtain ⟨_, _, _, _, _, rfl⟩ := h'
  exact ⟨_, _, _, _, _, by rw [Nat.add_assoc]⟩

theorem ReceivedOnly.params {k : Nat} (h : ReceivedOnly k s t) : t.params = s.params := by
  obtain ⟨_, _, _, _, _, rfl⟩ := h
  rfl

theorem ReceivedOnly.running {k : Nat} (h : ReceivedOnly k s t) (hs : s.Running) : t.Running := by
  obtain ⟨_, _, _, _, _, rfl⟩ := h
  exact ⟨hs.legal, hs.noFault⟩

/-! ### One byte -/

theorem bufCap_pos (hs : s.Running) : 0 < s.params.bufCap := by
  have hl := hs.legal
  simp only [Params.legal, Bool.and_eq_true, decide_eq_true_eq, and_assoc] at hl
  obtain ⟨-, -, -, -, -, -, -, -, hcap, -⟩ := hl
  exact hcap

/-- R83: in Idle a tag begins a line. -/
theorem pollEffect_of_tag (hc : s.cmdState = .idle) (ht : isTerminator b = false) :
    pollEffect (some b) s = beginLine b s := by
  simp [pollEffect, hc, ht]

/-- R84: in Collecting a text byte is stored where there is room. -/
theorem pollEffect_of_room (hc : s.cmdState = .collecting) (ht : isTerminator b = false)
    (hroom : s.len < s.params.bufCap) : pollEffect (some b) s = storeByte b s := by
  simp [pollEffect, hc, ht, hroom]

/-- R85: in Collecting a text byte is dropped where there is none. -/
theorem pollEffect_of_full (hc : s.cmdState = .collecting) (ht : isTerminator b = false)
    (hfull : s.params.bufCap ≤ s.len) : pollEffect (some b) s = .ok s := by
  simp [pollEffect, hc, ht, hfull.not_gt]

/-- R86: in Collecting a terminator commits the line. -/
theorem pollEffect_of_commit (hc : s.cmdState = .collecting) (ht : isTerminator b = true) :
    pollEffect (some b) s = commitLine s := by
  simp [pollEffect, hc, ht]

/-- A POLL of a byte is R80's pseudocode for it, after the byte is consumed. -/
theorem exec_poll_atPoll (hs : s.Running) (h : pollEffect (some b) (atPoll b s).takeRx = .ok u) :
    exec .poll (atPoll b s) = .next (u.toPhase .snap) :=
  exec_poll_eq_next.2 ⟨⟨hs.legal, hs.noFault⟩, rfl, .inl ⟨u, h, rfl⟩⟩

/-- R83: the tag is stored. -/
theorem exec_poll_tag (hs : s.Running) (hc : s.cmdState = .idle) (ht : isTerminator tag = false) :
    ∃ t, exec .poll (atPoll tag s) = .next t ∧ ReceivedOnly 1 s t ∧ t.HoldsLine [tag] := by
  have hbegin := (pollEffect_of_tag (s := (atPoll tag s).takeRx) hc ht).trans
    (beginLine_eq_ok.2 ⟨bufCap_pos (s := s) hs, rfl⟩)
  refine ⟨_, exec_poll_atPoll hs hbegin, ⟨_, _, _, _, _, rfl⟩, rfl, rfl, fun i b hi => ?_⟩
  obtain ⟨rfl, rfl⟩ : i = 0 ∧ tag = b := by
    cases i with
    | zero => simpa using hi
    | succ i => simp at hi
  exact memory_read_write_same _ 0 tag

/-- R84 and R85: a text byte is stored where there is room, and dropped where there is none. -/
theorem exec_poll_text (hs : s.Running) (hline : s.HoldsLine bytes) (hcap : bytes.length ≤ s.params.bufCap)
    (ht : isTerminator b = false) :
    ∃ t, exec .poll (atPoll b s) = .next t ∧ ReceivedOnly 1 s t ∧
      t.HoldsLine ((bytes ++ [b]).take s.params.bufCap) := by
  rcases hcap.lt_or_eq with hlt | hfull
  · have hroom : s.len < s.params.bufCap := hline.len_eq ▸ hlt
    have hstore := (pollEffect_of_room (s := (atPoll b s).takeRx) hline.collecting ht hroom).trans
      (storeByte_eq_ok.2 ⟨hroom, rfl⟩)
    refine ⟨_, exec_poll_atPoll hs hstore, ⟨_, _, _, _, _, rfl⟩, ?_⟩
    rw [List.take_of_length_le (by simpa using hlt)]
    exact hline.concat hline.collecting rfl rfl
  · have hnoroom : s.params.bufCap ≤ s.len := by rw [hline.len_eq, hfull]
    refine ⟨_, exec_poll_atPoll hs (pollEffect_of_full hline.collecting ht hnoroom), ⟨_, _, _, _, _, rfl⟩, ?_⟩
    rw [← hfull, List.take_left]
    exact ⟨hline.collecting, hline.len_eq, hline.read_eq⟩

/-! ### The text -/

theorem take_take_append {α : Type} (n : Nat) (xs ys : List α) : (xs.take n ++ ys).take n = (xs ++ ys).take n := by
  rw [List.take_append, List.take_append, List.take_take, min_self, List.length_take]
  congr 2
  omega

theorem receive_append (xs ys : List Byte) (s : State) : receive (xs ++ ys) s = (receive xs s).bind (receive ys) := by
  induction xs generalizing s with
  | nil => rfl
  | cons x xs ih => simp only [List.cons_append, receive, Option.bind_assoc, ih]

/-- R45, R52: the bytes of a text are stored up to BUF_CAP. -/
theorem receive_text {text : List Byte} (hs : s.Running) (hline : s.HoldsLine bytes)
    (hcap : bytes.length ≤ s.params.bufCap) (htext : ∀ b ∈ text, isTerminator b = false) :
    ∃ t, receive text s = some t ∧ ReceivedOnly text.length s t ∧
      t.HoldsLine ((bytes ++ text).take s.params.bufCap) := by
  induction text generalizing s bytes with
  | nil => exact ⟨s, rfl, .refl s, by rwa [List.append_nil, List.take_of_length_le hcap]⟩
  | cons b text ih =>
    obtain ⟨hb, htext⟩ := List.forall_mem_cons.1 htext
    obtain ⟨u, hpoll, hu, huline⟩ := exec_poll_text hs hline hcap hb
    have hp := hu.params
    obtain ⟨t, hrec, ht, htline⟩ := ih (hu.running hs) huline (by simp [hp]) htext
    refine ⟨t, (receive_cons hpoll).trans hrec, ?_, ?_⟩
    · rw [List.length_cons, Nat.add_comm]
      exact hu.trans ht
    · rw [hp] at htline
      rwa [take_take_append, List.append_assoc] at htline

/-! ### The commit -/

theorem bufReads_of_bytes {i : Nat} {l : List Byte} (h : ∀ k c, l[k]? = some c → bufRead s (i + k) = .ok c) :
    bufReads s i l.length = .ok l := by
  induction l generalizing i with
  | nil => rfl
  | cons c l ih =>
    have hhead : bufRead s i = .ok c := h 0 c rfl
    have htail := ih (i := i + 1) fun k d hk => by simpa [Nat.add_comm, Nat.add_left_comm] using h (k + 1) d hk
    simp only [List.length_cons, bufReads, hhead, htail]

/-- R48: a line's text is its bytes after the tag. -/
theorem State.HoldsLine.lineText_eq {text : List Byte} (h : s.HoldsLine (tag :: text)) : lineText s = .ok text := by
  obtain ⟨-, hlen, hread⟩ := h
  have hn : s.len - 1 = text.length := by simp [hlen]
  rw [lineText, hn]
  refine bufReads_of_bytes fun k c hk => bufRead_eq_ok.2 ⟨?_, hread (1 + k) c (by simpa [Nat.add_comm] using hk)⟩
  have := List.getElem?_eq_some_iff.1 hk |>.1
  simp [hlen]
  omega

/-- R87: APPLY gives the register of its tag the line's value. -/
theorem applyTag_of_value {v : NumVal} (hv : isCommandTag tag = true → lineValue s = .ok v) :
    applyTag tag s = .ok { s with
      setpoint := if tag = byteS then setpointOf s.params v else s.setpoint
      kp := if tag = byteP then v else s.kp
      ki := if tag = byteI then v else s.ki
      kd := if tag = byteD then v else s.kd } := by
  have hok (h : isCommandTag tag = true) (w : NumVal → State) : applyValue s w = .ok (w v) :=
    applyValue_eq_ok.2 ⟨v, hv h, rfl⟩
  by_cases hs : tag = byteS
  · subst hs; exact hok rfl fun v => { s with setpoint := setpointOf s.params v }
  by_cases hp : tag = byteP
  · subst hp; exact hok rfl fun v => { s with kp := v }
  by_cases hi : tag = byteI
  · subst hi; exact hok rfl fun v => { s with ki := v }
  by_cases hd : tag = byteD
  · subst hd; exact hok rfl fun v => { s with kd := v }
  simp [applyTag, applyOther, hs, hp, hi, hd]

/-- R86: a terminator commits the line. -/
theorem exec_poll_terminator {text : List Byte} {v : NumVal} (hs : s.Running) (hline : s.HoldsLine (tag :: text))
    (ht : isTerminator b = true) (hv : isCommandTag tag = true → textValue s.params text = some v) :
    exec .poll (atPoll b s) = .next { s with
      cmdState := .idle
      len := 0
      setpoint := if tag = 0x53 then setpointOf s.params v else s.setpoint
      kp := if tag = 0x50 then v else s.kp
      ki := if tag = 0x49 then v else s.ki
      kd := if tag = 0x44 then v else s.kd
      phase := .snap
      env := { s.env with rx := [], rxDraws := s.env.rxDraws + 1 } } := by
  have hline' : (atPoll b s).takeRx.HoldsLine (tag :: text) := ⟨hline.collecting, hline.len_eq, hline.read_eq⟩
  have happly := applyTag_of_value (s := (atPoll b s).takeRx) (tag := tag) (v := v) fun hc =>
    lineValue_eq_ok.2 ⟨text, hline'.lineText_eq, hv hc⟩
  have hcommit := commitLine_of_ok (hline'.len_eq ▸ Nat.succ_pos _) (hline'.read_eq 0 tag rfl) happly
  exact exec_poll_atPoll hs ((pollEffect_of_commit (s := (atPoll b s).takeRx) hline.collecting ht).trans hcommit)

/-- Settles O38: the tag, the text and the terminator one after the other. -/
theorem receivedLineAppliesItsFirstBytes : Obligations.ReceivedLineAppliesItsFirstBytes := by
  intro s tag term text v hs hidle htag hterm htext hv
  obtain ⟨u, hpoll, hu, huline⟩ := exec_poll_tag hs hidle htag
  obtain ⟨w, hrec, hw, hwline⟩ := receive_text (hu.running hs) huline
    (by rw [hu.params]; exact bufCap_pos hs) htext
  have huw := hu.trans hw
  rw [hu.params] at hwline
  obtain ⟨cap, hcap⟩ := Nat.exists_eq_add_one.2 (bufCap_pos hs)
  rw [hcap] at hwline hv
  have hlast := exec_poll_terminator (huw.running hs) hwline hterm (v := v) (by rw [huw.params]; exact hv)
  have hrecv : receive (tag :: text ++ [term]) s = receive [term] w := by
    rw [List.cons_append, receive_cons hpoll, receive_append, hrec, Option.bind_some]
  refine ⟨_, hrecv.trans ((receive_cons hlast).trans receive_nil), ?_⟩
  have hdraws : s.env.rxDraws + (1 + text.length) + 1 = s.env.rxDraws + (text.length + 2) := by omega
  obtain ⟨_, _, _, _, _, rfl⟩ := huw
  simp only [hdraws]

end Sys2Proof.Machine
end

section
/-! SUPPORT. The millisecond clock (R60 to R64): TICK and SNAP in a running block, and the counter along a run, which
moves by one for each TICK and by no other operation. -/

namespace Sys2Proof.Machine

open Sys2Proof

variable {s t : State}

/-! ### TICK and SNAP -/

/-- Settles O13: with the mask clear, TICK's one next state is the service of the tick. -/
theorem tickAdvancesTheCounter : Obligations.TickAdvancesTheCounter :=
  fun _ hr hm => exec_tick_eq_next.2 ⟨⟨hr.legal, hr.noFault⟩, if_neg (Bool.eq_false_iff.1 hm)⟩

/-- Settles O15: at phase SNAP, SNAP's one next state is the snapshot, moved to CTRL. -/
theorem snapLatchesTheCounter : Obligations.SnapLatchesTheCounter :=
  fun _ hr hp => exec_snap_eq_next.2 ⟨⟨hr.legal, hr.noFault⟩, hp, rfl⟩

/-- R62: SNAP latches the counter it finds, and leaves the counter. -/
theorem exec_snap_clock (h : exec .snap s = .next t) : t.nowLatch = s.clk ∧ t.clk = s.clk := by
  obtain ⟨-, -, rfl⟩ := exec_snap_eq_next.1 h
  exact ⟨rfl, rfl⟩

/-! ### Time arithmetic -/

/-- R63: elapsed is the exact difference as a bit vector of the counter's width. -/
theorem elapsed_eq_ofInt (p : Params) (a b : Nat) : elapsed p a b = (BitVec.ofInt p.clkW (a - b)).toNat :=
  (BitVec.toNat_ofInt _).symm

/-- Settles O16: adding b back to the exact difference gives a. -/
theorem elapsedIsUnsignedSubtraction : Obligations.ElapsedIsUnsignedSubtraction := by
  intro p a b
  have hadd : BitVec.ofInt p.clkW (a - b) + BitVec.ofNat p.clkW b = BitVec.ofNat p.clkW a := by
    rw [← BitVec.ofInt_natCast, ← BitVec.ofInt_add, sub_add_cancel, BitVec.ofInt_natCast]
  rw [elapsed_eq_ofInt, eq_sub_of_add_eq hadd]

/-- R64: a counter that has moved on by k, wrapped or not, has k elapsed since its start, modulo 2^CLK_W. -/
theorem elapsed_add_mod (p : Params) (a k : Nat) : elapsed p ((a + k) % 2 ^ p.clkW) a = k % 2 ^ p.clkW := by
  rw [elapsed, Int.natCast_mod, Int.emod_sub_emod, Nat.cast_add, add_sub_cancel_left, ← Int.natCast_mod,
    Int.toNat_natCast]

/-! ### The counter along a run -/

/-- R17, R59: TICK is the one operation whose rule lets it write the counter. -/
theorem clk_mem_mayWrite {i : Instr} : Reg.clk ∈ mayWrite i ↔ i = .tick := by
  cases i <;> simp [mayWrite, commitWrites]

/-- R60: from a state of the invariant an operation adds 1 to the counter if it is TICK, and nothing otherwise. -/
theorem exec_clk (hi : s.Inv) {i : Instr} (h : exec i s = .next t) :
    t.clk = (s.clk + [i].count .tick) % 2 ^ s.params.clkW := by
  by_cases htick : i = .tick
  · subst htick
    obtain ⟨-, rfl⟩ := exec_tick_eq_next.1 h
    rw [hi.tickMask_off]
    rfl
  · rw [List.count_cons_of_ne htick, List.count_nil, Nat.add_zero, Nat.mod_eq_of_lt hi.clk_lt]
    exact exec_frame h .clk (mt clk_mem_mayWrite.1 htick)

/-- R64: a run adds its number of TICKs to the counter. -/
theorem runAll_clk {is : List Instr} (hi : s.Inv) (h : runAll is s = some t) :
    t.clk = (s.clk + is.count .tick) % 2 ^ s.params.clkW := by
  induction is generalizing s with
  | nil =>
    cases h
    exact (Nat.mod_eq_of_lt hi.clk_lt).symm
  | cons i is ih =>
    obtain ⟨u, hu, hrun⟩ := runAll_cons_eq_some.1 h
    rw [ih (hi.exec hu) hrun, exec_params hu, exec_clk hi hu, Nat.mod_add_mod, Nat.add_assoc,
      ← List.count_append, List.singleton_append]

/-- Settles O17: each SNAP latches the counter it finds, and the run between them adds its TICKs. -/
theorem snapshotsDifferByTheTicksBetween : Obligations.SnapshotsDifferByTheTicksBetween := by
  intro is s a b c hi ha hrun hc
  obtain ⟨halatch, haclk⟩ := exec_snap_clock ha
  obtain ⟨hclatch, -⟩ := exec_snap_clock hc
  rw [hclatch, runAll_clk (hi.exec ha) hrun, exec_params ha, halatch, haclk, elapsed_add_mod]

end Sys2Proof.Machine
end

section
/-! SUPPORT. PID_STEP (R67 to R78): its comparisons as comparisons of exact values, each step of its pseudocode as the
relation the claims state, and from them when it has a result and which. -/

namespace Sys2Proof.Machine

open Sys2Proof

/-! ### Comparisons are of exact values (R9) -/

section
variable {f : NumFmt} {p : Params} {x ie ie' u u0 pTerm ki dTerm : NumVal} {n e : Int}

theorem toInt_le_scaled : x.toInt ≤ scaled f n ↔ realOf f x ≤ n := by
  rw [realOf, div_le_iff₀ (by exact_mod_cast one_pos f), scaled]
  norm_cast

theorem scaled_le_toInt : scaled f n ≤ x.toInt ↔ (n : ℚ) ≤ realOf f x := by
  rw [realOf, le_div_iff₀ (by exact_mod_cast one_pos f), scaled]
  norm_cast

theorem toInt_lt_scaled : x.toInt < scaled f n ↔ realOf f x < n := by
  rw [← not_le, scaled_le_toInt, not_le]

theorem scaled_lt_toInt : scaled f n < x.toInt ↔ (n : ℚ) < realOf f x := by
  rw [← not_le, toInt_le_scaled, not_le]

/-- A representable integer in NUM has that integer as its exact value. -/
theorem realOf_ofInt (hr : representable f n.natAbs = true) (h : NumVal.ofInt f n = some x) : realOf f x = n := by
  have hx := ofInt_toInt hr h
  exact le_antisymm (toInt_le_scaled.1 hx.le) (scaled_le_toInt.1 hx.ge)

/-- R8: of a value of at least 0, truncation is rounding down. -/
theorem trunc_eq_floor (h : 0 ≤ realOf f x) : (x.trunc f).toNat = ⌊realOf f x⌋.toNat := by
  have hx : 0 ≤ x.toInt := by simpa [scaled] using scaled_le_toInt (n := 0).2 (by simpa using h)
  rw [trunc_of_nonneg hx, realOf, Rat.floor_intCast_div_natCast, ← Int.toNat_of_nonneg hx]
  rfl

/-! ### The nine steps -/

/-- R75: the count is the final output clamped and rounded down. -/
theorem outputCount_eq : outputCount p u =
    if realOf p.numFmt u < p.minCount then p.minCount
    else if (p.maxCount : ℚ) < realOf p.numFmt u then p.maxCount
    else ⌊realOf p.numFmt u⌋.toNat := by
  simp only [outputCount, toInt_lt_scaled, scaled_lt_toInt, Int.cast_natCast]
  split_ifs with hlo hhi
  · rfl
  · rfl
  · exact trunc_eq_floor ((Nat.cast_nonneg _).trans (not_lt.1 hlo))

/-- R71, R75: the sum of the output has a value where its three roundings have. -/
theorem pidSum_eq_some : pidSum f pTerm ki ie dTerm = some u ↔ SumIs f pTerm ki ie dTerm u := by
  unfold pidSum SumIs
  rcases NumVal.mul f ki ie with _ | i
  · simp
  · rcases h : NumVal.add f pTerm i with _ | a <;> simp [h]

/-- R71, R75: the sum of the output overflows where one of its roundings does. -/
theorem pidSum_eq_none : pidSum f pTerm ki ie dTerm = none ↔ SumOverflows f pTerm ki ie dTerm := by
  constructor
  · intro h
    rcases hi : NumVal.mul f ki ie with _ | i
    · exact .product hi
    · rcases ha : NumVal.add f pTerm i with _ | a
      · exact .leftSum i hi ha
      · exact .sum i a hi ha (by simpa [pidSum, hi, ha] using h)
  · rintro (hi | ⟨i, hi, ha⟩ | ⟨i, a, hi, ha, hu⟩) <;> simp [pidSum, *]

/-- R72: the rows of the table are disjoint, because MIN_COUNT is below MAX_COUNT. -/
theorem integrateAllowed_iff (hp : p.minCount < p.maxCount) : integrateAllowed p u0 e = true ↔ Integrates p u0 e := by
  have hp : (p.minCount : ℚ) < p.maxCount := by exact_mod_cast hp
  simp only [integrateAllowed, Integrates, scaled_le_toInt, toInt_le_scaled, Int.cast_natCast]
  split_ifs with hmax hmin
  · simp [hmax, hmax.not_gt, (hp.trans_le hmax).not_ge]
  · simp [hmax, hmin, hmin.not_gt]
  · simp [not_le.1 hmax, not_le.1 hmin]

/-- R72: the rows in which a step does not integrate. -/
theorem not_integrates_iff (hp : p.minCount < p.maxCount) : ¬ Integrates p u0 e ↔
    (p.maxCount : ℚ) ≤ realOf p.numFmt u0 ∧ ¬ e < 0 ∨
      ¬ (p.maxCount : ℚ) ≤ realOf p.numFmt u0 ∧ realOf p.numFmt u0 ≤ p.minCount ∧ ¬ 0 < e := by
  rw [← integrateAllowed_iff hp]
  simp only [integrateAllowed, scaled_le_toInt, toInt_le_scaled, Int.cast_natCast]
  split_ifs with hmax hmin
  · simp [hmax]
  · simp [hmax, hmin]
  · simp [hmax, hmin]

/-- R74: the three rows of the clamp, in the order of the pseudocode. -/
theorem clampsTo_iff : ClampsTo p ie ie' ↔
    if (p.integralLimit : ℚ) < realOf p.numFmt ie then NumVal.ofInt p.numFmt p.integralLimit = some ie'
    else if realOf p.numFmt ie < -(p.integralLimit : ℚ) then
      NumVal.ofInt p.numFmt (-(p.integralLimit : Int)) = some ie'
    else ie' = ie := by
  have hlim : -(p.integralLimit : ℚ) ≤ p.integralLimit := neg_le_self (Nat.cast_nonneg _)
  unfold ClampsTo
  split_ifs with hhi hlo
  · simp [hhi, hhi.not_ge, (hlim.trans_lt hhi).not_gt]
  · simp [hhi, hlo, hlo.not_ge]
  · simp [hhi, hlo, not_lt.1 hhi, not_lt.1 hlo]

theorem clampIntegral_eq_some : clampIntegral p ie = some ie' ↔ ClampsTo p ie ie' := by
  rw [clampsTo_iff]
  simp only [clampIntegral, scaled_lt_toInt, toInt_lt_scaled, Int.cast_natCast, Int.cast_neg]
  split_ifs
  · rfl
  · rfl
  · simp [eq_comm]

/-- R74: the clamp rounds nothing, R5 making INTEGRAL_LIMIT representable. -/
theorem exists_clampIntegral (hlim : representable p.numFmt p.integralLimit = true) (ie : NumVal) :
    ∃ ie', clampIntegral p ie = some ie' := by
  unfold clampIntegral
  split_ifs
  · exact ⟨_, ofInt_of_representable hlim (Int.natAbs_natCast _)⟩
  · exact ⟨_, ofInt_of_representable hlim (by simp)⟩
  · exact ⟨_, rfl⟩

/-- R74, R78 (3): a clamped integral lies within INTEGRAL_LIMIT. -/
theorem ClampsTo.bounds (hlim : representable p.numFmt p.integralLimit = true) (h : ClampsTo p ie ie') :
    -(p.integralLimit : ℚ) ≤ realOf p.numFmt ie' ∧ realOf p.numFmt ie' ≤ p.integralLimit := by
  have hpos : -(p.integralLimit : ℚ) ≤ p.integralLimit := neg_le_self (Nat.cast_nonneg _)
  rcases h with ⟨-, h⟩ | ⟨-, h⟩ | ⟨hlo, hhi, rfl⟩
  · simp [realOf_ofInt (by simpa using hlim) h, hpos]
  · simp [realOf_ofInt (by simpa using hlim) h, hpos]
  · exact ⟨hlo, hhi⟩

/-- R74: the clamp keeps an integral within INTEGRAL_LIMIT. -/
theorem ClampsTo.eq_of_bounds (h : ClampsTo p ie ie') (hlo : -(p.integralLimit : ℚ) ≤ realOf p.numFmt ie)
    (hhi : realOf p.numFmt ie ≤ p.integralLimit) : ie' = ie := by
  rcases h with ⟨h, -⟩ | ⟨h, -⟩ | ⟨-, -, h⟩
  · exact absurd h hhi.not_gt
  · exact absurd h hlo.not_gt
  · exact h

end

variable {s t : State} {n : Nat} {e : Int} {eNum pTerm dTerm u0 ie : NumVal} {x : PidResult}

/-- R73, R74: steps 6 and 7 give an accumulator where the addition, if made, has a value. -/
theorem updateIntegral_eq_some (hp : s.params.minCount < s.params.maxCount) :
    updateIntegral s.params u0 e eNum s.integralError = some ie ↔ IntegralIs s e eNum u0 ie := by
  unfold updateIntegral IntegralIs
  rw [← integrateAllowed_iff hp]
  split_ifs with h
  · rcases NumVal.add s.params.numFmt s.integralError eNum with _ | sum <;> simp [h, clampIntegral_eq_some]
  · simp [h, clampIntegral_eq_some]

/-- R74, R78 (3): steps 6 and 7 bring every accumulator within INTEGRAL_LIMIT. -/
theorem IntegralIs.bounds (hlim : representable s.params.numFmt s.params.integralLimit = true)
    (h : IntegralIs s e eNum u0 ie) :
    -(s.params.integralLimit : ℚ) ≤ realOf s.params.numFmt ie ∧ realOf s.params.numFmt ie ≤ s.params.integralLimit := by
  rcases h with ⟨-, _, -, h⟩ | ⟨-, h⟩
  · exact h.bounds hlim
  · exact h.bounds hlim

/-- R73, R74: steps 6 and 7 overflow where the addition is made and overflows. -/
theorem updateIntegral_eq_none (hl : ParamRanges s.params) :
    updateIntegral s.params u0 e eNum s.integralError = none ↔
      Integrates s.params u0 e ∧ NumVal.add s.params.numFmt s.integralError eNum = none := by
  have hclamp (ie : NumVal) : clampIntegral s.params ie ≠ none :=
    Option.ne_none_iff_exists'.2 (exists_clampIntegral hl.limit_num ie)
  unfold updateIntegral
  rw [← integrateAllowed_iff hl.minCount_lt]
  split_ifs with h
  · rcases NumVal.add s.params.numFmt s.integralError eNum with _ | sum <;> simp [h, hclamp]
  · simp [h, hclamp]

/-- R73, R74: where the addition has a value, steps 6 and 7 give an accumulator. -/
theorem exists_integralIs_of_add {sum : NumVal} (hl : ParamRanges s.params)
    (hadd : NumVal.add s.params.numFmt s.integralError eNum = some sum) (e : Int) (u0 : NumVal) :
    ∃ ie, IntegralIs s e eNum u0 ie := by
  have hsome : updateIntegral s.params u0 e eNum s.integralError ≠ none := by
    simp [updateIntegral_eq_none hl, hadd]
  obtain ⟨ie, hie⟩ := Option.ne_none_iff_exists'.1 hsome
  exact ⟨ie, (updateIntegral_eq_some hl.minCount_lt).1 hie⟩

/-! ### The result of PID_STEP -/

/-- R67: the values of the nine steps, from num(e) to the result. -/
structure PidSteps (s : State) (n : Nat) (eNum pTerm dTerm u0 u : NumVal) (x : PidResult) : Prop where
  terms : TermsAre s x.lastError eNum pTerm dTerm
  tentative : SumIs s.params.numFmt pTerm s.ki s.integralError dTerm u0
  integral : IntegralIs s x.lastError eNum u0 x.integralError
  final : SumIs s.params.numFmt pTerm s.ki x.integralError dTerm u
  lastError_eq : x.lastError = deadBandError s.params s.setpoint n
  out_eq : x.out = outputCount s.params u

/-- R67: PID_STEP has a result exactly where the nine steps have values, and then it is theirs. -/
theorem pidOf_eq_some_iff (hp : s.params.minCount < s.params.maxCount) :
    pidOf s n = some x ↔ ∃ eNum pTerm dTerm u0 u, PidSteps s n eNum pTerm dTerm u0 u x := by
  simp only [pidOf, pidCompute, Option.bind_eq_bind, Option.bind_eq_some_iff, pidSum_eq_some,
    updateIntegral_eq_some hp]
  constructor
  · rintro ⟨eNum, he, pTerm, hP, dNum, hd, dTerm, hD, u0, hu0, ie, hie, u, hu, hx⟩
    obtain rfl := Option.some.inj hx
    exact ⟨eNum, pTerm, dTerm, u0, u, ⟨he, hP, dNum, hd, hD⟩, hu0, hie, hu, rfl, rfl⟩
  · rintro ⟨eNum, pTerm, dTerm, u0, u, ⟨he, hP, dNum, hd, hD⟩, hu0, hie, hu, hle, hout⟩
    rw [hle] at he hd hie
    exact ⟨eNum, he, pTerm, hP, dNum, hd, dTerm, hD, u0, hu0, _, hie, u, hu, by rw [← hle, ← hout]; rfl⟩

theorem TermsAre.unique {eNum' pTerm' dTerm' : NumVal} (h : TermsAre s e eNum pTerm dTerm)
    (h' : TermsAre s e eNum' pTerm' dTerm') : eNum = eNum' ∧ pTerm = pTerm' ∧ dTerm = dTerm' := by
  obtain ⟨he, hP, dNum, hd, hD⟩ := h
  obtain ⟨he', hP', dNum', hd', hD'⟩ := h'
  cases he.symm.trans he'
  cases hd.symm.trans hd'
  exact ⟨rfl, Option.some.inj (hP.symm.trans hP'), Option.some.inj (hD.symm.trans hD')⟩

theorem SumIs.unique {f : NumFmt} {ki u u' : NumVal} (h : SumIs f pTerm ki ie dTerm u)
    (h' : SumIs f pTerm ki ie dTerm u') : u = u' :=
  Option.some.inj ((pidSum_eq_some.2 h).symm.trans (pidSum_eq_some.2 h'))

theorem SumIs.not_overflows {f : NumFmt} {ki u : NumVal} (h : SumIs f pTerm ki ie dTerm u) :
    ¬ SumOverflows f pTerm ki ie dTerm :=
  fun ho => nomatch (pidSum_eq_some.2 h).symm.trans (pidSum_eq_none.2 ho)

theorem IntegralIs.unique {ie' : NumVal} (hp : s.params.minCount < s.params.maxCount)
    (h : IntegralIs s e eNum u0 ie) (h' : IntegralIs s e eNum u0 ie') : ie = ie' :=
  Option.some.inj (((updateIntegral_eq_some hp).2 h).symm.trans ((updateIntegral_eq_some hp).2 h'))

/-- R67: no rounding overflows where the nine steps have values. -/
theorem PidSteps.not_overflows {u : NumVal} (hl : ParamRanges s.params) (h : PidSteps s n eNum pTerm dTerm u0 u x) :
    ¬ PidOverflows s x.lastError := by
  obtain ⟨he, hP, dNum, hd, hD⟩ := h.terms
  obtain ⟨ht, hu0, hie, hu, -, -⟩ := h
  rintro (ho | ⟨_, he', ho⟩ | ho | ⟨_, hd', ho⟩ | ⟨_, _, _, ht', ho⟩ | ⟨_, _, _, _, ht', hu0', hint, ho⟩ |
    ⟨_, _, _, _, ie', ht', hu0', hie', ho⟩)
  · exact nomatch he.symm.trans ho
  · cases he.symm.trans he'
    exact nomatch hP.symm.trans ho
  · exact nomatch hd.symm.trans ho
  · cases hd.symm.trans hd'
    exact nomatch hD.symm.trans ho
  · obtain ⟨rfl, rfl, rfl⟩ := ht.unique ht'
    exact hu0.not_overflows ho
  · obtain ⟨rfl, rfl, rfl⟩ := ht.unique ht'
    obtain rfl := hu0.unique hu0'
    exact nomatch ((updateIntegral_eq_some hl.minCount_lt).2 hie).symm.trans
      ((updateIntegral_eq_none hl).2 ⟨hint, ho⟩)
  · obtain ⟨rfl, rfl, rfl⟩ := ht.unique ht'
    obtain rfl := hu0.unique hu0'
    exact (hie.unique hl.minCount_lt hie' ▸ hu).not_overflows ho

/-- R67, R113: PID_STEP has no result exactly where a rounding of its steps overflows. -/
theorem pidOf_eq_none_iff (hl : ParamRanges s.params) :
    pidOf s n = none ↔ PidOverflows s (deadBandError s.params s.setpoint n) := by
  constructor
  · intro hnone
    rcases he : NumVal.ofInt s.params.numFmt (deadBandError s.params s.setpoint n) with _ | eNum
    · exact .error he
    rcases hP : NumVal.mul s.params.numFmt s.kp eNum with _ | pTerm
    · exact .proportional eNum he hP
    rcases hd : NumVal.ofInt s.params.numFmt (deadBandError s.params s.setpoint n - s.lastError) with _ | dNum
    · exact .difference hd
    rcases hD : NumVal.mul s.params.numFmt s.kd dNum with _ | dTerm
    · exact .derivative dNum hd hD
    have ht : TermsAre s (deadBandError s.params s.setpoint n) eNum pTerm dTerm := ⟨he, hP, dNum, hd, hD⟩
    rcases hu0 : pidSum s.params.numFmt pTerm s.ki s.integralError dTerm with _ | u0
    · exact .tentative _ _ _ ht (pidSum_eq_none.1 hu0)
    have hs := pidSum_eq_some.1 hu0
    rcases hie : updateIntegral s.params u0 (deadBandError s.params s.setpoint n) eNum s.integralError with _ | ie
    · obtain ⟨hint, hadd⟩ := (updateIntegral_eq_none hl).1 hie
      exact .integration _ _ _ _ ht hs hint hadd
    rcases hu : pidSum s.params.numFmt pTerm s.ki ie dTerm with _ | u
    · exact .final _ _ _ _ _ ht hs ((updateIntegral_eq_some hl.minCount_lt).1 hie) (pidSum_eq_none.1 hu)
    · simp [pidOf, pidCompute, he, hP, hd, hD, hu0, hie, hu] at hnone
  · intro ho
    rcases hx : pidOf s n with _ | x
    · rfl
    · obtain ⟨eNum, pTerm, dTerm, u0, u, h⟩ := (pidOf_eq_some_iff hl.minCount_lt).1 hx
      exact absurd (h.lastError_eq ▸ ho) (h.not_overflows hl)

/-! ### PID_STEP as an operation -/

/-- R67: where CTRL performs it on a sample in range, PID_STEP writes its result back or raises NONFINITE. -/
theorem exec_pidStep_of_due (hr : s.Running) (hph : s.phase = .ctrl)
    (hdue : s.params.controlInterval ≤ elapsed s.params s.nowLatch s.lastControlTime) (hn : n ≤ s.params.sensorMax) :
    exec (.pidStep n) s = .next t ↔
      (∃ x, pidOf s n = some x ∧ pidWrite s x = t) ∨ (pidOf s n = none ∧ s.raise .nonfinite = t) := by
  have hran : ranIn s := ⟨hr.legal, hr.noFault⟩
  have hdue : controlDue s = true := decide_eq_true hdue
  rw [exec_pidStep_eq_next, and_iff_right hran, and_iff_right hph, and_iff_right hdue, and_iff_right hn]

/-- R112: a PID_STEP that answers an unfaulted state has written its result back. -/
theorem exec_pidStep_unfaulted (h : exec (.pidStep n) s = .next t) (hf : t.faults = []) :
    ∃ x, pidOf s n = some x ∧ pidWrite s x = t := by
  obtain ⟨⟨-, hs⟩, -, -, -, h | ⟨-, rfl⟩⟩ := exec_pidStep_eq_next.1 h
  · exact h
  · simp [raise_of_noFault hs] at hf

/-- Settles O18: the values named are those of the nine steps, and the count is the clamped, truncated output. -/
theorem pidStepFollowsThePseudocode : Obligations.PidStepFollowsThePseudocode := by
  intro s n e eNum pTerm dNum dTerm i0 a0 u0 ie1 ie2 i1 a1 u hr hph hdue hn he heNum hP hd hD hi0 ha0 hu0 hstep6 hstep7
    hi1 ha1 hu
  have hp := (paramRanges_of_legal hr.legal).minCount_lt
  have hclamp : ClampsTo s.params ie1 ie2 := clampsTo_iff.2 hstep7
  have hie : IntegralIs s e eNum u0 ie2 := by
    by_cases hint : Integrates s.params u0 e
    · rw [if_neg fun hrow => (not_integrates_iff hp).2 hrow hint] at hstep6
      exact .inl ⟨hint, ie1, hstep6, hclamp⟩
    · rw [if_pos ((not_integrates_iff hp).1 hint)] at hstep6
      exact .inr ⟨hint, hstep6 ▸ hclamp⟩
  refine (exec_pidStep_of_due hr hph hdue hn).2 (.inl ⟨⟨ie2, e, outputCount s.params u⟩, ?_, ?_⟩)
  · exact (pidOf_eq_some_iff hp).2 ⟨eNum, pTerm, dTerm, u0, u, ⟨heNum, hP, dNum, hd, hD⟩, ⟨i0, a0, hi0, ha0, hu0⟩, hie,
      ⟨i1, a1, hi1, ha1, hu⟩, he, rfl⟩
  · rw [outputCount_eq]
    rfl

/-- Settles O19: PID_STEP has no result exactly where a rounding overflows. -/
theorem pidOverflowRaisesNonfinite : Obligations.PidOverflowRaisesNonfinite := by
  intro s n e hr hph hdue hn he
  obtain rfl : e = deadBandError s.params s.setpoint n := he
  have hexec (t : State) := exec_pidStep_of_due (t := t) hr hph hdue hn
  rw [← pidOf_eq_none_iff (paramRanges_of_legal hr.legal)]
  constructor
  · exact fun hnone => (hexec _).2 (.inr ⟨hnone, raise_of_noFault hr.noFault⟩)
  · intro hsome
    obtain ⟨x, hx⟩ := Option.ne_none_iff_exists'.1 hsome
    exact ⟨_, (hexec _).2 (.inl ⟨x, hx, rfl⟩), hr.noFault⟩

/-- Settles O22: the clamp bounds every integral, and the count's conversion every output. -/
theorem pidStepKeepsItsBounds : Obligations.PidStepKeepsItsBounds := by
  intro s t n h hf
  obtain ⟨⟨hlegal, -⟩, -⟩ := exec_pidStep_eq_next.1 h
  have hl := paramRanges_of_legal hlegal
  obtain ⟨x, hx, rfl⟩ := exec_pidStep_unfaulted h hf
  obtain ⟨eNum, pTerm, dTerm, u0, u, hsteps⟩ := (pidOf_eq_some_iff hl.minCount_lt).1 hx
  have hcount := outputCount_range (p := s.params) u hl.minCount_lt.le
  rw [← hsteps.out_eq] at hcount
  exact ⟨hcount.1, hcount.2, hsteps.integral.bounds hl.limit_num⟩

/-- R77: steps 6 and 7 leave an accumulator within INTEGRAL_LIMIT as it was where the step does not integrate. -/
theorem IntegralIs.eq_of_not_integrates (h : IntegralIs s e eNum u0 ie) (hnot : ¬ Integrates s.params u0 e)
    (hlo : -(s.params.integralLimit : ℚ) ≤ realOf s.params.numFmt s.integralError)
    (hhi : realOf s.params.numFmt s.integralError ≤ s.params.integralLimit) : ie = s.integralError := by
  rcases h with ⟨h, -⟩ | ⟨-, h⟩
  · exact absurd h hnot
  · exact h.eq_of_bounds hlo hhi

/-- Settles O23: a saturated step whose error points outwards does not integrate, and the clamp keeps the integral;
nor does a PID_STEP that raises NONFINITE write it. -/
theorem saturatedStepsDoNotWindUp : Obligations.SaturatedStepsDoNotWindUp := by
  intro s t n eNum pTerm dNum dTerm u0 hlo hhi he hP hd hD hu0 h
  obtain ⟨⟨hlegal, -⟩, -, -, -, hres⟩ := exec_pidStep_eq_next.1 h
  have hp := (paramRanges_of_legal hlegal).minCount_lt
  have hpq : (s.params.minCount : ℚ) < s.params.maxCount := by exact_mod_cast hp
  have hkeep (hnot : ¬ Integrates s.params u0 (deadBandError s.params s.setpoint n)) :
      t.integralError = s.integralError := by
    rcases hres with ⟨x, hx, rfl⟩ | ⟨-, rfl⟩
    · obtain ⟨_, _, _, u0', u, ht, hu0', hie, -, hle, -⟩ := (pidOf_eq_some_iff hp).1 hx
      rw [hle] at ht hie
      obtain ⟨rfl, rfl, rfl⟩ := ht.unique ⟨he, hP, dNum, hd, hD⟩
      obtain rfl := hu0'.unique (pidSum_eq_some.1 hu0)
      exact hie.eq_of_not_integrates hnot hlo hhi
    · rfl
  constructor
  · intro hmax he0
    rw [hkeep ((not_integrates_iff hp).2 (.inl ⟨hmax, he0.not_gt⟩))]
  · intro hmin he0
    rw [hkeep ((not_integrates_iff hp).2 (.inr ⟨(hmin.trans_lt hpq).not_ge, hmin, he0.not_gt⟩))]

/-! ### The dead-band -/

/-- R68: inside the dead-band the error is 0. -/
theorem deadBandError_of_lt {p : Params} {setpoint : Nat} (h : ((setpoint : Int) - n).natAbs < p.deadband) :
    deadBandError p setpoint n = 0 := if_pos h

/-- R67: PID_STEP reads its sample through the error of steps 1 and 2 alone. -/
theorem pidOf_congr {m : Nat} (h : deadBandError s.params s.setpoint m = deadBandError s.params s.setpoint n) :
    pidOf s m = pidOf s n := by
  simp only [pidOf, pidCompute, h]

theorem pidStepEffect_congr {m : Nat} (hm : m ≤ s.params.sensorMax) (hn : n ≤ s.params.sensorMax)
    (h : pidOf s m = pidOf s n) : pidStepEffect m s = pidStepEffect n s := by
  have hok {k : Nat} : k ≤ s.params.sensorMax → checkSample s.params k = .ok () := checkSample_eq_ok.2
  simp only [pidStepEffect, hok hm, hok hn, runPid, h]

/-- Settles O21: both samples give the error 0, and the sample is read through the error alone. -/
theorem deadBandHidesTheSample : Obligations.DeadBandHidesTheSample := by
  intro s a b ha hb hda hdb
  have ha0 := deadBandError_of_lt hda
  have hb0 := deadBandError_of_lt hdb
  constructor
  · simp only [exec, execPidStep, pidStepEffect_congr ha hb (pidOf_congr (ha0.trans hb0.symm))]
  · intro t h hf
    obtain ⟨x, hx, rfl⟩ := exec_pidStep_unfaulted h hf
    exact (pidOf_eq_some hx).1.trans ha0

/-! ### Magnitudes below the overflow threshold (R67) -/

section
variable {f : NumFmt} {a b ki : NumVal} {i : Int} {q A B C D : ℚ}

/-- Rounding a value below the threshold at most doubles its magnitude, 0 being a value of the format. -/
theorem RoundsTo.exists_of_le {r : Option NumVal} (h : RoundsTo f q r) (hq : |q| ≤ B) (hB : B < overflowReal f) :
    ∃ y, r = some y ∧ |realOf f y| ≤ 2 * B := by
  rcases r with _ | y
  · exact absurd h (hq.trans_lt hB).not_ge
  · obtain ⟨-, ⟨-, hnear⟩, -⟩ := h
    have h0 := hnear .posZero (posZero_inFmt f)
    rw [show realOf f .posZero = 0 by simp [realOf, NumVal.toInt, NumVal.posZero], zero_sub, abs_neg] at h0
    refine ⟨y, rfl, ?_⟩
    linarith [abs_sub_abs_le_abs_sub (realOf f y) q]

theorem exists_ofInt_of_le (hi : |(i : ℚ)| ≤ A) (hA : A < overflowReal f) :
    ∃ y, NumVal.ofInt f i = some y ∧ |realOf f y| ≤ 2 * A :=
  (ofInt_roundsTo f i).exists_of_le hi hA

theorem exists_mul_of_le (ha : |realOf f a| ≤ A) (hb : |realOf f b| ≤ B) (hAB : A * B < overflowReal f) :
    ∃ y, NumVal.mul f a b = some y ∧ |realOf f y| ≤ 2 * (A * B) :=
  (mul_roundsTo f a b).exists_of_le
    (abs_mul (realOf f a) _ ▸ mul_le_mul ha hb (abs_nonneg _) ((abs_nonneg _).trans ha)) hAB

theorem exists_add_of_le (ha : |realOf f a| ≤ A) (hb : |realOf f b| ≤ B) (hAB : A + B < overflowReal f) :
    ∃ y, NumVal.add f a b = some y ∧ |realOf f y| ≤ 2 * (A + B) :=
  (add_roundsTo f a b).exists_of_le ((abs_add_le _ _).trans (add_le_add ha hb)) hAB

/-- R71, R75: the sum of the output has a value where the bounds of its operands, doubled at each rounding, stay below
the threshold. -/
theorem exists_sumIs_of_le (hP : |realOf f pTerm| ≤ A) (hki : |realOf f ki| ≤ B) (hie : |realOf f ie| ≤ C)
    (hD : |realOf f dTerm| ≤ D) (hlt : 2 * (A + 2 * (B * C)) + D < overflowReal f) :
    ∃ u, SumIs f pTerm ki ie dTerm u := by
  have hA := (abs_nonneg _).trans hP
  have hBC := mul_nonneg ((abs_nonneg _).trans hki) ((abs_nonneg _).trans hie)
  have hD0 := (abs_nonneg _).trans hD
  obtain ⟨iTerm, hi, hib⟩ := exists_mul_of_le hki hie (by linarith)
  obtain ⟨a, ha, hab⟩ := exists_add_of_le hP hib (by linarith)
  obtain ⟨u, hu, -⟩ := exists_add_of_le hab hD hlt
  exact ⟨u, iTerm, a, hi, ha, hu⟩

end

/-- R31 (2): the accumulator of the invariant in exact values. -/
theorem State.Inv.abs_integral_le (hi : s.Inv) : |realOf s.params.numFmt s.integralError| ≤ s.params.integralLimit :=
  abs_le.2 ⟨by exact_mod_cast scaled_le_toInt.1 hi.integral_ge, by exact_mod_cast toInt_le_scaled.1 hi.integral_le⟩

/-- R68, R70: the error and its difference to the last one, of registers and a sample in range. -/
theorem State.Inv.abs_errors_le (hi : s.Inv) (hn : n ≤ s.params.sensorMax) :
    |(deadBandError s.params s.setpoint n : ℚ)| ≤ s.params.sensorMax ∧
      |((deadBandError s.params s.setpoint n - s.lastError : Int) : ℚ)| ≤ 2 * s.params.sensorMax := by
  obtain ⟨he_lo, he_hi⟩ := deadBandError_range hi.setpoint_le hn
  obtain ⟨hlast_lo, hlast_hi⟩ := hi.lastError_range
  have he : |deadBandError s.params s.setpoint n| ≤ s.params.sensorMax := abs_le.2 ⟨he_lo, he_hi⟩
  have hd : |deadBandError s.params s.setpoint n - s.lastError| ≤ 2 * s.params.sensorMax :=
    abs_le.2 ⟨by omega, by omega⟩
  exact ⟨by exact_mod_cast he, by exact_mod_cast hd⟩

/-- Settles O20: by the bounds |e| ≤ 1023, |e - last_error| ≤ 2046, |integral| ≤ 10200 and the gains', doubled at each
rounding, no rounding reaches the threshold. -/
theorem pidStepCompletesWithDefaultParameters : Obligations.PidStepCompletesWithDefaultParameters := by
  intro s n hi hfault hph hdue hfmt hsensor _ hlimit hn hkp hki hkd
  have hl := paramRanges_of_legal hi.legal
  have hn : n ≤ s.params.sensorMax := hsensor ▸ hn
  obtain ⟨he_le, hd_le⟩ := hi.abs_errors_le hn
  rw [hsensor, Nat.cast_ofNat] at he_le hd_le
  have hie_le := hi.abs_integral_le
  rw [hlimit, Nat.cast_ofNat] at hie_le
  rw [← hfmt] at hkp hki hkd
  have hover : (10 : ℚ) ^ 33 * 57168 < overflowReal s.params.numFmt := by
    rw [hfmt]
    norm_num [overflowReal]
  obtain ⟨eNum, heNum, heNum_le⟩ := exists_ofInt_of_le he_le (by linarith)
  obtain ⟨dNum, hdNum, hdNum_le⟩ := exists_ofInt_of_le hd_le (by linarith)
  obtain ⟨pTerm, hP, hP_le⟩ := exists_mul_of_le hkp.le heNum_le (by linarith)
  obtain ⟨dTerm, hD, hD_le⟩ := exists_mul_of_le hkd.le hdNum_le (by linarith)
  have hsum {ie : NumVal} (h : |realOf s.params.numFmt ie| ≤ 10200) :=
    exists_sumIs_of_le hP_le hki.le h hD_le (by linarith)
  obtain ⟨u0, hu0⟩ := hsum hie_le
  obtain ⟨sum, hadd, -⟩ := exists_add_of_le hie_le heNum_le (by linarith)
  obtain ⟨ie, hie⟩ := exists_integralIs_of_add hl hadd (deadBandError s.params s.setpoint n) u0
  have hnew_le := abs_le.2 (hie.bounds hl.limit_num)
  rw [hlimit, Nat.cast_ofNat] at hnew_le
  obtain ⟨u, hu⟩ := hsum hnew_le
  have hx : pidOf s n = some ⟨ie, deadBandError s.params s.setpoint n, outputCount s.params u⟩ :=
    (pidOf_eq_some_iff hl.minCount_lt).2 ⟨_, _, _, _, u, ⟨heNum, hP, dNum, hdNum, hD⟩, hu0, hie, hu, rfl, rfl⟩
  exact ⟨_, (exec_pidStep_of_due ⟨hi.legal, hfault⟩ hph hdue hn).2 (.inl ⟨_, hx, rfl⟩), hfault⟩

end Sys2Proof.Machine
end

section
/-! SUPPORT. The command protocol (R80 to R94): each byte row and dispatch row in a running block, POLL as the row of
its byte, and that POLL never waits. -/

namespace Sys2Proof.Machine

open Sys2Proof

variable {s t u : State} {b tag : Byte} {v : NumVal} {text : List Byte}

theorem State.Running.ranIn (hs : s.Running) : ranIn s := ⟨hs.legal, hs.noFault⟩

theorem isTerminator_of_ne (hlf : b ≠ 0x0A) (hcr : b ≠ 0x0D) : isTerminator b = false := by
  simp only [isTerminator, Bool.or_eq_false_iff, beq_eq_false_iff_ne]
  exact ⟨hlf, hcr⟩

theorem eq_of_isTerminator (h : isTerminator b = true) : b = byteLF ∨ b = byteCR := by
  simpa [isTerminator] using h

theorem isCommandTag_of_ne (hs : tag ≠ 0x53) (hp : tag ≠ 0x50) (hi : tag ≠ 0x49) (hd : tag ≠ 0x44) :
    isCommandTag tag = false := by
  simp only [isCommandTag, Bool.or_eq_false_iff, beq_eq_false_iff_ne]
  exact ⟨⟨⟨hs, hp⟩, hi⟩, hd⟩

/-! ### The byte rows -/

/-- Settles O24: the row's one next state. -/
theorem emptyPollChangesOnlyThePhase : Obligations.EmptyPollChangesOnlyThePhase :=
  fun _ hs hp hr => exec_rxNone_eq_next.2 ⟨hs.ranIn, hp, hr, rfl⟩

/-- Settles O25: the one next state of each of the two rows. -/
theorem strayTerminatorsAreDiscarded : Obligations.StrayTerminatorsAreDiscarded :=
  fun _ hs hp hc => ⟨fun hr => exec_discardLf_eq_next.2 ⟨hs.ranIn, hp, hc, hr, rfl⟩,
    fun hr => exec_discardCr_eq_next.2 ⟨hs.ranIn, hp, hc, hr, rfl⟩⟩

/-- Settles O26: index 0 exists in every legal configuration, and the store leaves every other byte. -/
theorem tagByteBeginsALine : Obligations.TagByteBeginsALine := by
  intro s b hs hp hc hlf hcr hr
  have ht := isTerminator_of_ne hlf hcr
  exact ⟨_, exec_tag_eq_next.2 ⟨hs.ranIn, hp, hc, ht, hr, bufCap_pos hs, rfl⟩, rfl, rfl,
    memory_read_write_same s.buf 0 b, rfl, fun _ ha => memory_read_write_other s.buf b ha⟩

/-- Settles O27: the row's one next state, whose store leaves every other byte. -/
theorem textByteIsStored : Obligations.TextByteIsStored := by
  intro s b hs hp hc hlf hcr hroom hr
  have ht := isTerminator_of_ne hlf hcr
  exact ⟨_, exec_store_eq_next.2 ⟨hs.ranIn, hp, hc, hroom, ht, hr, rfl⟩, rfl,
    memory_read_write_same s.buf s.len b, rfl, fun _ ha => memory_read_write_other s.buf b ha⟩

/-- Settles O28: the row's one next state. -/
theorem textByteIsDroppedWhenFull : Obligations.TextByteIsDroppedWhenFull :=
  fun _ _ hs hp hc hlf hcr hfull hr =>
    exec_drop_eq_next.2 ⟨hs.ranIn, hp, hc, hfull.ge, isTerminator_of_ne hlf hcr, hr, rfl⟩

/-! ### The dispatch rows -/

/-- Settles O33: at its tag each row's one next state gives its gain the line's value. -/
theorem gainCommandsStoreTheValue : Obligations.GainCommandsStoreTheValue := by
  intro s text v hs hp hc hlen htext hv
  have hval : lineValue s = .ok v := lineValue_eq_ok.2 ⟨text, htext, hv⟩
  have hat {tag : Byte} (htag : Memory.read s.buf 0 = some tag) : dispatching s tag = true :=
    dispatching_iff.2 ⟨hp, hc, hlen, htag⟩
  exact ⟨fun htag => exec_cmdP_eq_next.2 ⟨hs.ranIn, hat htag, .inl ⟨v, hval, rfl⟩⟩,
    fun htag => exec_cmdI_eq_next.2 ⟨hs.ranIn, hat htag, .inl ⟨v, hval, rfl⟩⟩,
    fun htag => exec_cmdD_eq_next.2 ⟨hs.ranIn, hat htag, .inl ⟨v, hval, rfl⟩⟩⟩

/-- Settles O34: the row's one next state is the state itself. -/
theorem unrecognisedTagHasNoEffect : Obligations.UnrecognisedTagHasNoEffect :=
  fun _ _ hs hp hc hlen htag hnS hnP hnI hnD hlf hcr => exec_cmdOther_eq_next.2
    ⟨hs.ranIn, dispatching_iff.2 ⟨hp, hc, hlen, htag⟩, isTerminator_of_ne hlf hcr,
      isCommandTag_of_ne hnS hnP hnI hnD, rfl⟩

/-- R8: a negative value truncates to at most 0, any other is rounded down. -/
theorem trunc_toNat_eq_floor (f : NumFmt) (v : NumVal) : (v.trunc f).toNat = ⌊realOf f v⌋₊ := by
  rcases le_or_gt 0 (realOf f v) with hpos | hneg
  · rw [trunc_eq_floor hpos, Int.floor_toNat]
  · have hint : v.toInt < 0 := by simpa [scaled] using toInt_lt_scaled (n := 0).2 (by simpa using hneg)
    have hsign : v.neg = true := by
      by_contra h
      simp [NumVal.toInt, h] at hint
      omega
    rw [Nat.floor_of_nonpos hneg.le, NumVal.trunc, if_pos hsign]
    exact Int.toNat_of_nonpos (neg_nonpos.2 (Int.natCast_nonneg _))

/-- R88: the setpoint is the value rounded down, from 0 to SENSOR_MAX. -/
theorem setpointOf_eq_min (p : Params) (v : NumVal) : setpointOf p v = min ⌊realOf p.numFmt v⌋₊ p.sensorMax := by
  rw [← trunc_toNat_eq_floor, setpointOf, clampInt]
  split_ifs <;> omega

/-- Settles O32: by where the value rounded down stands in the range of the clamp. -/
theorem setpointCommandStoresTheClampedValue : Obligations.SetpointCommandStoresTheClampedValue := by
  intro s text v hs hp hc hlen htag htext hv
  have hval : lineValue s = .ok v := lineValue_eq_ok.2 ⟨text, htext, hv⟩
  refine ⟨{ s with setpoint := setpointOf s.params v },
    exec_cmdS_eq_next.2 ⟨hs.ranIn, dispatching_iff.2 ⟨hp, hc, hlen, htag⟩, .inl ⟨v, hval, rfl⟩⟩, rfl, ?_⟩
  rw [setpointOf_eq_min]
  refine ⟨fun hlo => ?_, fun hhi => ?_, fun hlo hhi => ?_⟩
  · rw [Nat.floor_eq_zero.2 hlo, Nat.zero_min]
  · exact min_eq_right (Nat.le_floor hhi)
  · have hpos : 0 ≤ realOf s.params.numFmt v := zero_le_one.trans hlo
    rw [min_eq_left ((Nat.floor_lt hpos).2 hhi).le, Int.natCast_floor_eq_floor hpos]

/-! ### COMMIT -/

/-- R92: APPLY of an unrecognised tag changes nothing. -/
theorem applyTag_of_unrecognised (h : isCommandTag tag = false) (s : State) : applyTag tag s = .ok s := by
  simp_all [applyTag, applyOther, isCommandTag]

/-- Settles O29: the commit is APPLY under the tag, then the clearing. -/
theorem commitAppliesTheLineAndClearsIt : Obligations.CommitAppliesTheLineAndClearsIt := by
  intro s i b tag hib hs hp hc hlen htag hr
  have hcommit {u : State} (h : applyTag tag s.takeRx = .ok u) : exec i s = .next (u.clearLine.toPhase .snap) := by
    rw [exec_commit_enabled hib hs.legal hs.noFault hp hc hr, commitLine_of_ok (s := s.takeRx) hlen htag h,
      thenPhase_ok, settle_ok]
  constructor
  · intro text v htext hv
    have hval : lineValue s.takeRx = .ok v := (lineValue_takeRx s).trans (lineValue_eq_ok.2 ⟨text, htext, hv⟩)
    refine ⟨?_, ?_, ?_, ?_⟩ <;> rintro rfl <;> exact hcommit (applyValue_eq_ok.2 ⟨v, hval, rfl⟩)
  · intro hnS hnP hnI hnD
    exact hcommit (applyTag_of_unrecognised (isCommandTag_of_ne hnS hnP hnI hnD) _)

/-- R31 (5), R28: the text of a line being assembled has a value in every byte. -/
theorem State.Inv.exists_lineText (hi : s.Inv) : ∃ text, lineText s = .ok text :=
  bufReads_of_values fun k hk => ⟨by omega, hi.buf_val (1 + k) (by omega)⟩

/-- R31 (5): a line being assembled has its tag. -/
theorem State.Inv.len_pos (hi : s.Inv) (hc : s.cmdState = .collecting) : 1 ≤ s.len :=
  Nat.one_le_iff_ne_zero.2 fun h => nomatch hc.symm.trans (hi.idle_iff.2 h)

/-- R86, R112: in Collecting a commit ends in a state, or raises NONFINITE. -/
theorem commitLine_completes (hi : s.Inv) (hc : s.cmdState = .collecting) :
    (∃ u, commitLine s = .ok u) ∨ commitLine s = .error (.raise .nonfinite) := by
  have hlen := hi.len_pos hc
  obtain ⟨tag, htag⟩ := Option.isSome_iff_exists.1 (hi.buf_val 0 hlen)
  obtain ⟨text, htext⟩ := hi.exists_lineText
  cases hcmd : isCommandTag tag with
  | false => exact .inl ⟨_, commitLine_of_ok hlen htag (applyTag_of_unrecognised hcmd s)⟩
  | true =>
    cases hv : textValue s.params text with
    | some v =>
      exact .inl ⟨_, commitLine_of_ok hlen htag (applyTag_of_value fun _ => lineValue_eq_ok.2 ⟨text, htext, hv⟩)⟩
    | none =>
      have hval : lineValue s = .error (.raise .nonfinite) := by simp only [lineValue, htext, hv]
      exact .inr (commitLine_of_error hlen htag (applyTag_of_error hcmd hval))

/-- R51: with binary32 and BUF_CAP at most 39 no commit raises NONFINITE. -/
theorem commitLine_ne_raise (hi : s.Inv) (hc : s.cmdState = .collecting) (hfmt : s.params.numFmt = .binary32)
    (hcap : s.params.bufCap ≤ 39) : commitLine s ≠ .error (.raise .nonfinite) := by
  intro h
  obtain hx | ⟨-, text, htext, hv⟩ := commitLine_eq_error h
  · cases hx
  · have htextlen : text.length = s.len - 1 := (bufReads_eq_ok htext).1
    have hpos := hi.len_pos hc
    have hle := hi.len_le
    obtain ⟨v, hsome⟩ := shortTextsNeverOverflow s.params text hfmt hcap (by omega)
    exact nomatch hv.symm.trans hsome

/-! ### POLL -/

/-- R82: in Idle a terminator has no effect. -/
theorem pollEffect_of_stray (hc : s.cmdState = .idle) (ht : isTerminator b = true) : pollEffect (some b) s = .ok s := by
  simp [pollEffect, hc, ht]

/-- POLL is any byte row whose place and poll result the state has, and whose effect its pseudocode gives. -/
theorem exec_poll_eq_pollRow {place : Bool} {r : Option Byte} {e : State → Effect} (hr : s.rxNext = r)
    (hplace : place = true) (he : pollEffect r s.takeRx = e s.takeRx) : exec .poll s = pollRow s place r e := by
  simp [exec, execPoll, pollRow, hr, hplace, he]

/-- R80, R46: POLL is the row its poll result decodes to. -/
theorem exec_poll_eq_decodeRx (s : State) :
    exec .poll s = exec (decodeRx s.cmdState s.len s.params.bufCap s.rxNext) s := by
  rcases hr : s.rxNext with _ | b
  · exact exec_poll_eq_pollRow hr rfl rfl
  cases ht : isTerminator b with
  | true =>
    have hb := eq_of_isTerminator ht
    cases hc : s.cmdState with
    | idle =>
      have he := pollEffect_of_stray (s := s.takeRx) hc ht
      obtain rfl | rfl := hb <;> exact exec_poll_eq_pollRow hr (by simp [hc]) he
    | collecting =>
      have he := pollEffect_of_commit (s := s.takeRx) hc ht
      obtain rfl | rfl := hb <;> exact exec_poll_eq_pollRow hr (by simp [hc]) he
  | false =>
    cases hc : s.cmdState with
    | idle =>
      rw [decodeRx_idle_of_text ht]
      exact exec_poll_eq_pollRow hr (by simp [hc, ht]) (pollEffect_of_tag (s := s.takeRx) hc ht)
    | collecting =>
      rcases Nat.lt_or_ge s.len s.params.bufCap with hroom | hfull
      · rw [decodeRx_collecting_of_text ht hroom]
        exact exec_poll_eq_pollRow hr (by simp [hc, ht, hroom]) (pollEffect_of_room (s := s.takeRx) hc ht hroom)
      · rw [decodeRx_collecting_of_full ht hfull]
        exact exec_poll_eq_pollRow hr (by simp [hc, ht, hfull]) (pollEffect_of_full (s := s.takeRx) hc ht hfull)

/-- Settles O35: decoding a poll result gives its row. -/
theorem pollIsTheRowOfItsByte : Obligations.PollIsTheRowOfItsByte := by
  intro s i _ hi
  rw [decode_line_toList] at hi
  rw [exec_poll_eq_decodeRx, Except.ok.inj hi]

/-- R80, R112: POLL's pseudocode ends in a state, or raises NONFINITE. -/
theorem pollEffect_completes (hi : s.Inv) (hf : s.faults = []) (r : Option Byte) :
    (∃ u, pollEffect r s = .ok u) ∨ pollEffect r s = .error (.raise .nonfinite) := by
  rcases r with _ | b
  · exact .inl ⟨s, rfl⟩
  cases ht : isTerminator b with
  | true =>
    cases hc : s.cmdState with
    | idle => exact .inl ⟨s, pollEffect_of_stray hc ht⟩
    | collecting => rw [pollEffect_of_commit hc ht]; exact commitLine_completes hi hc
  | false =>
    cases hc : s.cmdState with
    | idle =>
      rw [pollEffect_of_tag hc ht]
      exact .inl ⟨_, beginLine_eq_ok.2 ⟨bufCap_pos ⟨hi.legal, hf⟩, rfl⟩⟩
    | collecting =>
      rcases Nat.lt_or_ge s.len s.params.bufCap with hroom | hfull
      · rw [pollEffect_of_room hc ht hroom]
        exact .inl ⟨_, storeByte_eq_ok.2 ⟨hroom, rfl⟩⟩
      · exact .inl ⟨s, pollEffect_of_full hc ht hfull⟩

/-- R87: APPLY leaves every element but the setpoint and the gains. -/
theorem applyTag_writes (h : applyTag tag s = .ok t) :
    t = { s with setpoint := t.setpoint, kp := t.kp, ki := t.ki, kd := t.kd } := by
  rcases applyTag_eq_ok h with ⟨v, -, ⟨-, rfl⟩ | ⟨-, rfl⟩ | ⟨-, rfl⟩ | ⟨-, rfl⟩⟩ | ⟨-, rfl⟩ <;> rfl

/-- R80: POLL's pseudocode leaves every element but the line state, the buffer, the setpoint and the gains. -/
theorem pollEffect_writes {r : Option Byte} (h : pollEffect r s = .ok t) :
    t = { s with
      cmdState := t.cmdState, len := t.len, buf := t.buf,
      setpoint := t.setpoint, kp := t.kp, ki := t.ki, kd := t.kd } := by
  rcases pollEffect_eq_ok.1 h with
    ⟨-, rfl⟩ | ⟨b, -, ⟨-, -, rfl⟩ | ⟨-, -, h⟩ | ⟨-, -, -, h⟩ | ⟨-, -, -, rfl⟩ | ⟨-, -, h⟩⟩
  · rfl
  · rfl
  · obtain ⟨-, rfl⟩ := beginLine_eq_ok.1 h
    rfl
  · obtain ⟨-, rfl⟩ := storeByte_eq_ok.1 h
    rfl
  · rfl
  · obtain ⟨tag, u, -, hu, rfl⟩ := commitLine_eq_ok.1 h
    rw [applyTag_writes hu]
    rfl

/-- Settles O36: the pseudocode ends in a state, or in the raise of a commit. -/
theorem pollAlwaysCompletes : Obligations.PollAlwaysCompletes := by
  intro s hi hf hp
  rcases pollEffect_completes hi.takeRx hf s.rxNext with ⟨u, hu⟩ | herr
  · have hwrites := pollEffect_writes hu
    have hfaults : u.faults = [] := by rw [hwrites]; exact hf
    refine ⟨u.toPhase .snap, exec_poll_eq_next.2 ⟨⟨hi.legal, hf⟩, hp, .inl ⟨u, hu, rfl⟩⟩, fun hr => ?_, fun _ => ?_,
      absurd hfaults, fun _ _ => hfaults⟩
    · rw [hr] at hu
      obtain rfl := Except.ok.inj hu
      rfl
    · rw [hwrites]
      rfl
  · obtain ⟨b, hr, hc, ht, hcommit⟩ := pollEffect_eq_raise.1 herr
    have hnext : exec .poll s = .next { s.takeRx with faults := [.nonfinite] } :=
      exec_poll_eq_next.2 ⟨⟨hi.legal, hf⟩, hp, .inr ⟨herr, raise_of_noFault (s := s.takeRx) hf⟩⟩
    refine ⟨_, hnext, fun hnone => ?_, nofun, fun _ => ⟨rfl, ?_⟩, fun hfmt hcap => ?_⟩
    · cases hr.symm.trans hnone
    · rw [hr]
      exact (eq_of_isTerminator ht).imp (congrArg some) (congrArg some)
    · exact absurd hcommit (commitLine_ne_raise hi.takeRx hc hfmt hcap)

/-- R82, R86: after a terminator's effect the interpreter is in Idle with len 0. -/
theorem pollEffect_terminator (hi : s.Inv) (ht : isTerminator b = true) (h : pollEffect (some b) s = .ok t) :
    t.cmdState = .idle ∧ t.len = 0 := by
  cases hc : s.cmdState with
  | idle =>
    rw [pollEffect_of_stray hc ht] at h
    obtain rfl := Except.ok.inj h
    exact ⟨hc, hi.idle_iff.1 hc⟩
  | collecting =>
    rw [pollEffect_of_commit hc ht] at h
    obtain ⟨tag, u, -, -, rfl⟩ := commitLine_eq_ok.1 h
    exact ⟨rfl, rfl⟩

/-- Settles O37: POLL answers a state by O36, and without a fault it is its effect's. -/
theorem terminatorsResynchronise : Obligations.TerminatorsResynchronise := by
  intro s b hi hf hp hr ht
  obtain ⟨t, hpoll, -, -, -, hshort⟩ := pollAlwaysCompletes s hi hf hp
  refine ⟨t, hpoll, fun hnofault => ?_, hshort⟩
  obtain ⟨-, -, ⟨u, hu, rfl⟩ | ⟨-, rfl⟩⟩ := exec_poll_eq_next.1 hpoll
  · rw [hr] at hu
    have hcleared := pollEffect_terminator hi.takeRx ht hu
    exact hcleared
  · rw [raise_of_noFault (s := s.takeRx) hf] at hnofault
    cases hnofault

/-! ### From POLL to CTRL -/

/-- R13: a run leaves every element that none of its operations may write. -/
theorem runAll_same {is : List Instr} {r : Reg} (hr : ∀ i ∈ is, r ∉ mayWrite i) (h : runAll is s = some t) :
    r.same s t := by
  induction is generalizing s with
  | nil =>
    obtain rfl := Option.some.inj h
    exact r.same_refl s
  | cons i is ih =>
    obtain ⟨hri, hris⟩ := List.forall_mem_cons.1 hr
    obtain ⟨u, hu, hrun⟩ := runAll_cons_eq_some.1 h
    exact Reg.same_trans (exec_frame hu r hri) (ih hris hrun)

/-- Settles O47: TICK and SNAP may write none of the elements PID_STEP reads. -/
theorem commandsReachTheSameIterationsPidStep : Obligations.CommandsReachTheSameIterationsPidStep := by
  intro is s t his hrun
  have hsame (r : Reg) (htick : r ∉ mayWrite .tick) (hsnap : r ∉ mayWrite .snap) : r.same s t :=
    runAll_same (fun i hi => by obtain rfl | rfl := his i hi <;> assumption) hrun
  have hsp : t.setpoint = s.setpoint := hsame .setpoint (by decide) (by decide)
  have hkp : t.kp = s.kp := hsame .kp (by decide) (by decide)
  have hki : t.ki = s.ki := hsame .ki (by decide) (by decide)
  have hkd : t.kd = s.kd := hsame .kd (by decide) (by decide)
  have hparams : t.params = s.params := hsame .params (by decide) (by decide)
  have hintegral : t.integralError = s.integralError := hsame .integralError (by decide) (by decide)
  have hlast : t.lastError = s.lastError := hsame .lastError (by decide) (by decide)
  exact ⟨hsp, hkp, hki, hkd, fun n => by simp only [pidOf, hsp, hkp, hki, hkd, hparams, hintegral, hlast]⟩

end Sys2Proof.Machine
end

section
/-! SUPPORT. The control-loop sequencer (R96 to R110): CTRL and RPT before and after their intervals, the cycle of
phases, and that the block always has a step. -/

namespace Sys2Proof.Machine

open Sys2Proof

variable {s t : State}

/-! ### CTRL -/

/-- R98: the control interval has elapsed, as its comparison. -/
theorem controlDue_iff :
    controlDue s = true ↔ s.params.controlInterval ≤ elapsed s.params s.nowLatch s.lastControlTime :=
  decide_eq_true_iff

/-- Settles O39: CTRL's one next state where the interval has not elapsed. -/
theorem controlBeforeItsIntervalOnlyMovesOn : Obligations.ControlBeforeItsIntervalOnlyMovesOn := by
  intro s hs hp hlt
  have hdue : controlDue s = false := Bool.eq_false_iff.2 fun h => hlt.not_ge (controlDue_iff.1 h)
  exact exec_ctrl_eq_next.2 ⟨hs.ranIn, hp, .inl ⟨hdue, rfl⟩⟩

/-- R99, R112: where its interval has elapsed and its sample is in range, CTRL actuates the count of PID_STEP on the
sample, or raises NONFINITE. -/
theorem exec_ctrl_of_due (hs : s.Running) (hp : s.phase = .ctrl)
    (hdue : s.params.controlInterval ≤ elapsed s.params s.nowLatch s.lastControlTime)
    (hn : s.adcNext ≤ s.params.sensorMax) :
    exec .ctrl s = .next t ↔
      (∃ x, pidOf s s.adcNext = some x ∧ (ctrlWrite s.adcNext (pidWrite s.takeAdc x)).toPhase .rpt = t) ∨
        (pidOf s s.adcNext = none ∧ s.takeAdc.raise .nonfinite = t) := by
  rw [← controlDue_iff] at hdue
  simp [exec_ctrl_eq_next, and_iff_right hs.ranIn, hp, hdue, hn]

/-- Settles O40: PID_STEP and CTRL on the same sample have the same result to write back. -/
theorem controlStepActuatesThePidCount : Obligations.ControlStepActuatesThePidCount :=
  fun _ x hs hp hdue hn hx => ⟨(exec_pidStep_of_due hs hp hdue hn).2 (.inl ⟨x, hx, rfl⟩),
    (exec_ctrl_of_due hs hp hdue hn).2 (.inl ⟨x, hx, rfl⟩)⟩

/-- Settles O41: PID_STEP has no result exactly where a rounding overflows. -/
theorem controlOverflowRaisesNonfinite : Obligations.ControlOverflowRaisesNonfinite := by
  intro s e hs hp hdue hn he
  obtain rfl : e = deadBandError s.params s.setpoint s.adcNext := he
  have hexec (t : State) := exec_ctrl_of_due (t := t) hs hp hdue hn
  rw [← pidOf_eq_none_iff (paramRanges_of_legal hs.legal)]
  constructor
  · exact fun hnone => (hexec _).2 (.inr ⟨hnone, raise_of_noFault (s := s.takeAdc) hs.noFault⟩)
  · intro hsome
    obtain ⟨x, hx⟩ := Option.ne_none_iff_exists'.1 hsome
    exact ⟨_, (hexec _).2 (.inl ⟨x, hx, rfl⟩), hs.noFault⟩

/-- R99: with its sample in range CTRL always has a next state. -/
theorem exec_ctrl_completes (hs : s.Running) (hp : s.phase = .ctrl) (hn : s.adcNext ≤ s.params.sensorMax) :
    ∃ t, exec .ctrl s = .next t := by
  rcases Nat.lt_or_ge (elapsed s.params s.nowLatch s.lastControlTime) s.params.controlInterval with hlt | hdue
  · exact ⟨_, controlBeforeItsIntervalOnlyMovesOn s hs hp hlt⟩
  · cases hx : pidOf s s.adcNext with
    | some x => exact ⟨_, (exec_ctrl_of_due hs hp hdue hn).2 (.inl ⟨x, hx, rfl⟩)⟩
    | none => exact ⟨_, (exec_ctrl_of_due hs hp hdue hn).2 (.inr ⟨hx, rfl⟩)⟩

/-! ### RPT -/

/-- R98: the report interval has elapsed, as its comparison. -/
theorem reportDue_iff :
    reportDue s = true ↔ s.params.reportInterval ≤ elapsed s.params s.nowLatch s.lastReportTime :=
  decide_eq_true_iff

/-- Settles O42: RPT's one next state where the interval has not elapsed. -/
theorem reportBeforeItsIntervalOnlyMovesOn : Obligations.ReportBeforeItsIntervalOnlyMovesOn := by
  intro s hs hp hlt
  have hdue : reportDue s = false := Bool.eq_false_iff.2 fun h => hlt.not_ge (reportDue_iff.1 h)
  exact exec_rpt_eq_next.2 ⟨hs.ranIn, hp, .inl ⟨hdue, rfl⟩⟩

/-- R101: where its interval has elapsed RPT reports the latched sample, or a fresh one in range. -/
theorem exec_rpt_of_due (hs : s.Running) (hp : s.phase = .rpt)
    (hdue : s.params.reportInterval ≤ elapsed s.params s.nowLatch s.lastReportTime) :
    exec .rpt s = .next t ↔
      (s.params.reportSrc = .latched ∧ (reportWrite s.rptSample s).toPhase .poll = t) ∨
        (s.params.reportSrc = .fresh ∧ s.adcNext ≤ s.params.sensorMax ∧
          (reportWrite s.adcNext s.takeAdc).toPhase .poll = t) := by
  rw [← reportDue_iff] at hdue
  simp [exec_rpt_eq_next, and_iff_right hs.ranIn, hp, hdue]

/-- Settles O43: RPT's one next state for each report source. -/
theorem reportStepEmitsTheReport : Obligations.ReportStepEmitsTheReport :=
  fun _ hs hp hdue => ⟨fun hsrc => (exec_rpt_of_due hs hp hdue).2 (.inl ⟨hsrc, rfl⟩),
    fun hsrc hn => (exec_rpt_of_due hs hp hdue).2 (.inr ⟨hsrc, hn, rfl⟩)⟩

/-- R101: with its sample in range RPT always has a next state. -/
theorem exec_rpt_completes (hs : s.Running) (hp : s.phase = .rpt) (hn : s.adcNext ≤ s.params.sensorMax) :
    ∃ t, exec .rpt s = .next t := by
  rcases Nat.lt_or_ge (elapsed s.params s.nowLatch s.lastReportTime) s.params.reportInterval with hlt | hdue
  · exact ⟨_, reportBeforeItsIntervalOnlyMovesOn s hs hp hlt⟩
  · cases hsrc : s.params.reportSrc with
    | latched => exact ⟨_, (exec_rpt_of_due hs hp hdue).2 (.inl ⟨hsrc, rfl⟩)⟩
    | fresh => exact ⟨_, (exec_rpt_of_due hs hp hdue).2 (.inr ⟨hsrc, hn, rfl⟩)⟩

/-! ### The cycle of phases -/

/-- R112: a raise leaves a fault recorded. -/
theorem raise_faults_ne_nil (s : State) (k : FaultKind) : (s.raise k).faults ≠ [] := by
  simp only [State.raise]
  split
  · rename_i h
    exact List.ne_nil_of_mem (List.contains_iff_mem.1 h)
  · simp

/-- R80: a byte row that does not raise moves from POLL to SNAP. -/
theorem pollRow_nextPhase {place : Bool} {r : Option Byte} {e : State → Effect} (h : pollRow s place r e = .next t)
    (hf : t.faults = []) : t.phase = nextPhase s.phase := by
  obtain ⟨-, -, hp, -, -, ⟨u, -, rfl⟩ | ⟨k, -, rfl⟩⟩ := pollRow_eq_next.1 h
  · rw [hp]
    rfl
  · exact absurd hf (raise_faults_ne_nil _ k)

/-- R96: an operation that may write phase moves it on in the cycle. -/
theorem exec_nextPhase {i : Instr} (hw : Reg.phase ∈ mayWrite i) (h : exec i s = .next t) (hf : t.faults = []) :
    t.phase = nextPhase s.phase := by
  cases i with
  | rxNone | discardLf | discardCr | tag | store | drop | commitLf | commitCr => exact pollRow_nextPhase h hf
  | cmdS | cmdP | cmdI | cmdD | cmdOther | tick | pidStep => simp [mayWrite] at hw
  | poll =>
    obtain ⟨-, hp, ⟨u, -, rfl⟩ | ⟨-, rfl⟩⟩ := exec_poll_eq_next.1 h
    · rw [hp]
      rfl
    · exact absurd hf (raise_faults_ne_nil _ _)
  | snap =>
    obtain ⟨-, hp, rfl⟩ := exec_snap_eq_next.1 h
    rw [hp]
    rfl
  | ctrl =>
    obtain ⟨-, hp, ⟨-, rfl⟩ | ⟨-, -, ⟨x, -, rfl⟩ | ⟨-, rfl⟩⟩⟩ := exec_ctrl_eq_next.1 h
    · rw [hp]
      rfl
    · rw [hp]
      rfl
    · exact absurd hf (raise_faults_ne_nil _ _)
  | rpt =>
    obtain ⟨-, hp, ⟨-, rfl⟩ | ⟨-, ⟨-, rfl⟩ | ⟨-, -, rfl⟩⟩⟩ := exec_rpt_eq_next.1 h <;> rw [hp] <;> rfl

/-- Settles O44: by whether the operation's rule lets it write phase. -/
theorem phasesFollowTheCycle : Obligations.PhasesFollowTheCycle := by
  intro i s t h hf
  split_ifs with hw
  · exact exec_nextPhase hw h hf
  · exact exec_frame h .phase hw

/-! ### The block always has a step -/

/-- R96, R107: the sequencer's operation has a next state at each phase. -/
theorem exec_sequencerNext_completes (hi : s.Inv) (hf : s.faults = []) (hn : s.adcNext ≤ s.params.sensorMax) :
    ∃ t, exec (sequencerNext s) s = .next t := by
  have hs : s.Running := ⟨hi.legal, hf⟩
  unfold sequencerNext
  cases hp : s.phase with
  | poll =>
    obtain ⟨t, ht, -⟩ := pollAlwaysCompletes s hi hf hp
    exact ⟨t, exec_poll_eq_decodeRx s ▸ ht⟩
  | snap => exact ⟨_, snapLatchesTheCounter s hs hp⟩
  | ctrl => exact exec_ctrl_completes hs hp hn
  | rpt => exact exec_rpt_completes hs hp hn

/-- Settles O45, by the agent that moves. -/
theorem theBlockAlwaysHasAStep : Obligations.TheBlockAlwaysHasAStep := by
  intro s hi hf hn
  cases hagent : s.agentNext with
  | tick =>
    rw [step_of_tick hagent]
    exact ⟨_, exec_tick_eq_next.2 ⟨⟨hi.legal, hf⟩, rfl⟩⟩
  | sequencer =>
    rw [step_of_sequencer hagent]
    exact exec_sequencerNext_completes hi.takeAgent hf hn

/-! ### The actuator -/

/-- R24: CTRL is the one operation whose rule lets it write last_control_time. -/
theorem lastControlTime_mem_mayWrite {i : Instr} : Reg.lastControlTime ∈ mayWrite i ↔ i = .ctrl := by
  cases i <;> simp [mayWrite, commitWrites]

/-- R29: CTRL is the one operation whose rule lets it write the actuator. -/
theorem actOut_mem_mayWrite {i : Instr} : Reg.actOut ∈ mayWrite i ↔ i = .ctrl := by
  cases i <;> simp [mayWrite, commitWrites]

/-- R99: a CTRL that changes last_control_time or the actuator had its interval elapsed at the snapshot. -/
theorem exec_ctrl_changed (h : exec .ctrl s = .next t)
    (hne : t.lastControlTime ≠ s.lastControlTime ∨ t.actOut ≠ s.actOut) :
    t.lastControlTime = s.nowLatch ∧ controlDue s = true := by
  obtain ⟨-, -, ⟨-, rfl⟩ | ⟨hdue, -, ⟨x, -, rfl⟩ | ⟨-, rfl⟩⟩⟩ := exec_ctrl_eq_next.1 h
  · simp at hne
  · exact ⟨rfl, hdue⟩
  · simp at hne

/-- Settles O46: only CTRL may write either element. -/
theorem controlStepsAreAnIntervalApart : Obligations.ControlStepsAreAnIntervalApart := by
  intro i s t h hne
  have hctrl : i = .ctrl := by
    by_contra hi
    exact hne.elim (· (exec_frame h .lastControlTime (mt lastControlTime_mem_mayWrite.1 hi)))
      (· (exec_frame h .actOut (mt actOut_mem_mayWrite.1 hi)))
  subst hctrl
  obtain ⟨hlast, hdue⟩ := exec_ctrl_changed h hne
  rw [hlast]
  exact ⟨rfl, rfl, controlDue_iff.1 hdue⟩

/-- Settles O59: the width is the least whose power of two is above MAX_COUNT, which bounds the count. -/
theorem actuatorCountFitsItsSignal : Obligations.ActuatorCountFitsItsSignal :=
  ⟨fun _ hi => (Nat.lt_succ_of_le hi.actOut_range.2).trans_le (Nat.le_pow_clog Nat.one_lt_two _),
    Nat.clog_pow 2 9 Nat.one_lt_two⟩

end Sys2Proof.Machine
end

section
/-! SUPPORT. The fault set (R112, R113): which operations may record a fault, that the one which does writes nothing
else, and that the block is quiescent after it. -/

namespace Sys2Proof.Machine

open Sys2Proof

variable {s t : State} {i : Instr}

/-! ### Quiescence -/

/-- R112: a block that holds a fault stops every operation. -/
theorem exec_faulted (hl : s.params.legal = true) (hf : s.faults ≠ []) (i : Instr) :
    exec i s = .fault .nonfinite := by
  obtain ⟨enabled, result, h⟩ := exec_eq_gate i s
  rw [h, gate_faulted hl hf]

/-- Settles O51: the agent's choice leaves the parameters and the fault set, and no operation passes the gate. -/
theorem faultedBlockTakesNoStep : Obligations.FaultedBlockTakesNoStep :=
  fun s hl hf => ⟨exec_faulted (s := s.takeAgent) hl hf (fetch s), exec_faulted hl hf⟩

/-- R112: an operation that has a next state ran in an unfaulted block. -/
theorem noFault_of_exec (h : exec i s = .next t) : s.faults = [] := by
  obtain ⟨enabled, result, hg⟩ := exec_eq_gate i s
  obtain ⟨-, hf, -⟩ := gate_eq_next.1 (hg ▸ h)
  exact hf

/-! ### The step that raises -/

/-- R112: the next state is the old one, less at most one draw, with NONFINITE raised. -/
def OnlyRaised (s t : State) : Prop := ∃ u ∈ [s, s.takeRx, s.takeAdc], t = u.raise .nonfinite

theorem onlyRaised_self (s : State) : OnlyRaised s (s.raise .nonfinite) := ⟨s, by simp, rfl⟩

theorem onlyRaised_takeRx (s : State) : OnlyRaised s (s.takeRx.raise .nonfinite) := ⟨s.takeRx, by simp, rfl⟩

theorem onlyRaised_takeAdc (s : State) : OnlyRaised s (s.takeAdc.raise .nonfinite) := ⟨s.takeAdc, by simp, rfl⟩

/-- R112: in an unfaulted block the fault set of the raising step is {NONFINITE}. -/
theorem OnlyRaised.eq_of_noFault (h : OnlyRaised s t) (hf : s.faults = []) :
    t = { s with faults := [.nonfinite] } ∨ t = { s.takeRx with faults := [.nonfinite] } ∨
      t = { s.takeAdc with faults := [.nonfinite] } := by
  obtain ⟨u, hu, rfl⟩ := h
  have hu' : u = s ∨ u = s.takeRx ∨ u = s.takeAdc := by simpa using hu
  rcases hu' with rfl | rfl | rfl
  · exact .inl (raise_of_noFault hf)
  · exact .inr (.inl (raise_of_noFault (s := s.takeRx) hf))
  · exact .inr (.inr (raise_of_noFault (s := s.takeAdc) hf))

/-- R113: the operations whose rule lets them write the fault set. -/
theorem faults_mem_mayWrite : Reg.faults ∈ mayWrite i ↔
    i ∈ [Instr.commitLf, .commitCr, .cmdS, .cmdP, .cmdI, .cmdD, .poll, .ctrl] ∨ ∃ n, i = .pidStep n := by
  cases i <;> simp [mayWrite, commitWrites]

/-- R86: a commit that applies its line leaves the fault set. -/
theorem commitAnswers_onlyRaised (h : CommitAnswers s t) (hne : t.faults ≠ s.faults) : OnlyRaised s t := by
  obtain ⟨tag, u, -, hu, rfl⟩ | ⟨-, rfl⟩ := h
  · exact absurd (applyTag_frame hu .faults (by decide)) hne
  · exact onlyRaised_takeRx s

/-- R88 to R91: a dispatch row that stores its value leaves the fault set. -/
theorem applyAnswers_onlyRaised {write : NumVal → State} (h : ApplyAnswers s t write)
    (hw : ∀ v, (write v).faults = s.faults) (hne : t.faults ≠ s.faults) : OnlyRaised s t := by
  obtain ⟨v, -, rfl⟩ | ⟨-, rfl⟩ := h
  · exact absurd (hw v) hne
  · exact onlyRaised_self s

/-- R112: an operation that may write the fault set and changes it has raised, and written nothing else. -/
theorem exec_onlyRaised (hw : Reg.faults ∈ mayWrite i) (h : exec i s = .next t) (hne : t.faults ≠ s.faults) :
    OnlyRaised s t := by
  cases i with
  | rxNone | discardLf | discardCr | tag | store | drop | cmdOther | tick | snap | rpt => simp [mayWrite] at hw
  | commitLf =>
    obtain ⟨-, -, -, -, hc⟩ := exec_commitLf_eq_next.1 h
    exact commitAnswers_onlyRaised hc hne
  | commitCr =>
    obtain ⟨-, -, -, -, hc⟩ := exec_commitCr_eq_next.1 h
    exact commitAnswers_onlyRaised hc hne
  | cmdS =>
    obtain ⟨-, -, ha⟩ := exec_cmdS_eq_next.1 h
    exact applyAnswers_onlyRaised ha (fun _ => rfl) hne
  | cmdP =>
    obtain ⟨-, -, ha⟩ := exec_cmdP_eq_next.1 h
    exact applyAnswers_onlyRaised ha (fun _ => rfl) hne
  | cmdI =>
    obtain ⟨-, -, ha⟩ := exec_cmdI_eq_next.1 h
    exact applyAnswers_onlyRaised ha (fun _ => rfl) hne
  | cmdD =>
    obtain ⟨-, -, ha⟩ := exec_cmdD_eq_next.1 h
    exact applyAnswers_onlyRaised ha (fun _ => rfl) hne
  | poll =>
    obtain ⟨-, -, ⟨u, hu, rfl⟩ | ⟨-, rfl⟩⟩ := exec_poll_eq_next.1 h
    · exact absurd (pollEffect_frame hu .faults (by decide)) hne
    · exact onlyRaised_takeRx s
  | ctrl =>
    obtain ⟨-, -, ⟨-, rfl⟩ | ⟨-, -, ⟨x, -, rfl⟩ | ⟨-, rfl⟩⟩⟩ := exec_ctrl_eq_next.1 h
    · exact absurd rfl hne
    · exact absurd rfl hne
    · exact onlyRaised_takeAdc s
  | pidStep n =>
    obtain ⟨-, -, -, -, ⟨x, -, rfl⟩ | ⟨-, rfl⟩⟩ := exec_pidStep_eq_next.1 h
    · exact absurd rfl hne
    · exact onlyRaised_self s

/-- Settles O50: the frame says who may raise, and such an operation changes the fault set only by raising. -/
theorem raisingStepsWriteOnlyTheFaultSet : Obligations.RaisingStepsWriteOnlyTheFaultSet := by
  intro i s t h hne
  have hw : Reg.faults ∈ mayWrite i := by
    by_contra hw
    exact hne (exec_frame h .faults hw)
  exact ⟨faults_mem_mayWrite.1 hw, (exec_onlyRaised hw h hne).eq_of_noFault (noFault_of_exec h)⟩

end Sys2Proof.Machine
end

section
/-! SUPPORT. Reset and what holds after it (R126 to R128): the first PID step and the first report wait for their
interval, and until then the values of reset hold along every run. -/

namespace Sys2Proof.Machine

open Sys2Proof

variable {s t : State} {p : Params} {i : Instr}

/-- Settles O54: each element of the reset state is the table's entry, and an empty buffer reads no value. -/
theorem resetLeavesTheTablesValues : Obligations.ResetLeavesTheTablesValues := by
  intro p
  have hbuf (i : Nat) : Memory.read (State.resetOf p).buf i = none := rfl
  exact ⟨rfl, rfl, rfl, rfl, rfl, rfl, rfl, rfl, rfl, rfl, rfl, rfl, rfl, rfl, rfl, rfl, rfl, rfl, hbuf, rfl, rfl, rfl⟩

/-! ### The first PID step and the first report -/

/-- R63: the time elapsed since reset is the snapshot itself. -/
theorem elapsed_zero {a : Nat} (ha : a < 2 ^ p.clkW) : elapsed p a 0 = a := by
  simpa [Nat.mod_eq_of_lt ha] using elapsed_add_mod p 0 a

/-- R128 (1): with last_control_time 0, the control interval is compared with the snapshot. -/
theorem State.Inv.elapsed_control (hi : s.Inv) (hlast : s.lastControlTime = 0) :
    elapsed s.params s.nowLatch s.lastControlTime = s.nowLatch := by
  rw [hlast, elapsed_zero hi.nowLatch_lt]

/-- R128 (4): with last_report_time 0, the report interval is compared with the snapshot. -/
theorem State.Inv.elapsed_report (hi : s.Inv) (hlast : s.lastReportTime = 0) :
    elapsed s.params s.nowLatch s.lastReportTime = s.nowLatch := by
  rw [hlast, elapsed_zero hi.nowLatch_lt]

/-- R99: a CTRL in its interval that raises nothing has actuated, latched and noted what PID_STEP on the drawn sample
returns. -/
theorem exec_ctrl_unfaulted (hs : s.Running) (hp : s.phase = .ctrl)
    (hdue : s.params.controlInterval ≤ elapsed s.params s.nowLatch s.lastControlTime)
    (hn : s.adcNext ≤ s.params.sensorMax) (h : exec .ctrl s = .next t) (hf : t.faults = []) :
    t.actOut = t.rptOutput ∧ t.rptSample = s.adcNext ∧ t.lastControlTime = s.nowLatch ∧ t.phase = .rpt ∧
      exec (.pidStep s.adcNext) s = .next
        { s with integralError := t.integralError, lastError := t.lastError, pidRet := t.actOut } := by
  rcases (exec_ctrl_of_due hs hp hdue hn).1 h with ⟨x, hx, rfl⟩ | ⟨-, rfl⟩
  · obtain ⟨hpid, -⟩ := controlStepActuatesThePidCount s x hs hp hdue hn hx
    exact ⟨rfl, rfl, rfl, rfl, hpid⟩
  · exact absurd hf (raise_faults_ne_nil _ _)

/-- R101: an RPT in its interval appends one report, of the sample its source names. -/
theorem exec_rpt_reports (hs : s.Running) (hp : s.phase = .rpt)
    (hdue : s.params.reportInterval ≤ elapsed s.params s.nowLatch s.lastReportTime) (h : exec .rpt s = .next t) :
    t.lastReportTime = s.nowLatch ∧ t.phase = .poll ∧ t.trace = s.trace ++
      [⟨s.nowLatch, if s.params.reportSrc = .latched then s.rptSample else s.adcNext, s.rptOutput⟩] := by
  rcases (exec_rpt_of_due hs hp hdue).1 h with ⟨hsrc, rfl⟩ | ⟨hsrc, -, rfl⟩ <;> simp [hsrc]

/-- Settles O55: since reset the snapshot is the time elapsed. -/
theorem firstStepsAfterResetWaitForTheirInterval : Obligations.FirstStepsAfterResetWaitForTheirInterval := by
  intro s hi hf hn
  have hs : s.Running := ⟨hi.legal, hf⟩
  refine ⟨fun hp hlast => ?_, fun hp hlast => ?_⟩
  · have helapsed := hi.elapsed_control hlast
    refine ⟨fun hlt => controlBeforeItsIntervalOnlyMovesOn s hs hp (helapsed.trans_lt hlt), fun hle => ?_⟩
    obtain ⟨t, ht⟩ := exec_ctrl_completes hs hp hn
    exact ⟨t, ht, exec_ctrl_unfaulted hs hp (hle.trans_eq helapsed.symm) hn ht⟩
  · have helapsed := hi.elapsed_report hlast
    refine ⟨fun hlt => reportBeforeItsIntervalOnlyMovesOn s hs hp (helapsed.trans_lt hlt), fun hle => ?_⟩
    obtain ⟨t, ht⟩ := exec_rpt_completes hs hp hn
    exact ⟨t, ht, exec_rpt_reports hs hp (hle.trans_eq helapsed.symm) ht⟩

/-! ### The snapshot since reset -/

/-- R16: SNAP is the one operation whose rule lets it write the snapshot. -/
theorem nowLatch_mem_mayWrite : Reg.nowLatch ∈ mayWrite i ↔ i = .snap := by
  cases i <;> simp [mayWrite, commitWrites]

/-- R62: an operation leaves the snapshot or sets it to the counter. -/
theorem exec_nowLatch (h : exec i s = .next t) : t.nowLatch = s.nowLatch ∨ t.nowLatch = s.clk := by
  by_cases hsnap : i = .snap
  · subst hsnap
    exact .inr (exec_snap_clock h).1
  · exact .inl (exec_frame h .nowLatch (mt nowLatch_mem_mayWrite.1 hsnap))

/-- R64: what every operation keeps while the snapshot is below n, a run of fewer than n ticks since reset keeps: the
counter does not wrap, so the snapshot, never ahead of it, stays below n. -/
theorem runAll_keeps_while_below {P : State → Prop} {n : Nat} {is : List Instr}
    (hstep : ∀ {i s t}, s.Inv → s.nowLatch < n → P s → exec i s = .next t → P t)
    (hi : s.Inv) (hn : n ≤ 2 ^ s.params.clkW) (hlatch : s.nowLatch ≤ s.clk) (hticks : s.clk + is.count .tick < n)
    (hs : P s) (h : runAll is s = some t) : P t := by
  induction is generalizing s with
  | nil =>
    cases h
    exact hs
  | cons i is ih =>
    obtain ⟨u, hu, hrun⟩ := runAll_cons_eq_some.1 h
    have hcount : (i :: is).count .tick = [i].count .tick + is.count .tick := List.count_append (l₁ := [i])
    have hclk : u.clk = s.clk + [i].count .tick := by
      rw [exec_clk hi hu, Nat.mod_eq_of_lt (by omega)]
    have hulatch : u.nowLatch ≤ u.clk := by
      rcases exec_nowLatch hu with h | h <;> omega
    exact ih (hi.exec hu) (exec_params hu ▸ hn) hulatch (by omega) (hstep hi (by omega) hs hu) hrun

/-! ### Before the first control interval -/

/-- What CTRL writes where its interval has elapsed, and no other operation does but PID_STEP. -/
def controlRegs : List Reg := [.actOut, .integralError, .lastError, .lastControlTime, .rptSample, .rptOutput]

/-- R99, R67: the operations whose rule lets them write one of these elements. -/
theorem mem_mayWrite_of_mem_controlRegs {r : Reg} (hr : r ∈ controlRegs) (hw : r ∈ mayWrite i) :
    i = .ctrl ∨ ∃ n, i = .pidStep n := by
  cases i with
  | ctrl => exact .inl rfl
  | pidStep n => exact .inr ⟨n, rfl⟩
  | _ => fin_cases hr <;> simp [mayWrite, commitWrites] at hw

/-- R99: where the control interval has not elapsed no operation writes these elements. -/
theorem exec_keeps_controlRegs (hdue : controlDue s = false) (h : exec i s = .next t) {r : Reg}
    (hr : r ∈ controlRegs) : r.same s t := by
  by_cases hw : r ∈ mayWrite i
  · rcases mem_mayWrite_of_mem_controlRegs hr hw with rfl | ⟨n, rfl⟩
    · obtain ⟨-, -, ⟨-, rfl⟩ | ⟨hdue', -⟩⟩ := exec_ctrl_eq_next.1 h
      · exact toPhase_frame s .rpt r fun hphase => by simp [List.mem_singleton.1 hphase, controlRegs] at hr
      · simp [hdue] at hdue'
    · obtain ⟨-, -, hdue', -⟩ := exec_pidStep_eq_next.1 h
      simp [hdue] at hdue'
  · exact exec_frame h r hw

/-- R105: RPT is the one operation whose rule lets it write the output trace. -/
theorem trace_mem_mayWrite : Reg.trace ∈ mayWrite i ↔ i = .rpt := by
  cases i <;> simp [mayWrite, commitWrites]

/-- R101: an operation leaves the trace, or appends a report of the latched output and, with REPORT_SRC = LATCHED, the
latched sample. -/
theorem exec_trace (h : exec i s = .next t) : t.trace = s.trace ∨
    ∃ n, t.trace = s.trace ++ [⟨s.nowLatch, n, s.rptOutput⟩] ∧ (s.params.reportSrc = .latched → n = s.rptSample) := by
  by_cases hrpt : i = .rpt
  · subst hrpt
    obtain ⟨-, -, ⟨-, rfl⟩ | ⟨-, ⟨-, rfl⟩ | ⟨hsrc, -, rfl⟩⟩⟩ := exec_rpt_eq_next.1 h
    · exact .inl rfl
    · exact .inr ⟨_, rfl, fun _ => rfl⟩
    · exact .inr ⟨_, rfl, fun hlatched => by simp [hsrc] at hlatched⟩
  · exact .inl (exec_frame h .trace (mt trace_mem_mayWrite.1 hrpt))

/-- R128 (1) and (2): the values of reset that hold until the first control step, and the reports made of them. -/
structure BeforeFirstControl (p : Params) (s : State) : Prop where
  params : s.params = p
  actOut : s.actOut = p.actReset
  integralError : s.integralError = .posZero
  lastError : s.lastError = 0
  lastControlTime : s.lastControlTime = 0
  rptSample : s.rptSample = 0
  rptOutput : s.rptOutput = 0
  reports : ∀ r ∈ s.trace, r.output = 0 ∧ (p.reportSrc = .latched → r.sample = 0)

/-- R128 (1): while the snapshot is below CONTROL_INTERVAL every operation keeps them. -/
theorem BeforeFirstControl.exec (hb : BeforeFirstControl p s) (hi : s.Inv) (hlt : s.nowLatch < p.controlInterval)
    (h : exec i s = .next t) : BeforeFirstControl p t := by
  have hdue : controlDue s = false := by
    rw [Bool.eq_false_iff, Ne, controlDue_iff, hi.elapsed_control hb.lastControlTime, hb.params]
    exact hlt.not_ge
  have hkeep (r : Reg) (hr : r ∈ controlRegs) : r.same s t := exec_keeps_controlRegs hdue h hr
  exact
    { params := (exec_params h).trans hb.params
      actOut := Eq.trans (hkeep .actOut (by decide)) hb.actOut
      integralError := Eq.trans (hkeep .integralError (by decide)) hb.integralError
      lastError := Eq.trans (hkeep .lastError (by decide)) hb.lastError
      lastControlTime := Eq.trans (hkeep .lastControlTime (by decide)) hb.lastControlTime
      rptSample := Eq.trans (hkeep .rptSample (by decide)) hb.rptSample
      rptOutput := Eq.trans (hkeep .rptOutput (by decide)) hb.rptOutput
      reports := by
        rcases exec_trace h with htrace | ⟨n, htrace, hn⟩ <;> rw [htrace]
        · exact hb.reports
        · rw [hb.params, hb.rptSample] at hn
          exact List.forall_mem_append.2 ⟨hb.reports, List.forall_mem_singleton.2 ⟨hb.rptOutput, hn⟩⟩ }

/-! ### Before the first report interval -/

/-- R25: RPT is the one operation whose rule lets it write last_report_time. -/
theorem lastReportTime_mem_mayWrite : Reg.lastReportTime ∈ mayWrite i ↔ i = .rpt := by
  cases i <;> simp [mayWrite, commitWrites]

/-- R101: where the report interval has not elapsed no operation reports. -/
theorem exec_keeps_reports (hdue : reportDue s = false) (h : exec i s = .next t) :
    t.trace = s.trace ∧ t.lastReportTime = s.lastReportTime := by
  by_cases hrpt : i = .rpt
  · subst hrpt
    obtain ⟨-, -, ⟨-, rfl⟩ | ⟨hdue', -⟩⟩ := exec_rpt_eq_next.1 h
    · exact ⟨rfl, rfl⟩
    · simp [hdue] at hdue'
  · exact ⟨exec_frame h .trace (mt trace_mem_mayWrite.1 hrpt),
      exec_frame h .lastReportTime (mt lastReportTime_mem_mayWrite.1 hrpt)⟩

/-- R128 (4): nothing reported since reset. -/
structure BeforeFirstReport (p : Params) (s : State) : Prop where
  params : s.params = p
  trace : s.trace = []
  lastReportTime : s.lastReportTime = 0

/-- R128 (4): while the snapshot is below REPORT_INTERVAL no operation reports. -/
theorem BeforeFirstReport.exec (hb : BeforeFirstReport p s) (hi : s.Inv) (hlt : s.nowLatch < p.reportInterval)
    (h : exec i s = .next t) : BeforeFirstReport p t := by
  have hdue : reportDue s = false := by
    rw [Bool.eq_false_iff, Ne, reportDue_iff, hi.elapsed_report hb.lastReportTime, hb.params]
    exact hlt.not_ge
  obtain ⟨htrace, hlast⟩ := exec_keeps_reports hdue h
  exact ⟨(exec_params h).trans hb.params, htrace.trans hb.trace, hlast.trans hb.lastReportTime⟩

/-! ### Along a run from reset -/

/-- R31: reset satisfies the invariant whatever the environment will choose. -/
theorem resetOf_env_inv (hl : p.legal = true) (env : Env) : { State.resetOf p with env := env }.Inv :=
  { resetSatisfiesTheRanges p hl with }

/-- R5: both intervals are values of the counter. -/
theorem intervals_lt_of_legal (hl : p.legal = true) :
    p.controlInterval < 2 ^ p.clkW ∧ p.reportInterval < 2 ^ p.clkW := by
  simp only [Params.legal, Bool.and_eq_true, decide_eq_true_eq, and_assoc] at hl
  obtain ⟨-, -, hcontrol, hreport, -⟩ := hl
  exact ⟨hcontrol, hreport⟩

/-- Settles O60: reset establishes what holds before each interval, and a run of fewer ticks keeps it. -/
theorem resetValuesHoldUntilTheFirstInterval : Obligations.ResetValuesHoldUntilTheFirstInterval := by
  intro p env is t hl hrun
  have hi := resetOf_env_inv hl env
  have hlatch : { State.resetOf p with env := env }.nowLatch ≤ { State.resetOf p with env := env }.clk := le_rfl
  obtain ⟨hcontrol, hreport⟩ := intervals_lt_of_legal hl
  constructor
  · intro hticks
    have hb : BeforeFirstControl p t := runAll_keeps_while_below (fun hi hlt hb => hb.exec hi hlt) hi
      hcontrol.le hlatch ((Nat.zero_add _).trans_lt hticks)
      ⟨rfl, rfl, rfl, rfl, rfl, rfl, rfl, fun _ hr => absurd hr List.not_mem_nil⟩ hrun
    exact ⟨hb.actOut, hb.integralError, hb.lastError, hb.lastControlTime, hb.rptSample, hb.rptOutput, hb.reports⟩
  · intro hticks
    have hb : BeforeFirstReport p t := runAll_keeps_while_below (fun hi hlt hb => hb.exec hi hlt) hi
      hreport.le hlatch ((Nat.zero_add _).trans_lt hticks) ⟨rfl, rfl, rfl⟩ hrun
    exact ⟨hb.trace, hb.lastReportTime⟩

end Sys2Proof.Machine
end
